-- ==== Sys2Proof/Word.lean ====
section
/-! DEFINITION. Word.lean: the word types of VADSB (00_scope.md R9, R13). A payload is a list of bytes (R11); a binary64
value is carried as its 64-bit pattern, NaN payloads included (20_memory.md R74). -/

namespace Sys2Proof

/-- One byte of a payload, of the carry buffer or of a channel buffer (00_scope.md R11). -/
abbrev Byte := BitVec 8

/-- An IEEE 754 binary64 value as its bit pattern, `bits64` of 00_scope.md R13. The arithmetic on it is in
Machine/Float.lean. -/
abbrev F64 := BitVec 64

end Sys2Proof
end

