-- ==== Sys2Proof/Machine/Bytes.lean ====
section
/-! DEFINITION. Machine/Bytes.lean: the little-endian byte lists of 00_scope.md R11 and 20_memory.md R71. -/

namespace Sys2Proof

/-- The `n`-byte little-endian list of `v mod 2^(8n)`: `le_N(v)` of R11 with N = 8n. -/
def leBytes : Nat → Nat → List Byte
  | 0, _ => []
  | n + 1, v => BitVec.ofNat 8 v :: leBytes n (v / 256)

/-- The number whose little-endian bytes are given: the reverse of `leBytes`. -/
def ofLeBytes : List Byte → Nat
  | [] => 0
  | b :: rest => b.toNat + 256 * ofLeBytes rest

end Sys2Proof
end

