-- ==== Sys2Proof/Syntax.lean ====
section
/-! DEFINITION. Syntax.lean: command transactions as they arrive (30_encoding.md R90, R91) and the 14 commands of the opcode
map (R95), one constructor for each row of spec/opcode_table.json. -/

namespace Sys2Proof

/-- The interface a transaction arrives on (00_scope.md R7). -/
inductive Interface where
  | syn | cq | prod | cons
deriving DecidableEq, Repr

/-- One operand word (R91): a u32 (LEN) or a u64 (VAL). -/
inductive Operand where
  | u32 (v : BitVec 32)
  | u64 (v : BitVec 64)
deriving DecidableEq, Repr

/-- A command transaction `(iface, CW, operands, payload)` (R91). -/
structure Transaction where
  iface : Interface
  cw : BitVec 32
  operands : List Operand
  payload : List Byte
deriving DecidableEq, Repr

/-- The commands (R95). `reg` and `pin` are SEL, `blocking` and `value` are F, `len` and `val` are the operand word (R94). -/
inductive Instr where
  /-- SYN.INIT, 0x00000010 (40_synth.md R113). -/
  | synInit
  /-- SYN.GEN, 0x00000011, LEN: the byte count to generate (R120). -/
  | synGen (len : BitVec 32)
  /-- SYN.WREG, 0x0000nn12, VAL: the value to write (R111). -/
  | synWreg (reg : BitVec 8) (val : BitVec 64)
  /-- SYN.RREG, 0x0000nn13 (R112). -/
  | synRreg (reg : BitVec 8)
  /-- CH.CREATE, 0x000fpp20 (41_channel.md R152). -/
  | chCreate (pin : BitVec 8) (blocking : Bool)
  /-- CH.WRITE, 0x0000pp21, LEN: the byte count, and the payload (R155). -/
  | chWrite (pin : BitVec 8) (len : BitVec 32) (payload : List Byte)
  /-- CH.CLOSEP, 0x0000pp22 (R166). -/
  | chClosep (pin : BitVec 8)
  /-- CH.READ, 0x0000pp28, LEN: the most bytes to return (R168). -/
  | chRead (pin : BitVec 8) (len : BitVec 32)
  /-- CH.CLOSEC, 0x0000pp29 (R172). -/
  | chClosec (pin : BitVec 8)
  /-- CQ.OPEN, 0x00000030 (42_control.md R191). -/
  | cqOpen
  /-- CQ.CLOSE, 0x00000031 (R192). -/
  | cqClose
  /-- CQ.INFO, 0x00000032, LEN: the caller's buffer size (R193). -/
  | cqInfo (len : BitVec 32)
  /-- CQ.STATUS, 0x00000033, LEN: the caller's buffer size (R195). -/
  | cqStatus (len : BitVec 32)
  /-- CQ.MUTE, 0x000f0034 (R200). -/
  | cqMute (value : Bool)
deriving DecidableEq, Repr

end Sys2Proof
end

