-- ==== Sys2Proof/WellFormed.lean ====
section
/-! DEFINITION. WellFormed.lean: which terms of `Instr` are commands. Every field has the width its operand has, so the one
check left is the payload length of CH.WRITE (30_encoding.md R92). -/

namespace Sys2Proof

/-- A CH.WRITE carries exactly LEN payload bytes (R92: "the payload length equals LEN"); every other term is well-formed. -/
def Instr.wellFormed : Instr → Bool
  | .synInit => true
  | .synGen _ => true
  | .synWreg _ _ => true
  | .synRreg _ => true
  | .chCreate _ _ => true
  | .chWrite _ len payload => payload.length == len.toNat
  | .chClosep _ => true
  | .chRead _ _ => true
  | .chClosec _ => true
  | .cqOpen => true
  | .cqClose => true
  | .cqInfo _ => true
  | .cqStatus _ => true
  | .cqMute _ => true

/-- The same as a proposition that `decide` evaluates. -/
abbrev Instr.WellFormed (i : Instr) : Prop := i.wellFormed = true

end Sys2Proof
end

