-- ==== Sys2Proof/Decode.lean ====
section
/-! DEFINITION. Decode.lean: from a transaction to a command, an ILLEGAL_COMMAND answer or a refusal at the transport
(30_encoding.md R90 to R98), and the encoder. After them the byte form of a transaction (20_memory.md R71) and the host's
`decodeTableWord`. -/

namespace Sys2Proof

/-- The 14 operation codes of R95. -/
inductive Opcode where
  | synInit | synGen | synWreg | synRreg
  | chCreate | chWrite | chClosep | chRead | chClosec
  | cqOpen | cqClose | cqInfo | cqStatus | cqMute
deriving DecidableEq, Repr

/-- The rows of R95, in its order. -/
def Opcode.all : List Opcode :=
  [.synInit, .synGen, .synWreg, .synRreg, .chCreate, .chWrite, .chClosep, .chRead, .chClosec,
    .cqOpen, .cqClose, .cqInfo, .cqStatus, .cqMute]

/-- The OPC column of R95. -/
def Opcode.code : Opcode → BitVec 8
  | .synInit => 0x10
  | .synGen => 0x11
  | .synWreg => 0x12
  | .synRreg => 0x13
  | .chCreate => 0x20
  | .chWrite => 0x21
  | .chClosep => 0x22
  | .chRead => 0x28
  | .chClosec => 0x29
  | .cqOpen => 0x30
  | .cqClose => 0x31
  | .cqInfo => 0x32
  | .cqStatus => 0x33
  | .cqMute => 0x34

/-- The interface column of R95: where the opcode is accepted (R96). -/
def Opcode.iface : Opcode → Interface
  | .synInit => .syn
  | .synGen => .syn
  | .synWreg => .syn
  | .synRreg => .syn
  | .chCreate => .prod
  | .chWrite => .prod
  | .chClosep => .prod
  | .chRead => .cons
  | .chClosec => .cons
  | .cqOpen => .cq
  | .cqClose => .cq
  | .cqInfo => .cq
  | .cqStatus => .cq
  | .cqMute => .cq

/-- The SEL column of R95: true where SEL names a register or a pin, false where the column is 0. -/
def Opcode.usesSel : Opcode → Bool
  | .synInit => false
  | .synGen => false
  | .synWreg => true
  | .synRreg => true
  | .chCreate => true
  | .chWrite => true
  | .chClosep => true
  | .chRead => true
  | .chClosec => true
  | .cqOpen => false
  | .cqClose => false
  | .cqInfo => false
  | .cqStatus => false
  | .cqMute => false

/-- The F column of R95: true where F carries a value, false where the column is 0. -/
def Opcode.usesFlag : Opcode → Bool
  | .synInit => false
  | .synGen => false
  | .synWreg => false
  | .synRreg => false
  | .chCreate => true
  | .chWrite => false
  | .chClosep => false
  | .chRead => false
  | .chClosec => false
  | .cqOpen => false
  | .cqClose => false
  | .cqInfo => false
  | .cqStatus => false
  | .cqMute => true

/-- How many operand bytes an opcode takes: a LEN is a u32, a VAL a u64 (R91). -/
def Opcode.operandBytes : Opcode → Nat
  | .synInit => 0
  | .synGen => 4
  | .synWreg => 8
  | .synRreg => 0
  | .chCreate => 0
  | .chWrite => 4
  | .chClosep => 0
  | .chRead => 4
  | .chClosec => 0
  | .cqOpen => 0
  | .cqClose => 0
  | .cqInfo => 4
  | .cqStatus => 4
  | .cqMute => 0

/-- The opcode with a given code; every other code is reserved (R97). -/
def Opcode.ofCode? (c : BitVec 8) : Option Opcode :=
  Opcode.all.find? fun o => o.code == c

/-! ### The fields of a command word (R90) -/

/-- OPC, bits 7:0. -/
def opcField (cw : BitVec 32) : BitVec 8 := cw.extractLsb' 0 8

/-- SEL, bits 15:8. -/
def selField (cw : BitVec 32) : BitVec 8 := cw.extractLsb' 8 8

/-- F, bit 16 (R94: 1 is true). -/
def flagField (cw : BitVec 32) : Bool := cw.getLsbD 16

/-- RSV, bits 31:17. -/
def rsvField (cw : BitVec 32) : BitVec 15 := cw.extractLsb' 17 15

/-- The command word with the given OPC, SEL and F and RSV = 0 (R90). -/
def commandWord (op : Opcode) (sel : BitVec 8) (flag : Bool) : BitVec 32 :=
  (((0 : BitVec 15) ++ BitVec.ofBool flag) ++ sel) ++ op.code

/-! ### Shapes (R91, R92) -/

/-- No operand, no payload. -/
def shapeNone (i : Instr) (t : Transaction) : Option Instr :=
  match t.operands, t.payload with
  | [], [] => some i
  | _, _ => none

/-- One LEN operand, no payload. -/
def shapeLen (k : BitVec 32 → Instr) (t : Transaction) : Option Instr :=
  match t.operands, t.payload with
  | [.u32 n], [] => some (k n)
  | _, _ => none

/-- One VAL operand, no payload. -/
def shapeVal (k : BitVec 64 → Instr) (t : Transaction) : Option Instr :=
  match t.operands, t.payload with
  | [.u64 v], [] => some (k v)
  | _, _ => none

/-- One LEN operand and exactly LEN payload bytes. -/
def shapeLenPayload (k : BitVec 32 → List Byte → Instr) (t : Transaction) : Option Instr :=
  match t.operands with
  | [.u32 n] => if t.payload.length = n.toNat then some (k n t.payload) else none
  | _ => none

/-- The command of an opcode of the table, read from a transaction that has the opcode's shape (R91, R94); `none` where the
transaction is not well-shaped (R92). -/
def Opcode.read (op : Opcode) (t : Transaction) : Option Instr :=
  match op with
  | .synInit => shapeNone .synInit t
  | .synGen => shapeLen .synGen t
  | .synWreg => shapeVal (.synWreg (selField t.cw)) t
  | .synRreg => shapeNone (.synRreg (selField t.cw)) t
  | .chCreate => shapeNone (.chCreate (selField t.cw) (flagField t.cw)) t
  | .chWrite => shapeLenPayload (.chWrite (selField t.cw)) t
  | .chClosep => shapeNone (.chClosep (selField t.cw)) t
  | .chRead => shapeLen (.chRead (selField t.cw)) t
  | .chClosec => shapeNone (.chClosec (selField t.cw)) t
  | .cqOpen => shapeNone .cqOpen t
  | .cqClose => shapeNone .cqClose t
  | .cqInfo => shapeLen .cqInfo t
  | .cqStatus => shapeLen .cqStatus t
  | .cqMute => shapeNone (.cqMute (flagField t.cw)) t

/-! ### Decoding (R92, R97) -/

/-- Which check of R97 made a delivered transaction an ILLEGAL_COMMAND; the response is the same for all. -/
inductive IllegalCheck where
  /-- R97.1: OPC is not in the table. -/
  | opcode
  /-- R97.2: the opcode is not accepted on this interface. -/
  | interface
  /-- R97.3: CW[31:17] is not 0. -/
  | reserved
  /-- R97.4: SEL is not 0 where its column is 0. -/
  | sel
  /-- R97.5: F is not 0 where its column is 0. -/
  | flag
deriving DecidableEq, Repr

/-- What becomes of a transaction. -/
inductive Decoded where
  /-- A command; its own rule runs (R97.6). -/
  | command (i : Instr)
  /-- Delivered, and answered ILLEGAL_COMMAND (R97). -/
  | illegal (check : IllegalCheck)
  /-- Not well-shaped: the transport never delivers it (R92). -/
  | notDelivered
deriving DecidableEq, Repr

/-- The checks R97.2 to R97.5, in their order, on a transaction that `op.read` gave the command `i`. -/
def checkFields (op : Opcode) (t : Transaction) (i : Instr) : Decoded :=
  if t.iface ≠ op.iface then .illegal .interface
  else if rsvField t.cw ≠ 0 then .illegal .reserved
  else if op.usesSel = false ∧ selField t.cw ≠ 0 then .illegal .sel
  else if op.usesFlag = false ∧ flagField t.cw = true then .illegal .flag
  else .command i

/-- Decoding, total on every transaction. An OPC outside the table is delivered whatever its shape (R92) and illegal (R97.1);
with an OPC of the table the shape comes first, since a transaction of the wrong shape is never delivered. -/
def decode (t : Transaction) : Decoded :=
  match Opcode.ofCode? (opcField t.cw) with
  | none => .illegal .opcode
  | some op =>
    match op.read t with
    | none => .notDelivered
    | some i => checkFields op t i

/-! ### Encoding -/

/-- The transaction of a command: its word from R95, on the interface that accepts it, with the operands and payload of
R91. -/
def encode : Instr → Transaction
  | .synInit => ⟨.syn, commandWord .synInit 0 false, [], []⟩
  | .synGen n => ⟨.syn, commandWord .synGen 0 false, [.u32 n], []⟩
  | .synWreg r v => ⟨.syn, commandWord .synWreg r false, [.u64 v], []⟩
  | .synRreg r => ⟨.syn, commandWord .synRreg r false, [], []⟩
  | .chCreate p b => ⟨.prod, commandWord .chCreate p b, [], []⟩
  | .chWrite p n bytes => ⟨.prod, commandWord .chWrite p false, [.u32 n], bytes⟩
  | .chClosep p => ⟨.prod, commandWord .chClosep p false, [], []⟩
  | .chRead p n => ⟨.cons, commandWord .chRead p false, [.u32 n], []⟩
  | .chClosec p => ⟨.cons, commandWord .chClosec p false, [], []⟩
  | .cqOpen => ⟨.cq, commandWord .cqOpen 0 false, [], []⟩
  | .cqClose => ⟨.cq, commandWord .cqClose 0 false, [], []⟩
  | .cqInfo n => ⟨.cq, commandWord .cqInfo 0 false, [.u32 n], []⟩
  | .cqStatus n => ⟨.cq, commandWord .cqStatus 0 false, [.u32 n], []⟩
  | .cqMute m => ⟨.cq, commandWord .cqMute 0 m, [], []⟩

/-! ### The byte form (20_memory.md R71; DESIGN CHOICE: the parts in the order CW, operand, payload,
notes/assumptions/14.md) -/

/-- An operand word carried as bytes (R71). -/
def Operand.bytes : Operand → List Byte
  | .u32 v => leBytes 4 v.toNat
  | .u64 v => leBytes 8 v.toNat

/-- A transaction carried as bytes: the command word, the operand words and the payload, each little-endian (R71). -/
def Transaction.bytes (t : Transaction) : List Byte :=
  leBytes 4 t.cw.toNat ++ (t.operands.flatMap Operand.bytes ++ t.payload)

/-- The operand words that `n` operand bytes hold. -/
def operandsOfBytes (n : Nat) (bytes : List Byte) : List Operand :=
  if n = 4 then [.u32 (BitVec.ofNat 32 (ofLeBytes (bytes.take 4)))]
  else if n = 8 then [.u64 (BitVec.ofNat 64 (ofLeBytes (bytes.take 8)))]
  else []

/-- The transaction that a byte list on an interface carries; `none` where there are too few bytes for the command word and
the operand its opcode takes. With an opcode outside the table all bytes after the command word are payload. -/
def Transaction.ofBytes (iface : Interface) (bytes : List Byte) : Option Transaction :=
  let cw := BitVec.ofNat 32 (ofLeBytes (bytes.take 4))
  let operandBytes := ((Opcode.ofCode? (opcField cw)).map Opcode.operandBytes).getD 0
  let rest := bytes.drop 4
  if bytes.length < 4 + operandBytes then none
  else some ⟨iface, cw, operandsOfBytes operandBytes rest, rest.drop operandBytes⟩

/-- The transaction that stands for an opcode-table word: the low `nbits` bits of `w` as the bytes of the command word and of
the operand its opcode takes, the bits above `nbits` zero and the payload empty, on the interface R95 gives the opcode (the
table's words have no interface bits; SYN for an opcode outside the table). -/
def tableTransaction (nbits w : Nat) : Transaction :=
  let v := w % 2 ^ nbits
  let cw := BitVec.ofNat 32 v
  let op := Opcode.ofCode? (opcField cw)
  let iface := (op.map Opcode.iface).getD .syn
  let bytes := leBytes (4 + (op.map Opcode.operandBytes).getD 0) v
  (Transaction.ofBytes iface bytes).getD ⟨iface, cw, [], []⟩

/-- The instruction the decoder reads from a word of spec/opcode_table.json; `none` where it gives no command. -/
def decodeTableWord (nbits w : Nat) : Option Instr :=
  match decode (tableTransaction nbits w) with
  | .command i => some i
  | .illegal _ => none
  | .notDelivered => none

end Sys2Proof
end

