-- ==== Sys2Proof/Config.lean ====
section
/-! DEFINITION. Config.lean: the implementation parameters of 00_scope.md R6 and the values the spec leaves free.
The parameters are plain data, so that a machine state can carry them and every statement about every state is a statement
about every choice of them (notes/assumptions/3.md). NUM_PINS is the one parameter that is not a field here: it is the number
of channels a state has (notes/assumptions/4.md). -/

namespace Sys2Proof

/-- One member of {8, 16, 24, 32}, the depths SUPPORTED_BITS may hold (00_scope.md R6). -/
inductive BitDepth where
  | d8 | d16 | d24 | d32
deriving DecidableEq, Repr

/-- The depth as a number of bits. -/
def BitDepth.bits : BitDepth → Nat
  | .d8 => 8
  | .d16 => 16
  | .d24 => 24
  | .d32 => 32

/-- PCM8_ENCODING, the byte form of 8-bit samples (00_scope.md R6, 20_memory.md R73). -/
inductive Pcm8Encoding where
  | offsetBinary | signed
deriving DecidableEq, Repr

/-- SIN_IMPL, the binary64 sine the generator uses (00_scope.md R6, 40_synth.md R133): the reference value, or one of which
nothing is known but the range R6 gives it. `other k` names the k-th such function, an opaque constant. -/
inductive SineImpl where
  | correctlyRounded
  | other (k : Nat)
deriving DecidableEq, Repr

/-- The implementation parameters of 00_scope.md R6, but for NUM_PINS. -/
structure Config where
  /-- FIFO_CAPACITY, bytes of each channel buffer; legal from 1. -/
  fifoCapacity : Nat
  /-- MAX_CHANNELS, the largest channelCount INIT accepts; legal 1..65535. -/
  maxChannels : Nat
  /-- SUPPORTED_BITS, the depths INIT accepts; legal when not empty. -/
  supportedBits : List BitDepth
  /-- PCM8_ENCODING. -/
  pcm8 : Pcm8Encoding
  /-- SIN_IMPL. -/
  sine : SineImpl
  /-- INFO_VERSION, any u32. -/
  infoVersion : BitVec 32
  /-- NUM_SPEAKERS, any u32. -/
  numSpeakers : BitVec 32
  /-- NUM_MICS, any u32. -/
  numMics : BitVec 32
deriving DecidableEq, Repr

/-- The parameter values R6 calls legal. -/
abbrev Config.Legal (c : Config) : Prop :=
  1 ≤ c.fifoCapacity ∧ 1 ≤ c.maxChannels ∧ c.maxChannels ≤ 65535 ∧ c.supportedBits ≠ []

/-- The parameters of 95_test_vectors.md where R6 leaves them OPEN (DESIGN CHOICE, notes/assumptions/3.md) and R6's own values
elsewhere. -/
def Config.vectors : Config :=
  { fifoCapacity := 8
    maxChannels := 8
    supportedBits := [.d8, .d16, .d24, .d32]
    pcm8 := .offsetBinary
    sine := .correctlyRounded
    infoVersion := 1
    numSpeakers := 1
    numMics := 1 }

/-- FREE VALUE (notes/assumptions/9.md, 10.md): the k-th uninterpreted SIN_IMPL, before the range R6 gives it is imposed. -/
opaque Config.sinImpl : Nat → F64 → F64

/-- FREE VALUE (notes/assumptions/11.md): sign and payload of the NaN an operation gives; `F64.nanResult` makes it a NaN. No
operation of a ready synthesizer gives one (40_synth.md R134). -/
opaque Config.nanBits : F64 → F64 → BitVec 64

/-- FREE VALUE (notes/assumptions/12.md): what rounding a NaN to an integer gives. R130 defines RoundHA for every other value,
and R134 says that a ready synthesizer meets no NaN. -/
opaque Config.roundOfNaN : F64 → Int

end Sys2Proof
end

