-- ==== Sys2Proof/Machine/Float.lean ====
section
/-! DEFINITION. Machine/Float.lean: IEEE 754 binary64 (00_scope.md R13), each operation computed exactly and rounded once.
Every finite binary64 value is an integer number of units of 2^-1074, so operands become integers (`F64.units`), the exact
result is a quotient of naturals in the same unit, and `F64.round` narrows it to nearest, ties to even. What R13 takes from the
standard (subnormals, overflow to infinity, signs of zero) is PRESUMED from IEEE 754 (notes/assumptions/21.md). -/

namespace Sys2Proof

/-! ### Fields and classes -/

/-- The sign bit: true for negative. -/
def F64.sign (x : F64) : Bool := x.getLsbD 63

/-- The biased exponent, bits 62:52. -/
def F64.expField (x : F64) : Nat := x.toNat / 2 ^ 52 % 2048

/-- The fraction, bits 51:0. -/
def F64.fracField (x : F64) : Nat := x.toNat % 2 ^ 52

/-- Neither a NaN nor an infinity. -/
def F64.isFinite (x : F64) : Bool := F64.expField x != 2047

/-- A NaN. -/
def F64.isNaN (x : F64) : Bool := F64.expField x == 2047 && F64.fracField x != 0

/-- +infinity or -infinity. -/
def F64.isInf (x : F64) : Bool := F64.expField x == 2047 && F64.fracField x == 0

/-- The magnitude in units of 2^-1074; for an infinity a number above every finite magnitude. -/
def F64.mag (x : F64) : Nat :=
  if F64.expField x = 0 then F64.fracField x
  else (2 ^ 52 + F64.fracField x) * 2 ^ (F64.expField x - 1)

/-- The exact value in units of 2^-1074. -/
def F64.units (x : F64) : Int :=
  if F64.sign x then -(F64.mag x : Int) else F64.mag x

/-! ### Rounding -/

/-- The integer nearest `num / den`, ties to even. -/
def roundHalfEven (num den : Nat) : Nat :=
  let q := num / den
  let r := num % den
  if 2 * r < den then q
  else if den < 2 * r then q + 1
  else q + q % 2

/-- The pattern of +infinity, which is also the first magnitude pattern past the finite ones. -/
def F64.infMag : Nat := 2047 * 2 ^ 52

/-- The pattern, without sign, of the binary64 value nearest `num / den` units, ties to even, too large a value giving
infinity. With `k` the number of bits the integer part has beyond 53, the value is rounded to a multiple of `2^k` units; the
multiple `n` of a normal value lies in 2^52..2^53, and its pattern is `n + k·2^52` (a carry out of the significand included, and
for `k = 0` the subnormals too). -/
def F64.magBits (num den : Nat) : Nat :=
  let k := Nat.log2 (num / den) - 52
  min (roundHalfEven num (den * 2 ^ k) + k * 2 ^ 52) F64.infMag

/-- A sign and a magnitude pattern as a binary64 value. -/
def F64.pack (neg : Bool) (bits : Nat) : F64 :=
  BitVec.ofNat 64 ((if neg then 2 ^ 63 else 0) + bits)

/-- The binary64 value nearest `± num / den` units (`fl` of R13). -/
def F64.round (neg : Bool) (num den : Nat) : F64 := F64.pack neg (F64.magBits num den)

/-! ### Constants -/

/-- `TWO_PI` of R13. -/
def F64.twoPi : F64 := 0x401921FB54442D18

/-- 1.0. -/
def F64.one : F64 := 0x3FF0000000000000

/-- 2^-1074 as a fraction of 1: the units in 1.0. -/
def F64.unitsPerOne : Nat := 2 ^ 1074

/-- A NaN whose sign and payload nothing fixes (FREE VALUE, notes/assumptions/11.md); `x` and `y` are the operands. -/
def F64.nanResult (x y : F64) : F64 := 0x7FF8000000000000 ||| Config.nanBits x y

/-! ### Operations -/

/-- A natural number as binary64; a u32 is exact (40_synth.md R119). -/
def F64.ofNat (n : Nat) : F64 := F64.round false (n * F64.unitsPerOne) 1

/-- `fl(x + y)`. An exact zero sum is -0.0 only when both operands are -0.0. -/
def F64.add (x y : F64) : F64 :=
  if F64.isFinite x && F64.isFinite y then
    let z := F64.units x + F64.units y
    if z = 0 then F64.pack (F64.sign x && F64.sign y) 0
    else F64.round (decide (z < 0)) z.natAbs 1
  else if F64.isNaN x || F64.isNaN y || (F64.isInf x && F64.isInf y && F64.sign x != F64.sign y) then
    F64.nanResult x y
  else if F64.isInf x then x
  else y

/-- `fl(x × y)`. -/
def F64.mul (x y : F64) : F64 :=
  let neg := F64.sign x != F64.sign y
  if F64.isFinite x && F64.isFinite y then
    F64.round neg (F64.mag x * F64.mag y) F64.unitsPerOne
  else if F64.isNaN x || F64.isNaN y || F64.mag x == 0 || F64.mag y == 0 then F64.nanResult x y
  else F64.pack neg F64.infMag

/-- `fl(x ÷ y)`. -/
def F64.div (x y : F64) : F64 :=
  let neg := F64.sign x != F64.sign y
  if F64.isNaN x || F64.isNaN y then F64.nanResult x y
  else if F64.isInf x then
    if F64.isInf y then F64.nanResult x y else F64.pack neg F64.infMag
  else if F64.isInf y then F64.pack neg 0
  else if F64.mag y = 0 then
    if F64.mag x = 0 then F64.nanResult x y else F64.pack neg F64.infMag
  else F64.round neg (F64.mag x * F64.unitsPerOne) (F64.mag y)

/-- `fmod(x, y)`, the remainder by truncation, with the sign of `x` (R13); exact, since the remainder of two multiples of a
power of two is one and is no longer than the divisor. -/
def F64.fmod (x y : F64) : F64 :=
  if F64.isFinite x && F64.isFinite y && F64.mag y != 0 then
    F64.round (F64.sign x) (F64.mag x % F64.mag y) 1
  else if F64.isFinite x && F64.isInf y then x
  else F64.nanResult x y

/-- `x < y`; false where either is a NaN. -/
def F64.lt (x y : F64) : Bool :=
  !F64.isNaN x && !F64.isNaN y && decide (F64.units x < F64.units y)

/-- `x >= y`; false where either is a NaN. -/
def F64.ge (x y : F64) : Bool :=
  !F64.isNaN x && !F64.isNaN y && decide (F64.units y ≤ F64.units x)

/-- `x == 0`, true for both zeros. -/
def F64.isZero (x : F64) : Bool := F64.mag x == 0

/-! ### wrap and Increment -/

/-- The wrap function of 40_synth.md R118. R118 defines it for finite `x`; elsewhere `fmod` gives a NaN and so does this
(notes/assumptions/22.md). -/
def F64.wrap (x : F64) : F64 :=
  let r := F64.fmod x F64.twoPi
  let r := if F64.lt r 0 then F64.add r F64.twoPi else r
  let r := if F64.ge r F64.twoPi then 0 else r
  if F64.isZero r then 0 else r

/-- `Increment(fq, r) = fl(fl(TWO_PI × fq) ÷ r)` (R119). -/
def F64.increment (fq : F64) (rate : BitVec 32) : F64 :=
  F64.div (F64.mul F64.twoPi fq) (F64.ofNat rate.toNat)

/-! ### RoundHA and clip -/

/-- What RoundHA gives (40_synth.md R130): an integer or an infinity. -/
inductive Rounded where
  | int (z : Int)
  | negInf
  | posInf
deriving DecidableEq, Repr

/-- `RoundHA(v) = sign(v)·floor(|v| + 1/2)` on the exact value (R130). A NaN is outside R130 and gives a free value
(notes/assumptions/12.md). -/
def F64.roundHA (v : F64) : Rounded :=
  if F64.isNaN v then .int (Config.roundOfNaN v)
  else if F64.isInf v then
    if F64.sign v then .negInf else .posInf
  else
    let n : Nat := (F64.mag v + 2 ^ 1073) / 2 ^ 1074
    .int (if F64.sign v then -(n : Int) else n)

/-- `clip_b` (R132). -/
def clip (b : Nat) : Rounded → Int
  | .int z => max (-2 ^ (b - 1)) (min (2 ^ (b - 1) - 1) z)
  | .negInf => -2 ^ (b - 1)
  | .posInf => 2 ^ (b - 1) - 1

end Sys2Proof
end

