-- ==== Sys2Proof/Machine/State.lean ====
section
/-! DEFINITION. Machine/State.lean: every piece of state of 10_state.md as plain data, the model's own fields beside it
(INVENTORY.md lists both), the ways a step can stop, and the state after reset. -/

namespace Sys2Proof.Machine

/-! ### Responses -/

/-- The status codes of 60_exceptions.md R221. -/
inductive Status where
  | ok
  | invalidFormat
  | invalidArgument
  | alreadyOpen
  | wouldBlock
  | channelClosed
  | notReady
  | invalidParam
  /-- Never returned (R237); the code is kept for variants with dynamic allocation. -/
  | noResources
  | illegalCommand
deriving DecidableEq, Repr

/-- Whom a response answers. The block knows no agent (60_exceptions.md R231), so the issuer of the command that runs in this
step is named as such, and the agent whose blocking CH.WRITE waits on a pin by the pin: at most one write waits there (41_channel.md
R165). -/
inductive Recipient where
  | issuer
  | waiter (pin : BitVec 8)
deriving DecidableEq, Repr

/-- A response `(RSP, RESULT, payload)` (30_encoding.md R93) and whom it answers. -/
structure Response where
  recipient : Recipient
  rsp : BitVec 32
  result : BitVec 64
  payload : List Byte
deriving DecidableEq, Repr

/-! ### SYN -/

/-- The generator's state, 10_state.md R33 to R45. -/
structure Syn where
  /-- `SYN.ready` (R33). -/
  ready : Bool
  /-- `SYN.mute` (R42). -/
  mute : Bool
  /-- `SYN.stg_channels` (R34). -/
  stgChannels : BitVec 16
  /-- `SYN.stg_bits` (R34). -/
  stgBits : BitVec 16
  /-- `SYN.stg_rate` (R34). -/
  stgRate : BitVec 32
  /-- `SYN.stg_freq` (R34). -/
  stgFreq : F64
  /-- `SYN.stg_ampl` (R34). -/
  stgAmpl : F64
  /-- `SYN.stg_dc` (R34). -/
  stgDc : F64
  /-- `SYN.stg_phase` (R34). -/
  stgPhase : F64
  /-- `SYN.act_channels` (R35). -/
  actChannels : BitVec 16
  /-- `SYN.act_bits` (R35). -/
  actBits : BitVec 16
  /-- `SYN.act_rate` (R35). -/
  actRate : BitVec 32
  /-- `SYN.frame`, bytes of a frame (R36). -/
  frame : BitVec 32
  /-- `SYN.ampl` (R37). -/
  ampl : F64
  /-- `SYN.dc` (R37). -/
  dc : F64
  /-- `SYN.theta`, the phase accumulator (R38). -/
  theta : F64
  /-- `SYN.inc`, the sampleIncrement (R39). -/
  inc : F64
  /-- `SYN.carry`, the tail of the last frame computed, in emission order (R43). -/
  carry : List Byte
deriving DecidableEq, Repr

/-- SYN after reset (R57). -/
def Syn.reset : Syn :=
  { ready := false, mute := false
    stgChannels := 0, stgBits := 0, stgRate := 0, stgFreq := 0, stgAmpl := 0, stgDc := 0, stgPhase := 0
    actChannels := 0, actBits := 0, actRate := 0, frame := 0
    ampl := 0, dc := 0, theta := 0, inc := 0
    carry := [] }

/-! ### CH -/

/-- `CH[p].state` (10_state.md R46). -/
inductive ChannelState where
  /-- No producer holds the channel. -/
  | idle
  /-- A producer holds it and the session is live. -/
  | opened
  /-- The consumer has closed its end; the producer has not yet released the channel. -/
  | broken
deriving DecidableEq, Repr

/-- A pending blocking write (R49). `done` is a u32 there; it is a count here and `Safety.lean` states that it fits. -/
structure Pending where
  /-- The bytes not yet enqueued. -/
  rest : List Byte
  /-- How many are already enqueued. -/
  done : Nat
deriving DecidableEq, Repr

/-- One channel, 10_state.md R46 to R50. -/
structure Channel where
  /-- `CH[p].state` (R46). -/
  state : ChannelState
  /-- `CH[p].buf`, oldest byte first (R47). -/
  buf : List Byte
  /-- `CH[p].blocking` (R48). -/
  blocking : Bool
  /-- `CH[p].pend` (R49). -/
  pend : Option Pending
deriving DecidableEq, Repr

/-- A channel after reset (R57). -/
def Channel.reset : Channel :=
  { state := .idle, buf := [], blocking := false, pend := none }

/-! ### ENV and the model's own records -/

/-- The two activity inputs (10_state.md R52). -/
structure Env where
  spk : Bool
  mic : Bool
deriving DecidableEq, Repr

/-- A CH.WRITE held at the transport behind a pending write (00_scope.md R14, 41_channel.md R165). -/
structure HeldWrite where
  pin : BitVec 8
  len : BitVec 32
  payload : List Byte
deriving DecidableEq, Repr

/-- A CH.WRITE that a reset left without a response for good (70_reset_and_hazards.md R251). -/
inductive Abandoned where
  /-- The write waiting on a pin, with what it had enqueued. -/
  | waiting (pin : Nat) (done : Nat)
  /-- A write held at the transport. -/
  | held (w : HeldWrite)
deriving DecidableEq, Repr

/-- One choice of the scheduler (00_scope.md R7, R8; 60_exceptions.md R231). -/
inductive Event where
  /-- An agent issues a transaction. -/
  | command (t : Transaction)
  /-- The block's write-progress step of a pin (41_channel.md R164). -/
  | progress (pin : BitVec 8)
  /-- A held CH.WRITE, named by its place in the list of held ones, runs as a new command (R165). -/
  | resume (index : Nat)
  /-- The environment's input change (42_control.md R210). -/
  | inputChange (spk mic : Bool)
  /-- Power-on reset; the arguments are the draw of ENV (70_reset_and_hazards.md R250, R251). -/
  | reset (spk mic : Bool)
deriving DecidableEq, Repr

/-! ### The whole state -/

/-- The block state `(SYN, CH[0..NUM_PINS-1], CQ, ENV)` of 10_state.md R30, and the model's own fields. -/
structure State where
  /-- MODEL: the parameters of 00_scope.md R6; no step changes them. -/
  cfg : Config
  /-- SYN (R33 to R45). -/
  syn : Syn
  /-- CH[0..NUM_PINS-1] (R46 to R50); NUM_PINS is the length of the list. -/
  channels : List Channel
  /-- `CQ.handle` (R51). -/
  handle : Bool
  /-- ENV (R52). -/
  env : Env
  /-- MODEL: the scheduler's choices that have not happened yet, in order. -/
  inbox : List Event
  /-- MODEL: the held CH.WRITE commands, in the order they were issued. -/
  held : List HeldWrite
  /-- MODEL: the responses given so far, oldest first. -/
  out : List Response
  /-- MODEL: the writes a reset abandoned. -/
  abandoned : List Abandoned
deriving DecidableEq, Repr

/-- NUM_PINS (00_scope.md R6). -/
def State.numPins (s : State) : Nat := s.channels.length

/-- The machine right after power-on with `numPins` channels, the given parameters and the given draw of ENV (10_state.md R57,
70_reset_and_hazards.md R250). -/
def State.resetWith (numPins : Nat) (cfg : Config) (spk mic : Bool) : State :=
  { cfg := cfg
    syn := Syn.reset
    channels := List.replicate numPins Channel.reset
    handle := false
    env := { spk := spk, mic := mic }
    inbox := []
    held := []
    out := []
    abandoned := [] }

/-- The machine right after reset. DESIGN CHOICE: the parameters are those of 95_test_vectors.md (NUM_PINS = 2 among them,
notes/assumptions/3.md) and the draw of ENV is (false, false) (notes/assumptions/5.md). -/
def State.reset : State := State.resetWith 2 Config.vectors false false

/-! ### How a step can stop -/

/-- Reasons to stop with a fault: there are none. VADSB has no trap, and every error is a status code in a response
(60_exceptions.md R220); safe, since every delivered command has its response. -/
inductive Fault where
deriving DecidableEq, Repr

/-- Reasons a step has no meaning. -/
inductive Refusal where
  /-- The host's name for an instruction without a meaning. No arm of `exec` raises it; safe. -/
  | notModelled (mnemonic : String)
  /-- Raised by a step whose next event is a transaction that is not well-shaped, and by CH.WRITE given a payload that is not
  LEN bytes: the transport never delivers it and the block takes no step (30_encoding.md R92). Safe: nothing is claimed of
  what happens after it. -/
  | notWellShaped
deriving DecidableEq, Repr

/-- What a step answers. -/
abbrev Result := Host.Outcome State Fault Refusal

end Sys2Proof.Machine
end

