-- ==== Sys2Proof/Machine/Ops.lean ====
section
/-! DEFINITION. Machine/Ops.lean: the operations the commands share: responses, access to the channels, the end of a session
and the hold. VADSB takes no exception and returns from none (60_exceptions.md R220, R226); what stands in place of one is
`raise`, a status in the response (00_scope.md R12). -/

namespace Sys2Proof.Machine

/-! ### Responses (00_scope.md R12, 30_encoding.md R93, 60_exceptions.md R221) -/

/-- The 8-bit status code (R221). -/
def Status.code : Status → BitVec 8
  | .ok => 0x00
  | .invalidFormat => 0x01
  | .invalidArgument => 0x02
  | .alreadyOpen => 0x03
  | .wouldBlock => 0x04
  | .channelClosed => 0x05
  | .notReady => 0x06
  | .invalidParam => 0x07
  | .noResources => 0x08
  | .illegalCommand => 0x09

/-- RSP: the code in bits 7:0, bits 31:8 zero (R93). -/
def Status.rsp (st : Status) : BitVec 32 := st.code.setWidth 32

/-- The state in which a response has been given; nothing else of it changes. -/
def State.answer (s : State) (who : Recipient) (st : Status) (result : BitVec 64) (payload : List Byte) : State :=
  { s with out := s.out ++ [{ recipient := who, rsp := st.rsp, result := result, payload := payload }] }

/-- `respond(st, result, payload)` (R12): the command ends and its issuer has the response. -/
def respond (st : Status) (result : BitVec 64) (payload : List Byte) (s : State) : Result :=
  .next (s.answer .issuer st result payload)

/-- A response carried as bytes: RSP, RESULT and the payload, each word little-endian (20_memory.md R71: "the operand and result
words when carried as bytes"). The order of the parts is the model's choice (notes/assumptions/14.md). -/
def Response.bytes (r : Response) : List Byte := leBytes 4 r.rsp.toNat ++ (leBytes 8 r.result.toNat ++ r.payload)

/-- `raise S` (R12): `respond(S, 0, [])` with no state change by the command. -/
def raise (st : Status) (s : State) : Result := respond st 0 [] s

/-! ### Channels (10_state.md R46 to R50) -/

/-- `CH[p]`. Every command checks the pin first (41_channel.md R151), so a pin past the last channel is never read. -/
def State.channel (s : State) (pin : BitVec 8) : Channel := s.channels.getD pin.toNat Channel.reset

/-- `CH[p] <- c`; a pin past the last channel has no channel to write. -/
def State.setChannel (s : State) (pin : BitVec 8) (c : Channel) : State :=
  { s with channels := s.channels.set pin.toNat c }

/-- The pin check, the first of every CH command (R151). -/
def withPin (pin : BitVec 8) (s : State) (k : Channel → Result) : Result :=
  if s.numPins ≤ pin.toNat then raise .invalidArgument s else k (s.channel pin)

/-- FIFO_CAPACITY minus level (00_scope.md R16). -/
def State.free (s : State) (c : Channel) : Nat := s.cfg.fifoCapacity - c.buf.length

/-- `EndSession(p)` (R174): the unread bytes are discarded, and a waiting write completes with CHANNEL_CLOSED and the count it
had enqueued, in this step (R163 (b)). -/
def endSession (pin : BitVec 8) (s : State) : State :=
  let c := s.channel pin
  let t := s.setChannel pin { c with buf := [], pend := none }
  match c.pend with
  | none => t
  | some w => t.answer (.waiter pin) .channelClosed (BitVec.ofNat 64 w.done) []

/-- A CH.WRITE is held (00_scope.md R14, R165): not executed, no response, the block state unchanged; the transport keeps it. -/
def hold (w : HeldWrite) (s : State) : Result := .next { s with held := s.held ++ [w] }

end Sys2Proof.Machine
end

