-- ==== Sys2Proof/Machine/Flags.lean ====
section
/-! DEFINITION. Machine/Flags.lean: the status flags (10_state.md R54). VADSB has no condition codes: the flags are `SYN.ready`,
`SYN.mute`, `CH[p].state`, `CH[p].blocking` and `CQ.handle`, and the commands' own rules write them. Here are the word that
shows the two SYN flags and the operations that write them. -/

namespace Sys2Proof.Machine

/-- SYN_STATE (R40): bit 0 = ready, bit 1 = mute, bits 63:2 = 0. -/
def Syn.stateWord (y : Syn) : BitVec 64 :=
  (0 : BitVec 62) ++ (BitVec.ofBool y.mute ++ BitVec.ofBool y.ready)

/-- `SYN.mute <- m` (42_control.md R200): theta and the carry are not touched. -/
def Syn.setMute (m : Bool) (y : Syn) : Syn := { y with mute := m }

/-- `FailInit()` (40_synth.md R117): no instance is left, every active field holds the zeros of 10_state.md R45, and the staging
registers stay. -/
def Syn.failInit (y : Syn) : Syn :=
  { y with
    ready := false, mute := false
    actChannels := 0, actBits := 0, actRate := 0, frame := 0
    ampl := 0, dc := 0, theta := 0, inc := 0
    carry := [] }

/-- The new instance of a successful SYN.INIT (R113, R116), with the increment R119 gives. -/
def Syn.startInstance (inc : F64) (y : Syn) : Syn :=
  { y with
    ready := true, mute := false
    actChannels := y.stgChannels, actBits := y.stgBits, actRate := y.stgRate
    frame := BitVec.ofNat 32 (y.stgChannels.toNat * (y.stgBits.toNat / 8))
    ampl := y.stgAmpl, dc := y.stgDc, theta := F64.wrap y.stgPhase, inc := inc
    carry := [] }

/-- `CH[p].state` and `CH[p].blocking` of a new session (41_channel.md R152), which always starts empty. -/
def Channel.newSession (blocking : Bool) : Channel :=
  { state := .opened, buf := [], blocking := blocking, pend := none }

end Sys2Proof.Machine
end

