-- ==== Sys2Proof/Machine/Channel.lean ====
section
/-! DEFINITION. Machine/Channel.lean: the CH commands and the write-progress step (41_channel.md). -/

namespace Sys2Proof.Machine

/-- CH.CREATE (R152): the test of IDLE and the move to OPEN are one step (20_memory.md R85). -/
def execChCreate (pin : BitVec 8) (blocking : Bool) (s : State) : Result :=
  withPin pin s fun c =>
    if c.state ≠ .idle then raise .alreadyOpen s
    else respond .ok 0 [] (s.setChannel pin (Channel.newSession blocking))

/-- NonBlockingWrite (R156): every byte or none. -/
def nonBlockingWrite (pin : BitVec 8) (bytes : List Byte) (c : Channel) (s : State) : Result :=
  if s.free c < bytes.length then raise .wouldBlock s
  else
    respond .ok (BitVec.ofNat 64 bytes.length) [] (s.setChannel pin { c with buf := c.buf ++ bytes })

/-- BlockingWrite, the issue step (R160): what fits is enqueued; where bytes are left the write waits, with no response now. -/
def blockingWrite (pin : BitVec 8) (bytes : List Byte) (c : Channel) (s : State) : Result :=
  let k := min bytes.length (s.free c)
  let buf := c.buf ++ bytes.take k
  if k = bytes.length then
    respond .ok (BitVec.ofNat 64 bytes.length) [] (s.setChannel pin { c with buf := buf })
  else
    .next (s.setChannel pin { c with buf := buf, pend := some { rest := bytes.drop k, done := k } })

/-- CH.WRITE (R155), its checks in the order of 60_exceptions.md R223: pin, hold, state, zero length, space. A payload that is
not LEN bytes is no command (30_encoding.md R92). -/
def execChWrite (pin : BitVec 8) (len : BitVec 32) (payload : List Byte) (s : State) : Result :=
  if payload.length ≠ len.toNat then .refused .notWellShaped
  else
    withPin pin s fun c =>
      if c.pend.isSome then hold { pin := pin, len := len, payload := payload } s
      else if c.state ≠ .opened then raise .channelClosed s
      else if len = 0 then respond .ok 0 [] s
      else if c.blocking then blockingWrite pin payload c s
      else nonBlockingWrite pin payload c s

/-- CH.CLOSEP (R166): from OPEN or BROKEN the session ends and the pin can be created again. -/
def execChClosep (pin : BitVec 8) (s : State) : Result :=
  withPin pin s fun c =>
    if c.state = .idle then raise .channelClosed s
    else
      let t := endSession pin s
      respond .ok 0 [] (t.setChannel pin { t.channel pin with state := .idle, blocking := false })

/-- CH.READ (R168): up to LEN bytes, oldest first; it never waits, and an empty buffer is no error (R170). -/
def execChRead (pin : BitVec 8) (len : BitVec 32) (s : State) : Result :=
  withPin pin s fun c =>
    if c.state ≠ .opened then raise .channelClosed s
    else
      let k := min len.toNat c.buf.length
      respond .ok (BitVec.ofNat 64 k) (c.buf.take k) (s.setChannel pin { c with buf := c.buf.drop k })

/-- CH.CLOSEC (R172): the session ends and the channel stays held by its producer. -/
def execChClosec (pin : BitVec 8) (s : State) : Result :=
  withPin pin s fun c =>
    if c.state ≠ .opened then raise .channelClosed s
    else
      let t := endSession pin s
      respond .ok 0 [] (t.setChannel pin { t.channel pin with state := .broken })

/-- The write-progress step is enabled (R164): a write waits on the pin and the buffer is not full. -/
def State.progressEnabled (s : State) (pin : BitVec 8) : Bool :=
  decide (pin.toNat < s.numPins) && (s.channel pin).pend.isSome
    && decide ((s.channel pin).buf.length < s.cfg.fifoCapacity)

/-- The write-progress step of a pin (R164). Where it is not enabled nothing happens (notes/assumptions/8.md). -/
def runProgress (pin : BitVec 8) (s : State) : Result :=
  if s.progressEnabled pin = false then .next s
  else
    let c := s.channel pin
    match c.pend with
    | none => .next s
    | some w =>
      let k := min w.rest.length (s.free c)
      let c' : Channel := { c with buf := c.buf ++ w.rest.take k }
      let done := w.done + k
      if w.rest.drop k = [] then
        .next ((s.setChannel pin { c' with pend := none }).answer (.waiter pin) .ok (BitVec.ofNat 64 done) [])
      else .next (s.setChannel pin { c' with pend := some { rest := w.rest.drop k, done := done } })

end Sys2Proof.Machine
end

