-- ==== Sys2Proof/Machine/Control.lean ====
section
/-! DEFINITION. Machine/Control.lean: the CQ commands and the two records (42_control.md). -/

namespace Sys2Proof.Machine

/-- InfoRecord, 32 bytes (R194). -/
def infoRecord (cfg : Config) : List Byte :=
  leBytes 4 cfg.infoVersion.toNat ++ leBytes 4 cfg.numSpeakers.toNat ++ leBytes 4 cfg.numMics.toNat
    ++ List.replicate 20 0

/-- A bool of a record: 0x01 or 0x00 (R196). -/
def boolByte (b : Bool) : Byte := if b then 0x01 else 0x00

/-- StatusRecord, 36 bytes, from the state of this step (R196, R199). -/
def statusRecord (s : State) : List Byte :=
  [boolByte s.env.spk, boolByte s.env.mic, 0, 0] ++ leBytes 4 s.syn.actRate.toNat ++ List.replicate 28 0

/-- A query of a record: the handle is checked before the buffer size (60_exceptions.md R223), and the payload is the whole
record or nothing (R197). -/
def query (record : List Byte) (len : BitVec 32) (s : State) : Result :=
  if s.handle = false then raise .invalidArgument s
  else if len.toNat < record.length then raise .invalidArgument s
  else respond .ok 0 record s

/-- CQ.OPEN (R191). -/
def execCqOpen (s : State) : Result := respond .ok 0 [] { s with handle := true }

/-- CQ.CLOSE (R192). -/
def execCqClose (s : State) : Result :=
  if s.handle = false then raise .invalidArgument s
  else respond .ok 0 [] { s with handle := false }

/-- CQ.INFO (R193): 32 bytes. -/
def execCqInfo (len : BitVec 32) (s : State) : Result := query (infoRecord s.cfg) len s

/-- CQ.STATUS (R195): 36 bytes. -/
def execCqStatus (len : BitVec 32) (s : State) : Result := query (statusRecord s) len s

/-- CQ.MUTE (R200): it needs no handle. -/
def execCqMute (value : Bool) (s : State) : Result := respond .ok 0 [] { s with syn := s.syn.setMute value }

end Sys2Proof.Machine
end

