-- ==== Sys2Proof/Machine/Operands.lean ====
section
/-! DEFINITION. Machine/Operands.lean: what the operands of the SYN commands name: the register map of 10_state.md R40 with the
access rules of R41 and 20_memory.md R74, and the format check of 40_synth.md R114. LEN, VAL and the pin are used as they
come (30_encoding.md R94: nothing is scaled or extended). -/

namespace Sys2Proof.Machine

/-- The names of R40. -/
inductive SynReg where
  | stgChannels | stgBits | stgRate | stgFreq | stgAmpl | stgDcoff | stgPhase
  | actFormat | actFrame | synState | theta | inc | carryCount | actAmpl | actDcoff
deriving DecidableEq, Repr

/-- The rows of R40, in its order. -/
def SynReg.all : List SynReg :=
  [.stgChannels, .stgBits, .stgRate, .stgFreq, .stgAmpl, .stgDcoff, .stgPhase,
    .actFormat, .actFrame, .synState, .theta, .inc, .carryCount, .actAmpl, .actDcoff]

/-- The number column of R40. -/
def SynReg.number : SynReg → BitVec 8
  | .stgChannels => 0x00
  | .stgBits => 0x01
  | .stgRate => 0x02
  | .stgFreq => 0x03
  | .stgAmpl => 0x04
  | .stgDcoff => 0x05
  | .stgPhase => 0x06
  | .actFormat => 0x10
  | .actFrame => 0x11
  | .synState => 0x12
  | .theta => 0x13
  | .inc => 0x14
  | .carryCount => 0x15
  | .actAmpl => 0x16
  | .actDcoff => 0x17

/-- The register with a number; the numbers 0x07 to 0x0F and 0x18 to 0xFF are reserved (R40). -/
def SynReg.ofNumber? (n : BitVec 8) : Option SynReg :=
  SynReg.all.find? fun r => r.number == n

/-- The contents column of R40: every register is carried as a u64, the narrower ones zero-extended (R74). -/
def SynReg.read (y : Syn) : SynReg → BitVec 64
  | .stgChannels => y.stgChannels.setWidth 64
  | .stgBits => y.stgBits.setWidth 64
  | .stgRate => y.stgRate.setWidth 64
  | .stgFreq => y.stgFreq
  | .stgAmpl => y.stgAmpl
  | .stgDcoff => y.stgDc
  | .stgPhase => y.stgPhase
  | .actFormat => y.actRate ++ (y.actBits ++ y.actChannels)
  | .actFrame => y.frame.setWidth 64
  | .synState => y.stateWord
  | .theta => y.theta
  | .inc => y.inc
  | .carryCount => BitVec.ofNat 64 y.carry.length
  | .actAmpl => y.ampl
  | .actDcoff => y.dc

/-- A write (40_synth.md R111): `none` for a read-only register and for a value that does not fit (R41). An F64 register takes
any pattern. -/
def SynReg.write? (v : BitVec 64) (y : Syn) : SynReg → Option Syn
  | .stgChannels => if v.toNat < 2 ^ 16 then some { y with stgChannels := v.setWidth 16 } else none
  | .stgBits => if v.toNat < 2 ^ 16 then some { y with stgBits := v.setWidth 16 } else none
  | .stgRate => if v.toNat < 2 ^ 32 then some { y with stgRate := v.setWidth 32 } else none
  | .stgFreq => some { y with stgFreq := v }
  | .stgAmpl => some { y with stgAmpl := v }
  | .stgDcoff => some { y with stgDc := v }
  | .stgPhase => some { y with stgPhase := v }
  | .actFormat => none
  | .actFrame => none
  | .synState => none
  | .theta => none
  | .inc => none
  | .carryCount => none
  | .actAmpl => none
  | .actDcoff => none

/-- `b ∈ SUPPORTED_BITS` (00_scope.md R6). -/
def supportsBits (cfg : Config) (bits : BitVec 16) : Bool :=
  cfg.supportedBits.any fun d => d.bits == bits.toNat

/-- `FormatOK(ch, b, r)` (R114), its five conditions in their order. -/
def formatOk (cfg : Config) (ch bits : BitVec 16) (rate : BitVec 32) : Bool :=
  decide (1 ≤ ch.toNat) && decide (ch.toNat ≤ cfg.maxChannels) && decide (bits.toNat % 8 = 0)
    && supportsBits cfg bits && decide (1 ≤ rate.toNat)

/-- The four staged parameters are finite (40_synth.md R115). -/
def paramsFinite (y : Syn) : Bool :=
  F64.isFinite y.stgFreq && F64.isFinite y.stgAmpl && F64.isFinite y.stgDc && F64.isFinite y.stgPhase

end Sys2Proof.Machine
end

