-- ==== Sys2Proof/Machine/Sine.lean ====
section
/-! DEFINITION. Machine/Sine.lean: SIN_IMPL (00_scope.md R6, 40_synth.md R133). R133 asks that a model take it as uninterpreted
and that a claim assume a named property only: `SineImpl.other k` is that. The reference value, the correctly rounded sine, is
computed here for every finite argument, so that the model runs; a ready synthesizer asks only below 8 (10_state.md R38). -/

namespace Sys2Proof

/-- A magnitude pattern held to that of 1.0 (R6: "result in [-1, 1] for finite arguments"). -/
def unitMag (bits : Nat) : Nat := min bits F64.one.toNat

/-- The k-th uninterpreted SIN_IMPL with the range R6 gives it: for a finite argument a value in [-1, 1] (any such value can
result), for the others anything. -/
def sinFree (k : Nat) (x : F64) : F64 :=
  let y := Config.sinImpl k x
  if F64.isFinite x then F64.pack (F64.sign y) (unitMag (y.toNat % 2 ^ 63)) else y

/-- The fixed-point scale of the sine series: 2^320. -/
def sinScale : Nat := 320

/-- `terms` more terms of the sine series in units of 2^-320: `term` is the next one, x^n/n!, `n` its exponent, `x2` the square
of the argument, and the signs alternate. -/
def sinSeries (x2 : Nat) : Nat → Nat → Nat → Int
  | 0, _, _ => 0
  | terms + 1, n, term =>
    (term : Int) - sinSeries x2 terms (n + 2) (term * x2 / 2 ^ (2 * sinScale) / ((n + 1) * (n + 2)))

/-- The fixed-point scale of a turn: 2^1500, so that some 2^1022 turns of the largest finite argument are still counted exactly
enough. -/
def turnScale : Nat := 1500

/-- `terms` more terms of the series of arctan(1/m) in units of 2^-1500: `power` is 1/m^n for the next odd exponent `n`, `m2` the
square of `m`, and the signs alternate. -/
def arctanSeries (m2 : Nat) : Nat → Nat → Nat → Int
  | 0, _, _ => 0
  | terms + 1, n, power => ((power / n : Nat) : Int) - arctanSeries m2 terms (n + 2) (power / m2)

/-- The real 2π in units of 2^-1500, by Machin's formula π/4 = 4·arctan(1/5) - arctan(1/239). -/
def twoPiFixed : Nat :=
  (32 * arctanSeries 25 330 1 (2 ^ turnScale / 5) - 8 * arctanSeries 57121 100 1 (2 ^ turnScale / 239)).toNat

/-- The argument of the series in units of 2^-320: a magnitude below 8 as it is, a larger one less whole turns of the real 2π. -/
def sinArgument (mag : Nat) : Nat :=
  if mag < 2 ^ (1074 + 3) then mag / 2 ^ (1074 - sinScale)
  else mag * 2 ^ (turnScale - 1074) % twoPiFixed / 2 ^ (turnScale - sinScale)

/-- The reference SIN_IMPL: the binary64 nearest sin(x), for every finite `x`. Below 2^-26 in magnitude that is `x` itself, since
x - sin(x) < x^3/6 is less than half a step of `x`. From there on the series is summed in fixed point with 320 fraction bits (70
terms, the first left out below 2^-380) and rounded once; that this is the nearest value is UNVERIFIED where sin(x) lies within
2^-300 of a rounding boundary, which no binary64 argument is known to do (notes/assumptions/10.md). R6 and R133 fix nothing of
the value for an infinity or a NaN; there it is the uninterpreted sine numbered 0. -/
def sinReference (x : F64) : F64 :=
  if F64.isFinite x = false then sinFree 0 x
  else if F64.mag x < 2 ^ (1074 - 26) then x
  else
    let a := sinArgument (F64.mag x)
    let v := sinSeries (a * a) 70 1 a
    F64.pack (F64.sign x != decide (v < 0)) (unitMag (F64.magBits (v.natAbs * 2 ^ (1074 - sinScale)) 1))

/-- `SIN_IMPL(x)` for the parameter's value. -/
def sinImpl (impl : SineImpl) (x : F64) : F64 :=
  match impl with
  | .correctlyRounded => sinReference x
  | .other k => sinFree k x

end Sys2Proof
end

