-- ==== Sys2Proof/Machine/Pcm.lean ====
section
/-! DEFINITION. Machine/Pcm.lean: from the phase to bytes: Sample (40_synth.md R131), enc_b and Frame (20_memory.md R72, R73),
ComputeFrame (R124) and the byte stream a fill cuts its output from (R120 to R123). -/

namespace Sys2Proof.Machine

/-- `Sample(theta, m)` (R131): the amplitude is +0.0 while muted, the product and the sum are rounded each, then RoundHA and
clip. -/
def Syn.sample (cfg : Config) (y : Syn) : Int :=
  let a := if y.mute then 0 else y.ampl
  let v := F64.add (F64.mul a (sinImpl cfg.sine y.theta)) y.dc
  clip y.actBits.toNat (F64.roundHA v)

/-- `enc_b(s)` (R73): offset binary for 8 bits where PCM8_ENCODING says so, little-endian two's complement otherwise. -/
def encSample (enc : Pcm8Encoding) (b : Nat) (s : Int) : List Byte :=
  if b = 8 ∧ enc = .offsetBinary then [BitVec.ofInt 8 (s + 128)]
  else leBytes (b / 8) (s % 2 ^ b).toNat

/-- `Frame(s)` (R72): `c` copies of `enc_b(s)`, one for each channel. -/
def frameBytes (enc : Pcm8Encoding) (b c : Nat) (s : Int) : List Byte :=
  (List.replicate c (encSample enc b s)).flatten

/-- The bytes ComputeFrame returns (R124): one sample value in every channel. -/
def Syn.nextFrame (cfg : Config) (y : Syn) : List Byte :=
  frameBytes cfg.pcm8 y.actBits.toNat y.actChannels.toNat (y.sample cfg)

/-- The state ComputeFrame leaves (R124, R125): theta advances once, by the increment, and is wrapped. -/
def Syn.advance (y : Syn) : Syn := { y with theta := F64.wrap (F64.add y.theta y.inc) }

/-- `n` frames computed one after another: their bytes and the state left. -/
def Syn.computeFrames (cfg : Config) : Nat → Syn → List Byte × Syn
  | 0, y => ([], y)
  | n + 1, y =>
    let rest := Syn.computeFrames cfg n y.advance
    (y.nextFrame cfg ++ rest.1, rest.2)

/-- A fill of `len` bytes by a ready synthesizer (R120): carry first (R121), then whole frames while they fit (R122: that is
`rem / frame` of them), then the first bytes of one more frame, whose others become the carry (R123). -/
def Syn.generate (cfg : Config) (len : Nat) (y : Syn) : List Byte × Syn :=
  let k := min len y.carry.length
  let rem := len - k
  let whole := Syn.computeFrames cfg (rem / y.frame.toNat) { y with carry := y.carry.drop k }
  let tail := rem % y.frame.toNat
  if tail = 0 then (y.carry.take k ++ whole.1, whole.2)
  else
    let f := whole.2.nextFrame cfg
    (y.carry.take k ++ (whole.1 ++ f.take tail), { whole.2.advance with carry := f.drop tail })

end Sys2Proof.Machine
end

