-- ==== Sys2Proof/Machine/Synth.lean ====
section
/-! DEFINITION. Machine/Synth.lean: the SYN commands (40_synth.md). -/

namespace Sys2Proof.Machine

/-- SYN.INIT (R113): the format is checked before the parameters (60_exceptions.md R223); a failure ends the instance (R117). -/
def execSynInit (s : State) : Result :=
  let y := s.syn
  let inc := F64.increment y.stgFreq y.stgRate
  if formatOk s.cfg y.stgChannels y.stgBits y.stgRate = false then
    respond .invalidFormat 0 [] { s with syn := y.failInit }
  else if paramsFinite y = false then
    respond .invalidParam 0 [] { s with syn := y.failInit }
  else if F64.isFinite inc = false then
    respond .invalidParam 0 [] { s with syn := y.failInit }
  else
    respond .ok 0 [] { s with syn := y.startInstance inc }

/-- SYN.GEN (R120): readiness comes first (R127), a LEN of 0 changes nothing (R126). -/
def execSynGen (len : BitVec 32) (s : State) : Result :=
  if s.syn.ready = false then raise .notReady s
  else
    let fill := s.syn.generate s.cfg len.toNat
    respond .ok 0 fill.1 { s with syn := fill.2 }

/-- SYN.WREG (R111). -/
def execSynWreg (reg : BitVec 8) (val : BitVec 64) (s : State) : Result :=
  match SynReg.ofNumber? reg with
  | none => raise .invalidArgument s
  | some r =>
    match r.write? val s.syn with
    | none => raise .invalidArgument s
    | some y => respond .ok 0 [] { s with syn := y }

/-- SYN.RREG (R112). -/
def execSynRreg (reg : BitVec 8) (s : State) : Result :=
  match SynReg.ofNumber? reg with
  | none => raise .invalidArgument s
  | some r => respond .ok (r.read s.syn) [] s

end Sys2Proof.Machine
end

