-- ==== Sys2Proof/Machine/Dispatch.lean ====
section
/-! DEFINITION. Machine/Dispatch.lean: one arm for each command of the opcode map (30_encoding.md R95). -/

namespace Sys2Proof.Machine

def exec (i : Instr) (s : State) : Host.Outcome State Fault Refusal :=
  match i with
  | .synInit => Sys2Proof.Machine.execSynInit s
  | .synGen len => Sys2Proof.Machine.execSynGen len s
  | .synWreg reg val => Sys2Proof.Machine.execSynWreg reg val s
  | .synRreg reg => Sys2Proof.Machine.execSynRreg reg s
  | .chCreate pin blocking => Sys2Proof.Machine.execChCreate pin blocking s
  | .chWrite pin len payload => Sys2Proof.Machine.execChWrite pin len payload s
  | .chClosep pin => Sys2Proof.Machine.execChClosep pin s
  | .chRead pin len => Sys2Proof.Machine.execChRead pin len s
  | .chClosec pin => Sys2Proof.Machine.execChClosec pin s
  | .cqOpen => Sys2Proof.Machine.execCqOpen s
  | .cqClose => Sys2Proof.Machine.execCqClose s
  | .cqInfo len => Sys2Proof.Machine.execCqInfo len s
  | .cqStatus len => Sys2Proof.Machine.execCqStatus len s
  | .cqMute value => Sys2Proof.Machine.execCqMute value s

end Sys2Proof.Machine
end

