-- ==== Sys2Proof/Machine/Events.lean ====
section
/-! DEFINITION. Machine/Events.lean: what one choice of the scheduler does (00_scope.md R7, 60_exceptions.md R231). -/

namespace Sys2Proof.Machine

/-- A transaction arrives: a command runs by its own rule, a failed decode check is answered ILLEGAL_COMMAND and changes no
state (30_encoding.md R97), and a transaction that is not well-shaped is no step at all (R92). -/
def runTransaction (t : Transaction) (s : State) : Result :=
  match decode t with
  | .command i => exec i s
  | .illegal _ => raise .illegalCommand s
  | .notDelivered => .refused .notWellShaped

/-- The hold of a held write is lifted (41_channel.md R165): no write waits on its pin. -/
def HeldWrite.released (w : HeldWrite) (s : State) : Bool := !(s.channel w.pin).pend.isSome

/-- A held CH.WRITE runs as a new command once its hold is lifted (R165); which of several, the scheduler chooses
(notes/assumptions/6.md). Until then it stays held and nothing happens. -/
def runResume (index : Nat) (s : State) : Result :=
  match s.held[index]? with
  | none => .next s
  | some w =>
    if w.released s then exec (.chWrite w.pin w.len w.payload) { s with held := s.held.eraseIdx index }
    else .next s

/-- The input change (42_control.md R210). -/
def runInputChange (spk mic : Bool) (s : State) : Result := .next { s with env := { spk := spk, mic := mic } }

/-- The write waiting on a channel, as a reset leaves it. -/
def abandonedOn (pin : Nat) (c : Channel) : List Abandoned :=
  match c.pend with
  | none => []
  | some w => [.waiting pin w.done]

/-- The writes waiting on a list of channels, whose first is number `pin`. -/
def abandonedFrom : Nat → List Channel → List Abandoned
  | _, [] => []
  | pin, c :: rest => abandonedOn pin c ++ abandonedFrom (pin + 1) rest

/-- Power-on reset (70_reset_and_hazards.md R250, R251): the block is as after reset with the given draw of ENV, no response is
given, and the agents that waited are marked as abandoned (those whose write was held too, notes/assumptions/7.md). -/
def runReset (spk mic : Bool) (s : State) : Result :=
  .next
    { State.resetWith s.numPins s.cfg spk mic with
      inbox := s.inbox
      out := s.out
      abandoned := s.abandoned ++ (abandonedFrom 0 s.channels ++ s.held.map .held) }

/-- One event. -/
def runEvent (e : Event) (s : State) : Result :=
  match e with
  | .command t => runTransaction t s
  | .progress pin => runProgress pin s
  | .resume index => runResume index s
  | .inputChange spk mic => runInputChange spk mic s
  | .reset spk mic => runReset spk mic s

end Sys2Proof.Machine
end

