-- ==== Sys2Proof/Machine/Step.lean ====
section
/-! DEFINITION. Machine/Step.lean: one step of the machine, the next of the scheduler's choices (20_memory.md R82), and where
the host puts an instruction so that the next step runs it. -/

namespace Sys2Proof.Machine

/-- One step: the first event of the inbox happens. With an empty inbox nothing happens (00_scope.md R7: between two steps the
block does not change; notes/assumptions/8.md). -/
def step (s : State) : Host.Outcome State Fault Refusal :=
  match s.inbox with
  | [] => .next s
  | e :: rest => runEvent e { s with inbox := rest }

/-- The transaction of an opcode-table word, put first in the inbox: the block fetches nothing (10_state.md R32), its commands
are delivered (notes/assumptions/1.md). -/
def State.withFetchWord (s : State) (nbits w : Nat) : State :=
  { s with inbox := .command (tableTransaction nbits w) :: s.inbox }

end Sys2Proof.Machine
end

