-- ==== Sys2Proof/Machine/Pseudo.lean ====
section
/-! DEFINITION. Machine/Pseudo.lean: the pseudo-instructions of 30_encoding.md R100 and their expansions. No step depends on
them: an expansion is a list of commands that an agent issues one by one, with anything in between (R100: not atomic). -/

namespace Sys2Proof.Machine

/-- The pseudo-instructions of R100. -/
inductive Pseudo where
  /-- `SYN.CONFIG ch, bits, rate, freq, ampl, dc, phase`; the last four as F64 patterns. -/
  | synConfig (ch bits rate : BitVec 64) (freq ampl dc phase : F64)
  /-- `CH.DRAIN pin`. -/
  | chDrain (pin : BitVec 8)
  /-- `SYN.THETA`. -/
  | synTheta
  /-- `CQ.UNMUTE`. -/
  | cqUnmute
deriving DecidableEq, Repr

/-- The expansion (R100). CH.DRAIN has none where FIFO_CAPACITY is no u32, since LEN is one (R91). -/
def Pseudo.expand (cfg : Config) : Pseudo → Option (List Instr)
  | .synConfig ch bits rate freq ampl dc phase =>
    some
      [.synWreg SynReg.stgChannels.number ch, .synWreg SynReg.stgBits.number bits,
        .synWreg SynReg.stgRate.number rate, .synWreg SynReg.stgFreq.number freq,
        .synWreg SynReg.stgAmpl.number ampl, .synWreg SynReg.stgDcoff.number dc,
        .synWreg SynReg.stgPhase.number phase, .synInit]
  | .chDrain pin =>
    if cfg.fifoCapacity < 2 ^ 32 then some [.chRead pin (BitVec.ofNat 32 cfg.fifoCapacity)] else none
  | .synTheta => some [.synRreg SynReg.theta.number]
  | .cqUnmute => some [.cqMute false]

end Sys2Proof.Machine
end

