-- ==== Sys2Proof/Safety.lean ====
section
/-! DEFINITION. Safety.lean: what the statements are made of: the invariant of the machine, runs of several commands or events,
the responses and bytes a run gives, and the byte stream of 40_synth.md R141. Nothing here is used by a step. -/

namespace Sys2Proof.Machine

/-! ### The invariant -/

/-- `+0.0 <= x < TWO_PI`, and not -0.0 (10_state.md R38). -/
abbrev InPhaseRange (x : F64) : Prop :=
  F64.isFinite x = true ∧ F64.sign x = false ∧ F64.lt x F64.twoPi = true

/-- SYN while an instance is active: the active format passed INIT (R35, 40_synth.md R114), the frame size is that of R36, the
F64 fields are finite (R37, R39), theta is in range (R38) and the carry is shorter than a frame (R44). -/
abbrev Syn.ReadyInv (cfg : Config) (y : Syn) : Prop :=
  formatOk cfg y.actChannels y.actBits y.actRate = true
    ∧ y.frame.toNat = y.actChannels.toNat * (y.actBits.toNat / 8)
    ∧ F64.isFinite y.ampl = true ∧ F64.isFinite y.dc = true ∧ F64.isFinite y.inc = true
    ∧ InPhaseRange y.theta
    ∧ y.carry.length < y.frame.toNat

/-- SYN while no instance is active: the zeros of 10_state.md R45. -/
abbrev Syn.IdleInv (y : Syn) : Prop :=
  y.actChannels = 0 ∧ y.actBits = 0 ∧ y.actRate = 0 ∧ y.frame = 0
    ∧ y.ampl = 0 ∧ y.dc = 0 ∧ y.theta = 0 ∧ y.inc = 0 ∧ y.carry = []

/-- SYN in either case. -/
abbrev Syn.Inv (cfg : Config) (y : Syn) : Prop :=
  (y.ready = true → y.ReadyInv cfg) ∧ (y.ready = false → y.IdleInv)

/-- A channel: the buffer is within its capacity and empty unless the channel is OPEN (R47), an IDLE channel is non-blocking
(R48), and a write waits only on an OPEN blocking channel, has bytes left (R49), and its counts are those of a u32 payload. -/
abbrev Channel.Inv (cfg : Config) (c : Channel) : Prop :=
  c.buf.length ≤ cfg.fifoCapacity
    ∧ (c.state ≠ .opened → c.buf = [])
    ∧ (c.state = .idle → c.blocking = false)
    ∧ (c.pend.all fun w =>
        decide (c.state = .opened ∧ c.blocking = true ∧ w.rest ≠ [] ∧ w.done + w.rest.length < 2 ^ 32)) = true

/-- A held write is a CH.WRITE of the right shape on a pin that exists (41_channel.md R165, R151). -/
abbrev HeldWrite.Inv (numPins : Nat) (w : HeldWrite) : Prop :=
  w.payload.length = w.len.toNat ∧ w.pin.toNat < numPins

/-- The invariant of the machine; the parameters are legal (00_scope.md R6). -/
abbrev State.Inv (s : State) : Prop :=
  s.cfg.Legal ∧ 1 ≤ s.numPins ∧ s.numPins ≤ 256
    ∧ s.syn.Inv s.cfg
    ∧ (∀ c ∈ s.channels, c.Inv s.cfg)
    ∧ (∀ w ∈ s.held, w.Inv s.numPins)

/-! ### Responses and runs -/

/-- A response to the issuer of the command that runs (30_encoding.md R93), by its numeric code (60_exceptions.md R221). -/
def reply (code : BitVec 32) (result : BitVec 64) (payload : List Byte) : Response :=
  { recipient := .issuer, rsp := code, result := result, payload := payload }

/-- A response to the agent whose write waits on a pin (41_channel.md R163). -/
def waiterReply (pin : BitVec 8) (code : BitVec 32) (result : BitVec 64) : Response :=
  { recipient := .waiter pin, rsp := code, result := result, payload := [] }

/-- The responses given between two states of a run. -/
def newResponses (s t : State) : List Response := t.out.drop s.out.length

/-- All payload bytes of some responses, in order. -/
def payloads (rs : List Response) : List Byte := rs.flatMap fun r => r.payload

/-- Commands run one after another, stopping where one does not answer a next state. -/
def execAll : List Instr → State → Result
  | [], s => .next s
  | i :: rest, s =>
    match exec i s with
    | .next t => execAll rest t
    | .fault r => .fault r
    | .refused r => .refused r

/-- Events one after another. -/
def runAll : List Event → State → Result
  | [], s => .next s
  | e :: rest, s =>
    match runEvent e s with
    | .next t => runAll rest t
    | .fault r => .fault r
    | .refused r => .refused r

/-! ### Endless runs and fairness (41_channel.md R164, 70_reset_and_hazards.md R263) -/

/-- An endless run: in turn `n` the scheduler offers the event `ev n` and the block takes one step from `st n` to `st (n + 1)`. -/
def IsRun (st : Nat → State) (ev : Nat → Event) : Prop :=
  ∀ n, step { st n with inbox := [ev n] } = .next (st (n + 1))

/-- Weak fairness of the write-progress step: "while it stays enabled, it eventually runs" (R164). Every run that the spec allows
is weakly fair; a claim that something eventually happens takes this as its premise (R263 (a)). -/
def WeaklyFair (st : Nat → State) (ev : Nat → Event) : Prop :=
  ∀ (pin : BitVec 8) (n : Nat), (∀ m, n ≤ m → (st m).progressEnabled pin = true) → ∃ m, n ≤ m ∧ ev m = .progress pin

/-- The consumer of a pin never stops reading (R263 (b): a premise of each claim that needs it). -/
def KeepsReading (pin : BitVec 8) (ev : Nat → Event) : Prop :=
  ∀ n, ∃ m len, n ≤ m ∧ len ≠ 0 ∧ ev m = .command (encode (.chRead pin len))

/-! ### Numbers (00_scope.md R13) -/

/-- `r` is `fl(num / den)`, the exact value given in units of 2^-1074: no binary64 value is nearer, of two as near the one whose
last bit is 0 is taken, and a value at least half a step past the largest finite one gives an infinity; a value that is not zero
keeps its sign. -/
def RoundsTo (num : Int) (den : Nat) (r : F64) : Prop :=
  F64.isNaN r = false
    ∧ (num ≠ 0 → F64.sign r = decide (num < 0))
    ∧ (F64.isInf r = true ↔ (2 ^ 54 - 1) * 2 ^ 2044 * den ≤ num.natAbs)
    ∧ (F64.isFinite r = true → ∀ z : F64, F64.isFinite z = true →
        |F64.units r * den - num| ≤ |F64.units z * den - num|
          ∧ (|F64.units r * den - num| = |F64.units z * den - num| → F64.units z ≠ F64.units r →
              F64.fracField r % 2 = 0))

/-! ### Shapes and codes, restated from the tables of 30_encoding.md -/

/-- The operation codes of R95. -/
def tableCodes : List (BitVec 8) :=
  [0x10, 0x11, 0x12, 0x13, 0x20, 0x21, 0x22, 0x28, 0x29, 0x30, 0x31, 0x32, 0x33, 0x34]

/-- The interface column of R95, by ranges of codes; `none` outside the table. -/
def tableIface (opc : BitVec 8) : Option Interface :=
  if opc ∈ ([0x10, 0x11, 0x12, 0x13] : List (BitVec 8)) then some .syn
  else if opc ∈ ([0x20, 0x21, 0x22] : List (BitVec 8)) then some .prod
  else if opc ∈ ([0x28, 0x29] : List (BitVec 8)) then some .cons
  else if opc ∈ ([0x30, 0x31, 0x32, 0x33, 0x34] : List (BitVec 8)) then some .cq
  else none

/-- The codes whose SEL column is 0 (R95). -/
def selZeroCodes : List (BitVec 8) := [0x10, 0x11, 0x30, 0x31, 0x32, 0x33, 0x34]

/-- The codes whose F column is not 0 (R95). -/
def flagCodes : List (BitVec 8) := [0x20, 0x34]

/-- The operand table of R91: well-shaped for an operation code of the table (R92). -/
def wellShaped (opc : BitVec 8) (operands : List Operand) (payload : List Byte) : Bool :=
  if opc ∈ ([0x11, 0x28, 0x32, 0x33] : List (BitVec 8)) then
    match operands with
    | [.u32 _] => payload.isEmpty
    | _ => false
  else if opc = 0x12 then
    match operands with
    | [.u64 _] => payload.isEmpty
    | _ => false
  else if opc = 0x21 then
    match operands with
    | [.u32 n] => payload.length == n.toNat
    | _ => false
  else operands.isEmpty && payload.isEmpty

/-! ### The byte stream of SYN (40_synth.md R141) -/

/-- `theta_j`: `theta_0` is the theta of the state and `theta_(j+1) = wrap(fl(theta_j + inc))`. -/
def Syn.thetaAt (y : Syn) : Nat → F64
  | 0 => y.theta
  | j + 1 => F64.wrap (F64.add (y.thetaAt j) y.inc)

/-- `Sample(theta, m)` of R131 by its arguments. -/
def sampleOf (cfg : Config) (y : Syn) (theta : F64) (m : Bool) : Int :=
  clip y.actBits.toNat
    (F64.roundHA (F64.add (F64.mul (if m then 0 else y.ampl) (sinImpl cfg.sine theta)) y.dc))

/-- `F_j = Frame(Sample(theta_j, mute))`. -/
def Syn.frameAt (cfg : Config) (y : Syn) (j : Nat) : List Byte :=
  frameBytes cfg.pcm8 y.actBits.toNat y.actChannels.toNat (sampleOf cfg y (y.thetaAt j) y.mute)

/-- The first `m` frames of `S = F_0 ++ F_1 ++ …`. -/
def Syn.stream (cfg : Config) (y : Syn) (m : Nat) : List Byte := (List.range m).flatMap (y.frameAt cfg)

/-- A byte list cut into pieces of the given lengths. -/
def pieces : List Byte → List Nat → List (List Byte)
  | _, [] => []
  | bytes, n :: rest => bytes.take n :: pieces (bytes.drop n) rest

/-- How many frames of `frame` bytes hold `n` bytes: `ceil(n / frame)`. -/
def framesFor (frame n : Nat) : Nat := (n + frame - 1) / frame

/-! ### Conditions of the commands -/

/-- `FormatOK` of the staging registers, its five conditions (40_synth.md R114). -/
abbrev StagedFormatOk (s : State) : Prop :=
  1 ≤ s.syn.stgChannels.toNat ∧ s.syn.stgChannels.toNat ≤ s.cfg.maxChannels
    ∧ s.syn.stgBits.toNat % 8 = 0
    ∧ s.syn.stgBits.toNat ∈ s.cfg.supportedBits.map BitDepth.bits
    ∧ 1 ≤ s.syn.stgRate.toNat

/-- The increment of the staging registers (R119). -/
def stagedIncrement (s : State) : F64 :=
  F64.div (F64.mul F64.twoPi s.syn.stgFreq) (F64.ofNat s.syn.stgRate.toNat)

/-- The parameters SYN.INIT accepts: the four staged ones and the increment are finite (R115). -/
abbrev StagedParamsOk (s : State) : Prop :=
  F64.isFinite s.syn.stgFreq = true ∧ F64.isFinite s.syn.stgAmpl = true ∧ F64.isFinite s.syn.stgDc = true
    ∧ F64.isFinite s.syn.stgPhase = true ∧ F64.isFinite (stagedIncrement s) = true

/-- The pin a CH command names; `none` for the other commands. -/
def pinOf : Instr → Option (BitVec 8)
  | .synInit => none
  | .synGen _ => none
  | .synWreg _ _ => none
  | .synRreg _ => none
  | .chCreate pin _ => some pin
  | .chWrite pin _ _ => some pin
  | .chClosep pin => some pin
  | .chRead pin _ => some pin
  | .chClosec pin => some pin
  | .cqOpen => none
  | .cqClose => none
  | .cqInfo _ => none
  | .cqStatus _ => none
  | .cqMute _ => none

/-- A command answers with exactly one response, of the given code, and leaves the channel of the pin in the given state. -/
def Answers (i : Instr) (s : State) (pin : BitVec 8) (code : BitVec 32) (after : ChannelState) : Prop :=
  ∃ t r, exec i s = .next t ∧ newResponses s t = [r] ∧ r.rsp = code
    ∧ t.channels[pin.toNat]?.map Channel.state = some after

/-- The carry length after a fill of `n` bytes that began with a carry of `c` bytes (R121, R123). -/
def carryAfter (frame c n : Nat) : Nat := if n ≤ c then c - n else (frame - (n - c) % frame) % frame

/-! ### The bytes of a channel (20_memory.md R83, 41_channel.md R176) -/

/-- The bytes accepted on a pin and not yet read: those in the buffer and those a waiting write has left. -/
def State.queued (s : State) (pin : BitVec 8) : List Byte :=
  (s.channel pin).buf ++ ((s.channel pin).pend.map Pending.rest).getD []

/-- The CH.WRITE that an event issues or lets run, by pin and payload. -/
def writeOf (e : Event) (s : State) : Option (BitVec 8 × List Byte) :=
  match e with
  | .command t =>
    match decode t with
    | .command (.chWrite pin _ payload) => some (pin, payload)
    | _ => none
  | .resume k => s.held[k]?.map fun w => (w.pin, w.payload)
  | .progress _ => none
  | .inputChange _ _ => none
  | .reset _ _ => none

/-- How many writes are held after an event whose own write was not held. -/
def heldAfter (e : Event) (s : State) : Nat :=
  match e with
  | .resume _ => s.held.length - 1
  | .command _ => s.held.length
  | .progress _ => s.held.length
  | .inputChange _ _ => s.held.length
  | .reset _ _ => s.held.length

/-- The bytes a step accepted from a CH.WRITE on a pin: its payload, where the write ran and was answered OK or waits. -/
def accepted (pin : BitVec 8) (e : Event) (s t : State) : List Byte :=
  match writeOf e s with
  | none => []
  | some (q, payload) =>
    if q = pin ∧ t.held.length = heldAfter e s ∧ ∀ r ∈ newResponses s t, r.rsp = 0 then payload else []

/-- The bytes a step gave to a CH.READ on a pin. -/
def delivered (pin : BitVec 8) (e : Event) (s t : State) : List Byte :=
  match e with
  | .command tr =>
    match decode tr with
    | .command (.chRead q _) => if q = pin then payloads (newResponses s t) else []
    | _ => []
  | .progress _ => []
  | .resume _ => []
  | .inputChange _ _ => []
  | .reset _ _ => []

/-- The bytes a run of events accepted on a pin, in order. -/
def acceptedIn (pin : BitVec 8) : List Event → State → List Byte
  | [], _ => []
  | e :: rest, s =>
    match runEvent e s with
    | .next t => accepted pin e s t ++ acceptedIn pin rest t
    | .fault _ => []
    | .refused _ => []

/-- The bytes a run of events delivered from a pin, in order. -/
def deliveredIn (pin : BitVec 8) : List Event → State → List Byte
  | [], _ => []
  | e :: rest, s =>
    match runEvent e s with
    | .next t => delivered pin e s t ++ deliveredIn pin rest t
    | .fault _ => []
    | .refused _ => []

/-- The channel of a pin is OPEN in every state of a run, so that the run lies within one session (00_scope.md R16). -/
def liveThroughout (pin : BitVec 8) : List Event → State → Bool
  | [], s => decide ((s.channel pin).state = .opened)
  | e :: rest, s =>
    decide ((s.channel pin).state = .opened) &&
      match runEvent e s with
      | .next t => liveThroughout pin rest t
      | .fault _ => false
      | .refused _ => false

end Sys2Proof.Machine
end

