-- ==== Sys2Proof/Certificates/Slice0/Obligations.lean ====
section
/-! DEFINITION. Certificates/Slice0/Obligations.lean: the statements for the provers, in the order of OBLIGATIONS.json. Response
codes are written as the numbers of 60_exceptions.md R221: 0 OK, 1 INVALID_FORMAT, 2 INVALID_ARGUMENT, 3 ALREADY_OPEN,
4 WOULD_BLOCK, 5 CHANNEL_CLOSED, 6 NOT_READY, 7 INVALID_PARAM, 8 NO_RESOURCES, 9 ILLEGAL_COMMAND. A statement about every state
is one about every choice of the parameters of 00_scope.md R6, which the state carries. -/

open Sys2Proof Sys2Proof.Machine

/-! ### Reset and the machine as a whole -/

/-- R57, R250: what reset leaves in every element of the block, for every number of pins, every choice of the parameters and
every draw of ENV. -/
def Obligations.ResetLeavesStatedValues : Prop :=
  ∀ (n : Nat) (cfg : Config) (spk mic : Bool),
    let s := State.resetWith n cfg spk mic
    s.syn.ready = false ∧ s.syn.mute = false
      ∧ s.syn.stgChannels = 0 ∧ s.syn.stgBits = 0 ∧ s.syn.stgRate = 0
      ∧ s.syn.stgFreq = 0 ∧ s.syn.stgAmpl = 0 ∧ s.syn.stgDc = 0 ∧ s.syn.stgPhase = 0
      ∧ s.syn.actChannels = 0 ∧ s.syn.actBits = 0 ∧ s.syn.actRate = 0 ∧ s.syn.frame = 0
      ∧ s.syn.ampl = 0 ∧ s.syn.dc = 0 ∧ s.syn.theta = 0 ∧ s.syn.inc = 0 ∧ s.syn.carry = []
      ∧ s.channels.length = n
      ∧ (∀ c ∈ s.channels, c.state = .idle ∧ c.buf = [] ∧ c.blocking = false ∧ c.pend = none)
      ∧ s.handle = false ∧ s.env.spk = spk ∧ s.env.mic = mic

/-- The invariant holds after reset, for every legal choice of the parameters, and for the model's own choice
(notes/assumptions/3.md, 5.md). -/
def Obligations.ResetMeetsInvariant : Prop :=
  (∀ (n : Nat) (cfg : Config) (spk mic : Bool),
      cfg.Legal → 1 ≤ n → n ≤ 256 → (State.resetWith n cfg spk mic).Inv)
    ∧ State.reset.Inv

/-- Every step keeps the invariant: the carry bound (R44), the zeros of an inactive instance (R45), the range of theta (R38), the
finiteness of the F64 fields (R37, R39), the frame size (R36), the buffer bound (R47), the blocking flag (R48) and what a pending
write implies (R49). -/
def Obligations.StepKeepsInvariant : Prop :=
  ∀ (s t : State), s.Inv → step s = .next t → t.Inv

/-- A step whose next event is a transaction that decodes to a command is that command's meaning, in the state without the event.
The step adds nothing else: there is no program counter (R32). The inbox is the model's form of the command stream
(notes/assumptions/1.md). -/
def Obligations.StepRunsDecodedCommand : Prop :=
  ∀ (s : State) (tr : Transaction) (rest : List Event) (i : Instr),
    s.inbox = .command tr :: rest → decode tr = .command i → step s = exec i { s with inbox := rest }

/-- No step faults (R220), a step is refused only where the next event is a transaction the transport never delivers (R92), and
every well-formed command answers a next state in every state. -/
def Obligations.OnlyMalformedTransactionsStop : Prop :=
  (∀ (s : State) (f : Fault), step s ≠ .fault f)
    ∧ (∀ (s : State) (r : Refusal), s.Inv → step s = .refused r →
        r = .notWellShaped ∧ ∃ tr rest, s.inbox = .command tr :: rest ∧ decode tr = .notDelivered)
    ∧ (∀ (i : Instr) (s : State), i.WellFormed → ∃ t, exec i s = .next t)

/-- R30: the parameters and the number of channels never change. Beside it, of the model's own log of responses: R93 says that a
response is produced exactly once, and the log keeps each one, through a reset too; that there is such a log, and that a reset keeps
it, is the model's choice (notes/assumptions/2.md, 7.md). -/
def Obligations.ParametersNeverChange : Prop :=
  ∀ (s t : State), step s = .next t → t.cfg = s.cfg ∧ t.numPins = s.numPins ∧ s.out <+: t.out

/-! ### Decoding (30_encoding.md) -/

/-- R97: the decode checks on the bits of the command word, for a transaction that is delivered. The first clause is R97.1 to
R97.5 (with R92 for the shape), the second R97.6. -/
def Obligations.DecodeChecksAnswerIllegalCommand : Prop :=
  ∀ (s : State) (tr : Transaction) (rest : List Event), s.inbox = .command tr :: rest →
    let opc := tr.cw.extractLsb' 0 8
    let wrongField := tableIface opc ≠ some tr.iface ∨ tr.cw.extractLsb' 17 15 ≠ 0
      ∨ (opc ∈ selZeroCodes ∧ tr.cw.extractLsb' 8 8 ≠ 0) ∨ (opc ∉ flagCodes ∧ tr.cw.getLsbD 16 = true)
    (opc ∉ tableCodes ∨ (wellShaped opc tr.operands tr.payload = true ∧ wrongField) →
        step s = .next { s with inbox := rest, out := s.out ++ [reply 9 0 []] })
      ∧ (opc ∈ tableCodes → wellShaped opc tr.operands tr.payload = true → ¬ wrongField →
        ∃ i : Instr, i.WellFormed ∧ encode i = tr ∧ step s = exec i { s with inbox := rest })

/-- R92: a transaction with an opcode of the table and not its shape takes no step; one with another opcode is delivered whatever
its shape. -/
def Obligations.MalformedTransactionsAreNotDelivered : Prop :=
  ∀ (s : State) (tr : Transaction) (rest : List Event), s.inbox = .command tr :: rest →
    let opc := tr.cw.extractLsb' 0 8
    (opc ∈ tableCodes → wellShaped opc tr.operands tr.payload = false → step s = .refused .notWellShaped)
      ∧ (opc ∉ tableCodes → step s = .next { s with inbox := rest, out := s.out ++ [reply 9 0 []] })

/-- Decoding the encoding of a well-formed command gives the command back, with every operand at every value. -/
def Obligations.DecodeOfEncode : Prop :=
  ∀ i : Instr, i.WellFormed → decode (encode i) = .command i

/-- A transaction that decodes to a command is that command's encoding: no bit of a command word is without a meaning or a
check. -/
def Obligations.EncodeOfDecode : Prop :=
  ∀ (tr : Transaction) (i : Instr), decode tr = .command i → i.WellFormed ∧ encode i = tr

/-- R71: the byte form of a command's transaction reads back, on the command's interface; and in the byte form of a response RSP and
RESULT are four and eight little-endian bytes, the payload after them. The order of the parts is the model's choice
(notes/assumptions/14.md). -/
def Obligations.BytesOfEncodeReadBack : Prop :=
  (∀ i : Instr, i.WellFormed → Transaction.ofBytes (encode i).iface (encode i).bytes = some (encode i))
    ∧ (∀ r : Response,
        ofLeBytes (r.bytes.take 4) = r.rsp.toNat ∧ ofLeBytes ((r.bytes.drop 4).take 8) = r.result.toNat
          ∧ r.bytes.drop 12 = r.payload ∧ r.bytes.length = 12 + r.payload.length)

/-- R95: one command word of each row, written out, decodes to its command. -/
def Obligations.WrittenOutWordsDecode : Prop :=
  decode ⟨.syn, 0x00000010, [], []⟩ = .command .synInit
    ∧ decode ⟨.syn, 0x00000011, [.u32 3], []⟩ = .command (.synGen 3)
    ∧ decode ⟨.syn, 0x00000212, [.u64 0x1F40], []⟩ = .command (.synWreg 0x02 0x1F40)
    ∧ decode ⟨.syn, 0x00001213, [], []⟩ = .command (.synRreg 0x12)
    ∧ decode ⟨.prod, 0x00010120, [], []⟩ = .command (.chCreate 1 true)
    ∧ decode ⟨.prod, 0x00000021, [.u32 2], [0xA0, 0xA1]⟩ = .command (.chWrite 0 2 [0xA0, 0xA1])
    ∧ decode ⟨.prod, 0x00000122, [], []⟩ = .command (.chClosep 1)
    ∧ decode ⟨.cons, 0x00000128, [.u32 8], []⟩ = .command (.chRead 1 8)
    ∧ decode ⟨.cons, 0x00000029, [], []⟩ = .command (.chClosec 0)
    ∧ decode ⟨.cq, 0x00000030, [], []⟩ = .command .cqOpen
    ∧ decode ⟨.cq, 0x00000031, [], []⟩ = .command .cqClose
    ∧ decode ⟨.cq, 0x00000032, [.u32 64], []⟩ = .command (.cqInfo 64)
    ∧ decode ⟨.cq, 0x00000033, [.u32 36], []⟩ = .command (.cqStatus 36)
    ∧ decode ⟨.cq, 0x00010034, [], []⟩ = .command (.cqMute true)

/-- R100: what the pseudo-instructions expand to, the eight commands of SYN.CONFIG in their order, and what those eight do when
nothing comes between them: seven OK answers, and then SYN.INIT on the staging registers they wrote. -/
def Obligations.PseudoInstructionsExpand : Prop :=
  (∀ (s : State) (ch bits rate : BitVec 64) (freq ampl dc phase : F64),
      let is : List Instr :=
        [.synWreg 0x00 ch, .synWreg 0x01 bits, .synWreg 0x02 rate, .synWreg 0x03 freq, .synWreg 0x04 ampl, .synWreg 0x05 dc,
          .synWreg 0x06 phase, .synInit]
      (Pseudo.synConfig ch bits rate freq ampl dc phase).expand s.cfg = some is
        ∧ (ch.toNat < 2 ^ 16 → bits.toNat < 2 ^ 16 → rate.toNat < 2 ^ 32 →
          execAll is s = exec .synInit
            { s with
              syn := { s.syn with
                stgChannels := ch.extractLsb' 0 16, stgBits := bits.extractLsb' 0 16, stgRate := rate.extractLsb' 0 32
                stgFreq := freq, stgAmpl := ampl, stgDc := dc, stgPhase := phase }
              out := s.out ++ List.replicate 7 (reply 0 0 []) }))
    ∧ (∀ (cfg : Config) (pin : BitVec 8), cfg.fifoCapacity < 2 ^ 32 →
      (Pseudo.chDrain pin).expand cfg = some [.chRead pin (BitVec.ofNat 32 cfg.fifoCapacity)])
    ∧ (∀ cfg : Config, Pseudo.synTheta.expand cfg = some [.synRreg 0x13])
    ∧ (∀ cfg : Config, Pseudo.cqUnmute.expand cfg = some [.cqMute false])

/-! ### SYN registers and SYN.INIT (40_synth.md R111 to R119) -/

/-- R111, and R41.1, R41.2: what SYN.WREG writes, register by register, and when it is refused. Nothing else changes. -/
def Obligations.SynWregWritesStagingRegister : Prop :=
  ∀ (s : State) (n : BitVec 8) (v : BitVec 64),
    (n = 0x00 → v.toNat < 2 ^ 16 → exec (.synWreg n v) s =
        .next { s with syn := { s.syn with stgChannels := v.extractLsb' 0 16 }, out := s.out ++ [reply 0 0 []] })
      ∧ (n = 0x01 → v.toNat < 2 ^ 16 → exec (.synWreg n v) s =
        .next { s with syn := { s.syn with stgBits := v.extractLsb' 0 16 }, out := s.out ++ [reply 0 0 []] })
      ∧ (n = 0x02 → v.toNat < 2 ^ 32 → exec (.synWreg n v) s =
        .next { s with syn := { s.syn with stgRate := v.extractLsb' 0 32 }, out := s.out ++ [reply 0 0 []] })
      ∧ (n = 0x03 → exec (.synWreg n v) s =
        .next { s with syn := { s.syn with stgFreq := v }, out := s.out ++ [reply 0 0 []] })
      ∧ (n = 0x04 → exec (.synWreg n v) s =
        .next { s with syn := { s.syn with stgAmpl := v }, out := s.out ++ [reply 0 0 []] })
      ∧ (n = 0x05 → exec (.synWreg n v) s =
        .next { s with syn := { s.syn with stgDc := v }, out := s.out ++ [reply 0 0 []] })
      ∧ (n = 0x06 → exec (.synWreg n v) s =
        .next { s with syn := { s.syn with stgPhase := v }, out := s.out ++ [reply 0 0 []] })
      ∧ (6 < n.toNat ∨ (n.toNat ≤ 1 ∧ 2 ^ 16 ≤ v.toNat) ∨ (n.toNat = 2 ∧ 2 ^ 32 ≤ v.toNat) → exec (.synWreg n v) s =
        .next { s with out := s.out ++ [reply 2 0 []] })

/-- R112 with the contents column of R40: the value SYN.RREG returns for each register, INVALID_ARGUMENT for the reserved
numbers, zero for the status registers but SYN_STATE while no instance is active (R45), and no state change. -/
def Obligations.SynRregReadsRegister : Prop :=
  ∀ (s : State) (n : BitVec 8),
    let reads (v : BitVec 64) : Prop := exec (.synRreg n) s = .next { s with out := s.out ++ [reply 0 v []] }
    (n = 0x00 → reads (BitVec.ofNat 64 s.syn.stgChannels.toNat))
      ∧ (n = 0x01 → reads (BitVec.ofNat 64 s.syn.stgBits.toNat))
      ∧ (n = 0x02 → reads (BitVec.ofNat 64 s.syn.stgRate.toNat))
      ∧ (n = 0x03 → reads s.syn.stgFreq)
      ∧ (n = 0x04 → reads s.syn.stgAmpl)
      ∧ (n = 0x05 → reads s.syn.stgDc)
      ∧ (n = 0x06 → reads s.syn.stgPhase)
      ∧ (n = 0x10 → reads (BitVec.ofNat 64
          (s.syn.actChannels.toNat + s.syn.actBits.toNat * 2 ^ 16 + s.syn.actRate.toNat * 2 ^ 32)))
      ∧ (n = 0x11 → reads (BitVec.ofNat 64 s.syn.frame.toNat))
      ∧ (n = 0x12 → reads (BitVec.ofNat 64 (s.syn.ready.toNat + 2 * s.syn.mute.toNat)))
      ∧ (n = 0x13 → reads s.syn.theta)
      ∧ (n = 0x14 → reads s.syn.inc)
      ∧ (n = 0x15 → reads (BitVec.ofNat 64 s.syn.carry.length))
      ∧ (n = 0x16 → reads s.syn.ampl)
      ∧ (n = 0x17 → reads s.syn.dc)
      ∧ (s.Inv → s.syn.ready = false → 0x10 ≤ n.toNat → n.toNat ≤ 0x17 → n ≠ 0x12 → reads 0)
      ∧ (¬ (n.toNat ≤ 0x06 ∨ (0x10 ≤ n.toNat ∧ n.toNat ≤ 0x17)) →
          exec (.synRreg n) s = .next { s with out := s.out ++ [reply 2 0 []] })

/-- R41.5: after a SYN.WREG that was answered OK, a SYN.RREG of the same register returns exactly the value written. -/
def Obligations.WrittenRegisterReadsBack : Prop :=
  ∀ (s t : State) (n : BitVec 8) (v : BitVec 64),
    exec (.synWreg n v) s = .next t → newResponses s t = [reply 0 0 []] →
      exec (.synRreg n) t = .next { t with out := t.out ++ [reply 0 v []] }

/-- R113, with FormatOK (R114), the parameter check (R115) and FailInit (R117): a good format and finite parameters start an
instance; a bad format, or a good one with a parameter or increment that is not finite, ends the one there was. The staging
registers stay in each case. -/
def Obligations.SynInitFollowsItsRule : Prop :=
  ∀ s : State,
    let failed : Syn :=
      { s.syn with
        ready := false, mute := false, actChannels := 0, actBits := 0, actRate := 0, frame := 0
        ampl := 0, dc := 0, theta := 0, inc := 0, carry := [] }
    (StagedFormatOk s → StagedParamsOk s → exec .synInit s =
        .next
          { s with
            syn := { s.syn with
              ready := true, mute := false
              actChannels := s.syn.stgChannels, actBits := s.syn.stgBits, actRate := s.syn.stgRate
              frame := BitVec.ofNat 32 (s.syn.stgChannels.toNat * (s.syn.stgBits.toNat / 8))
              ampl := s.syn.stgAmpl, dc := s.syn.stgDc, inc := stagedIncrement s
              theta := F64.wrap s.syn.stgPhase, carry := [] }
            out := s.out ++ [reply 0 0 []] })
      ∧ (¬ StagedFormatOk s → exec .synInit s = .next { s with syn := failed, out := s.out ++ [reply 1 0 []] })
      ∧ (StagedFormatOk s → ¬ StagedParamsOk s →
        exec .synInit s = .next { s with syn := failed, out := s.out ++ [reply 7 0 []] })

/-! ### SYN.GEN (R120 to R127, R139 to R144) -/

/-- R126, R127: SYN.GEN while no instance is active is NOT_READY for every LEN, and a LEN of 0 while one is is OK; neither changes
anything. -/
def Obligations.SynGenNotReadyAndZeroLength : Prop :=
  ∀ (s : State) (len : BitVec 32),
    (s.syn.ready = false → exec (.synGen len) s = .next { s with out := s.out ++ [reply 6 0 []] })
      ∧ (s.syn.ready = true → len = 0 → exec (.synGen len) s = .next { s with out := s.out ++ [reply 0 0 []] })

/-- SYN.GEN while an instance is active completes with exactly LEN bytes (R76, R120) and changes theta and the carry only; the carry
stays shorter than a frame (R123). -/
def Obligations.SynGenEmitsExactlyLenBytes : Prop :=
  ∀ (s : State) (len : BitVec 32), s.Inv → s.syn.ready = true →
    ∃ (bytes carry : List Byte) (theta : F64),
      bytes.length = len.toNat ∧ carry.length = carryAfter s.syn.frame.toNat s.syn.carry.length len.toNat
        ∧ carry.length < s.syn.frame.toNat
        ∧ exec (.synGen len) s =
          .next { s with syn := { s.syn with theta := theta, carry := carry }, out := s.out ++ [reply 0 0 bytes] }

/-- R121: the carry bytes come first, oldest first; a LEN within the carry computes no frame and keeps the rest in order. -/
def Obligations.SynGenEmitsCarryFirst : Prop :=
  ∀ (s : State) (len : BitVec 32), s.syn.ready = true →
    ∃ (t : State) (bytes : List Byte),
      exec (.synGen len) s = .next t ∧ newResponses s t = [reply 0 0 bytes]
        ∧ bytes.take (min len.toNat s.syn.carry.length) = s.syn.carry.take (min len.toNat s.syn.carry.length)
        ∧ (len.toNat ≤ s.syn.carry.length →
          bytes = s.syn.carry.take len.toNat ∧ t.syn = { s.syn with carry := s.syn.carry.drop len.toNat })

/-- R141, the stream view: from an instance at a frame boundary, any sequence of SYN.GEN commands returns consecutive pieces of the
one stream of frames, and leaves the theta and the carry of the place it has reached. -/
def Obligations.FillsAreSlicesOfOneStream : Prop :=
  ∀ (s : State) (lens : List (BitVec 32)), s.Inv → s.syn.ready = true → s.syn.carry = [] →
    let total := (lens.map BitVec.toNat).sum
    let frames := framesFor s.syn.frame.toNat total
    let stream := s.syn.stream s.cfg frames
    ∃ t, execAll (lens.map Instr.synGen) s = .next t
      ∧ newResponses s t = (pieces stream (lens.map BitVec.toNat)).map (reply 0 0)
      ∧ t.syn = { s.syn with theta := s.syn.thetaAt frames, carry := stream.drop total }
      ∧ t.syn.carry.length = (s.syn.frame.toNat - total % s.syn.frame.toNat) % s.syn.frame.toNat

/-- R142, chunking invariance: any sequence of SYN.GEN lengths emits the bytes, and leaves the SYN state, of one SYN.GEN of their
sum; from a frame boundary a whole number of frames leaves an empty carry. -/
def Obligations.ChunkingInvariance : Prop :=
  ∀ (s : State) (lens : List (BitVec 32)) (n : BitVec 32), s.Inv → s.syn.ready = true →
    (lens.map BitVec.toNat).sum = n.toNat →
    ∃ t u, execAll (lens.map Instr.synGen) s = .next t ∧ exec (.synGen n) s = .next u
      ∧ payloads (newResponses s t) = payloads (newResponses s u)
      ∧ t.syn = u.syn
      ∧ (s.syn.carry = [] → n.toNat % s.syn.frame.toNat = 0 → t.syn.carry = [])

/-- R139: a frame computed while muted has the sample `clip_b(RoundHA(dc))`; and R140: so has one of amplitude zero. -/
def Obligations.MutedSampleIsDcOffset : Prop :=
  ∀ (cfg : Config) (y : Syn), y.ready = true → y.Inv cfg → y.mute = true ∨ F64.mag y.ampl = 0 →
    y.sample cfg = clip y.actBits.toNat (F64.roundHA y.dc)

/-- R144, mute consistency: fills of `as` bytes muted and then fills of `bs` bytes unmuted, beside the same fills unmuted
throughout. The frames computed while muted are the DC-offset waveform, the carry of before is emitted as it was, theta is equal
bit for bit after either part, and every byte computed after unmuting is equal. The bytes that come first after unmuting are those
that waited: the tail of the last frame computed while muted, as it was computed (R139), or what is left of the carry of before
where no frame was computed. -/
def Obligations.MuteConsistency : Prop :=
  ∀ (s : State) (as bs : List (BitVec 32)), s.Inv → s.syn.ready = true → s.syn.mute = false →
    let a := (as.map BitVec.toNat).sum
    let c0 := s.syn.carry.length
    let b := (bs.map BitVec.toNat).sum
    let c1 := carryAfter s.syn.frame.toNat c0 a
    let silent := frameBytes s.cfg.pcm8 s.syn.actBits.toNat s.syn.actChannels.toNat
      (clip s.syn.actBits.toNat (F64.roundHA s.syn.dc))
    ∃ t₁ t u₁ u : State,
      execAll (.cqMute true :: as.map .synGen) s = .next t₁ ∧ execAll (.cqMute false :: bs.map .synGen) t₁ = .next t
        ∧ execAll (as.map .synGen) s = .next u₁ ∧ execAll (bs.map .synGen) u₁ = .next u
        ∧ (payloads (newResponses s t₁)).take c0 = (payloads (newResponses s u₁)).take c0
        ∧ (payloads (newResponses s t₁)).drop c0 = (List.replicate a silent).flatten.take (a - c0)
        ∧ t₁.syn.carry = (if a ≤ c0 then s.syn.carry.drop a else silent.drop (silent.length - c1))
        ∧ (payloads (newResponses t₁ t)).take c1 = t₁.syn.carry.take b
        ∧ (payloads (newResponses t₁ t)).drop c1 = (payloads (newResponses u₁ u)).drop c1
        ∧ t₁.syn.theta = u₁.syn.theta ∧ t.syn.theta = u.syn.theta

/-- R140: a frequency of +0.0 makes the increment of a good format +0.0 (R119); SYN.INIT with it, where the parameters are finite,
starts an instance with that increment and the wrapped phase as theta; and while the increment is a zero theta stays, so a fill emits
one frame over and over. -/
def Obligations.ZeroIncrementRepeatsOneFrame : Prop :=
  (∀ s : State, StagedFormatOk s → s.syn.stgFreq = 0 → stagedIncrement s = 0)
    ∧ (∀ s : State, StagedFormatOk s → StagedParamsOk s → s.syn.stgFreq = 0 →
        ∃ t, exec .synInit s = .next t ∧ t.syn.ready = true ∧ t.syn.inc = 0 ∧ t.syn.theta = F64.wrap s.syn.stgPhase)
    ∧ (∀ (s : State) (len : BitVec 32), s.Inv → s.syn.ready = true → F64.mag s.syn.inc = 0 →
        ∃ (t : State) (bytes : List Byte),
          exec (.synGen len) s = .next t ∧ newResponses s t = [reply 0 0 bytes] ∧ t.syn.theta = s.syn.theta
            ∧ bytes = (s.syn.carry ++ (List.replicate len.toNat (s.syn.nextFrame s.cfg)).flatten).take len.toNat)

/-! ### Numbers (R13, R118, R130 to R134, R73) -/

/-- R13: rounding is to nearest, ties to even, with either sign, with overflow to infinity at half a step past the largest finite
value (IEEE 754, notes/assumptions/21.md). Values are in units of 2^-1074. -/
def Obligations.RoundingIsToNearestEven : Prop :=
  ∀ (neg : Bool) (num den : Nat), 0 < den →
    RoundsTo (if neg then -(num : Int) else num) den (F64.round neg num den) ∧ F64.sign (F64.round neg num den) = neg

/-- R13: `fmod` of finite values is the exact remainder by truncation. It has the sign of its first operand: R118 says so of the one
divisor it uses, TWO_PI ("sign of x"), and for the others it is IEEE 754's (notes/assumptions/21.md, PRESUMED). -/
def Obligations.FmodIsExact : Prop :=
  ∀ x y : F64, F64.isFinite x = true → F64.isFinite y = true → F64.mag y ≠ 0 →
    F64.isFinite (F64.fmod x y) = true ∧ F64.sign (F64.fmod x y) = F64.sign x
      ∧ F64.mag (F64.fmod x y) = F64.mag x % F64.mag y

/-- R118: wrap takes every finite value into `[+0.0, TWO_PI)`, leaves a value of that range as it is, and subtracts TWO_PI exactly
from one of the next turn. A value that is not negative becomes its exact remainder by TWO_PI. Of a negative one with the remainder
`-m`, `m = 0` gives +0.0, and else TWO_PI - m is rounded, where a result of TWO_PI becomes +0.0. -/
def Obligations.WrapTakesFiniteValuesIntoRange : Prop :=
  ∀ x : F64, F64.isFinite x = true →
    InPhaseRange (F64.wrap x)
      ∧ (InPhaseRange x → F64.wrap x = x)
      ∧ (F64.units F64.twoPi ≤ F64.units x → F64.units x < 2 * F64.units F64.twoPi →
          F64.units (F64.wrap x) = F64.units x - F64.units F64.twoPi)
      ∧ (0 ≤ F64.units x → F64.units (F64.wrap x) = F64.units x % F64.units F64.twoPi)
      ∧ (F64.units x < 0 →
          let m := F64.mag x % F64.mag F64.twoPi
          (m = 0 → F64.wrap x = 0)
            ∧ (m ≠ 0 → ∃ r : F64, RoundsTo (F64.units F64.twoPi - m) 1 r ∧ F64.wrap x = if r = F64.twoPi then 0 else r))

/-- R134, numeric closure: while an instance is active the sine is in [-1, 1], the product is finite, the value to round is no NaN
and is infinite only where |ampl| + |dc| exceeds the largest finite value, and the next angle is finite. -/
def Obligations.NumericClosure : Prop :=
  ∀ (cfg : Config) (y : Syn), y.ready = true → y.Inv cfg →
    let a : F64 := if y.mute then 0 else y.ampl
    let sine := sinImpl cfg.sine y.theta
    let v := F64.add (F64.mul a sine) y.dc
    F64.isFinite sine = true ∧ F64.mag sine ≤ F64.unitsPerOne
      ∧ F64.isFinite (F64.mul a sine) = true
      ∧ F64.isNaN v = false
      ∧ (F64.isInf v = true → (2 ^ 53 - 1) * 2 ^ 2045 < F64.mag y.ampl + F64.mag y.dc)
      ∧ F64.isFinite (F64.add y.theta y.inc) = true

/-- R132, R73: clip leaves a value of the depth's range as it is and gives the nearer end of it for one outside and for an infinity;
and enc_b of a value of the range is b/8 bytes whose little-endian number is `s mod 2^b`, or `s + 128` for 8-bit offset binary. -/
def Obligations.SamplesAreClippedAndEncoded : Prop :=
  ∀ (d : BitDepth) (enc : Pcm8Encoding),
    (clip d.bits .posInf = 2 ^ (d.bits - 1) - 1 ∧ clip d.bits .negInf = -2 ^ (d.bits - 1))
      ∧ (∀ z : Int, 2 ^ (d.bits - 1) - 1 < z → clip d.bits (.int z) = 2 ^ (d.bits - 1) - 1)
      ∧ (∀ z : Int, z < -2 ^ (d.bits - 1) → clip d.bits (.int z) = -2 ^ (d.bits - 1))
      ∧ (∀ z : Int, -2 ^ (d.bits - 1) ≤ z → z ≤ 2 ^ (d.bits - 1) - 1 → clip d.bits (.int z) = z)
      ∧ (∀ z : Int, -2 ^ (d.bits - 1) ≤ z → z ≤ 2 ^ (d.bits - 1) - 1 →
          (encSample enc d.bits z).length = d.bits / 8
            ∧ (ofLeBytes (encSample enc d.bits z) : Int) =
              if d = .d8 ∧ enc = .offsetBinary then z + 128 else z % 2 ^ d.bits)

/-! ### CH (41_channel.md) -/

/-- R151: the pin check comes first in every CH command. -/
def Obligations.PinOutOfRangeIsInvalidArgument : Prop :=
  ∀ (s : State) (i : Instr) (pin : BitVec 8), i.WellFormed → pinOf i = some pin → s.channels.length ≤ pin.toNat →
    exec i s = .next { s with out := s.out ++ [reply 2 0 []] }

/-- R152: CH.CREATE opens an IDLE channel, empty and with the blocking mode of F, and answers ALREADY_OPEN otherwise. -/
def Obligations.ChCreateOpensIdleChannel : Prop :=
  ∀ (s : State) (pin : BitVec 8) (blocking : Bool),
    (∀ c, s.channels[pin.toNat]? = some c → c.state = .idle → exec (.chCreate pin blocking) s =
        .next
          { s with
            channels := s.channels.set pin.toNat { state := .opened, buf := [], blocking := blocking, pend := none }
            out := s.out ++ [reply 0 0 []] })
      ∧ (∀ c, s.channels[pin.toNat]? = some c → c.state ≠ .idle →
        exec (.chCreate pin blocking) s = .next { s with out := s.out ++ [reply 3 0 []] })
      ∧ (s.channels[pin.toNat]? = none →
        exec (.chCreate pin blocking) s = .next { s with out := s.out ++ [reply 2 0 []] })

/-- R155: the checks of CH.WRITE before the modes, on a pin where no write waits: CHANNEL_CLOSED unless the channel is OPEN, for a
LEN of 0 too, and then OK for a LEN of 0; neither changes anything. -/
def Obligations.ChWriteOnClosedChannelAndZeroLength : Prop :=
  ∀ (s : State) (pin : BitVec 8) (len : BitVec 32) (payload : List Byte) (c : Channel),
    payload.length = len.toNat → s.channels[pin.toNat]? = some c → c.pend = none →
      (c.state ≠ .opened → exec (.chWrite pin len payload) s = .next { s with out := s.out ++ [reply 5 0 []] })
        ∧ (c.state = .opened → len = 0 →
          exec (.chWrite pin len payload) s = .next { s with out := s.out ++ [reply 0 0 []] })

/-- R156: a non-blocking write enqueues every byte or none. -/
def Obligations.ChWriteNonBlockingIsAllOrNothing : Prop :=
  ∀ (s : State) (pin : BitVec 8) (len : BitVec 32) (payload : List Byte) (c : Channel),
    payload.length = len.toNat → s.channels[pin.toNat]? = some c → c.pend = none → c.state = .opened →
    c.blocking = false →
      (s.cfg.fifoCapacity - c.buf.length < len.toNat →
          exec (.chWrite pin len payload) s = .next { s with out := s.out ++ [reply 4 0 []] })
        ∧ (len.toNat ≤ s.cfg.fifoCapacity - c.buf.length →
          exec (.chWrite pin len payload) s =
            .next
              { s with
                channels := s.channels.set pin.toNat { c with buf := c.buf ++ payload }
                out := s.out ++ [reply 0 (BitVec.ofNat 64 len.toNat) []] })

/-- R160: the issue step of a blocking write: the bytes that fit are enqueued; it is answered where all fit, and waits with the
rest where not. -/
def Obligations.ChWriteBlockingEnqueuesWhatFits : Prop :=
  ∀ (s : State) (pin : BitVec 8) (len : BitVec 32) (payload : List Byte) (c : Channel),
    payload.length = len.toNat → s.channels[pin.toNat]? = some c → c.pend = none → c.state = .opened →
    c.blocking = true →
      let k := min len.toNat (s.cfg.fifoCapacity - c.buf.length)
      (k = len.toNat → exec (.chWrite pin len payload) s =
          .next
            { s with
              channels := s.channels.set pin.toNat { c with buf := c.buf ++ payload }
              out := s.out ++ [reply 0 (BitVec.ofNat 64 len.toNat) []] })
        ∧ (k < len.toNat → exec (.chWrite pin len payload) s =
          .next
            { s with
              channels := s.channels.set pin.toNat
                { c with buf := c.buf ++ payload.take k, pend := some { rest := payload.drop k, done := k } } })

/-- R165: a CH.WRITE behind a waiting one is held, and nothing else happens; only such a CH.WRITE is ever held; a CH.CREATE there is
ALREADY_OPEN at once; a held write does not run while one waits on its pin and runs as a new command once none does. When it then
runs is the scheduler's choice (notes/assumptions/6.md). -/
def Obligations.ChWriteIsHeldBehindAWaitingWrite : Prop :=
  (∀ (s : State) (pin : BitVec 8) (len : BitVec 32) (payload : List Byte) (c : Channel),
      payload.length = len.toNat → s.channels[pin.toNat]? = some c → c.pend ≠ none →
        exec (.chWrite pin len payload) s =
          .next { s with held := s.held ++ [{ pin := pin, len := len, payload := payload }] })
    ∧ (∀ (s t : State) (i : Instr), exec i s = .next t → t.held ≠ s.held →
        ∃ pin len payload, i = .chWrite pin len payload ∧ (s.channel pin).pend ≠ none)
    ∧ (∀ (s : State) (pin : BitVec 8) (blocking : Bool) (c : Channel),
        s.Inv → s.channels[pin.toNat]? = some c → c.pend ≠ none →
          exec (.chCreate pin blocking) s = .next { s with out := s.out ++ [reply 3 0 []] })
    ∧ (∀ (s : State) (k : Nat) (rest : List Event) (w : HeldWrite),
        s.inbox = .resume k :: rest → s.held[k]? = some w →
          ((s.channel w.pin).pend = none →
              step s = exec (.chWrite w.pin w.len w.payload)
                { s with inbox := rest, held := s.held.eraseIdx k })
            ∧ ((s.channel w.pin).pend ≠ none → step s = .next { s with inbox := rest }))

/-- R164 and R163 (a): the write-progress step enqueues what fits of the waiting write, completes it with OK and its whole count
when its last byte is in, and leaves it pending otherwise. -/
def Obligations.WriteProgressEnqueuesAndCompletes : Prop :=
  ∀ (s : State) (pin : BitVec 8) (rest : List Event) (c : Channel) (w : Pending),
    s.inbox = .progress pin :: rest → s.channels[pin.toNat]? = some c → c.pend = some w →
    c.buf.length < s.cfg.fifoCapacity →
      let free := s.cfg.fifoCapacity - c.buf.length
      (w.rest.length ≤ free → step s =
          .next
            { s with
              inbox := rest
              channels := s.channels.set pin.toNat { c with buf := c.buf ++ w.rest, pend := none }
              out := s.out ++ [waiterReply pin 0 (BitVec.ofNat 64 (w.done + w.rest.length))] })
        ∧ (free < w.rest.length → step s =
          .next
            { s with
              inbox := rest
              channels := s.channels.set pin.toNat
                { c with
                  buf := c.buf ++ w.rest.take free
                  pend := some { rest := w.rest.drop free, done := w.done + free } } })

/-- R166 with EndSession (R174): CH.CLOSEP releases the channel from OPEN or BROKEN, unread bytes discarded, and completes a
waiting write with CHANNEL_CLOSED and its count, in the same step. Which of the two responses is logged first is left open here
(notes/assumptions/2.md). -/
def Obligations.ChClosepReleasesChannel : Prop :=
  ∀ (s : State) (pin : BitVec 8),
    let released : Channel := { state := .idle, buf := [], blocking := false, pend := none }
    (s.channels[pin.toNat]? = none → exec (.chClosep pin) s = .next { s with out := s.out ++ [reply 2 0 []] })
      ∧ (∀ c, s.channels[pin.toNat]? = some c → c.state = .idle →
        exec (.chClosep pin) s = .next { s with out := s.out ++ [reply 5 0 []] })
      ∧ (∀ c, s.channels[pin.toNat]? = some c → c.state ≠ .idle → c.pend = none → exec (.chClosep pin) s =
        .next { s with channels := s.channels.set pin.toNat released, out := s.out ++ [reply 0 0 []] })
      ∧ (∀ c w, s.channels[pin.toNat]? = some c → c.state ≠ .idle → c.pend = some w →
        ∃ rs, rs.Perm [waiterReply pin 5 (BitVec.ofNat 64 w.done), reply 0 0 []]
          ∧ exec (.chClosep pin) s =
            .next { s with channels := s.channels.set pin.toNat released, out := s.out ++ rs })

/-- R168, R170: CH.READ returns and removes the oldest bytes, up to LEN, with their count, 0 included; CHANNEL_CLOSED unless the
channel is OPEN. -/
def Obligations.ChReadDrainsOldestBytes : Prop :=
  ∀ (s : State) (pin : BitVec 8) (len : BitVec 32),
    (s.channels[pin.toNat]? = none → exec (.chRead pin len) s = .next { s with out := s.out ++ [reply 2 0 []] })
      ∧ (∀ c, s.channels[pin.toNat]? = some c → c.state ≠ .opened →
        exec (.chRead pin len) s = .next { s with out := s.out ++ [reply 5 0 []] })
      ∧ (∀ c, s.channels[pin.toNat]? = some c → c.state = .opened → exec (.chRead pin len) s =
        .next
          { s with
            channels := s.channels.set pin.toNat { c with buf := c.buf.drop len.toNat }
            out := s.out ++ [reply 0 (BitVec.ofNat 64 (min len.toNat c.buf.length)) (c.buf.take len.toNat)] })

/-- R172 with EndSession (R174): CH.CLOSEC leaves an OPEN channel BROKEN and empty, and completes a waiting write with
CHANNEL_CLOSED and its count, in the same step. Which of the two responses is logged first is left open here
(notes/assumptions/2.md). -/
def Obligations.ChClosecBreaksChannel : Prop :=
  ∀ (s : State) (pin : BitVec 8),
    let broken (c : Channel) : Channel := { state := .broken, buf := [], blocking := c.blocking, pend := none }
    (s.channels[pin.toNat]? = none → exec (.chClosec pin) s = .next { s with out := s.out ++ [reply 2 0 []] })
      ∧ (∀ c, s.channels[pin.toNat]? = some c → c.state ≠ .opened →
        exec (.chClosec pin) s = .next { s with out := s.out ++ [reply 5 0 []] })
      ∧ (∀ c, s.channels[pin.toNat]? = some c → c.state = .opened → c.pend = none → exec (.chClosec pin) s =
        .next { s with channels := s.channels.set pin.toNat (broken c), out := s.out ++ [reply 0 0 []] })
      ∧ (∀ c w, s.channels[pin.toNat]? = some c → c.state = .opened → c.pend = some w →
        ∃ rs, rs.Perm [waiterReply pin 5 (BitVec.ofNat 64 w.done), reply 0 0 []]
          ∧ exec (.chClosec pin) s =
            .next { s with channels := s.channels.set pin.toNat (broken c), out := s.out ++ rs })

/-- R175: the status of each CH command by the state of the channel, on an in-range pin with no pending write. -/
def Obligations.StatusByChannelState : Prop :=
  ∀ (s : State) (pin : BitVec 8) (c : Channel) (blocking : Bool) (len : BitVec 32) (payload : List Byte),
    s.channels[pin.toNat]? = some c → c.pend = none → payload.length = len.toNat →
      (c.state = .idle →
          Answers (.chCreate pin blocking) s pin 0 .opened ∧ Answers (.chWrite pin len payload) s pin 5 .idle
            ∧ Answers (.chClosep pin) s pin 5 .idle ∧ Answers (.chRead pin len) s pin 5 .idle
            ∧ Answers (.chClosec pin) s pin 5 .idle)
        ∧ (c.state = .opened →
          Answers (.chCreate pin blocking) s pin 3 .opened
            ∧ (Answers (.chWrite pin len payload) s pin 0 .opened ∨ Answers (.chWrite pin len payload) s pin 4 .opened
              ∨ ∃ t w, exec (.chWrite pin len payload) s = .next t ∧ newResponses s t = []
                  ∧ t.channels[pin.toNat]?.bind Channel.pend = some w)
            ∧ Answers (.chClosep pin) s pin 0 .idle ∧ Answers (.chRead pin len) s pin 0 .opened
            ∧ Answers (.chClosec pin) s pin 0 .broken)
        ∧ (c.state = .broken →
          Answers (.chCreate pin blocking) s pin 3 .broken ∧ Answers (.chWrite pin len payload) s pin 5 .broken
            ∧ Answers (.chClosep pin) s pin 0 .idle ∧ Answers (.chRead pin len) s pin 5 .broken
            ∧ Answers (.chClosec pin) s pin 5 .broken)

/-- R178: a step other than a reset that takes the channel of a waiting write out of OPEN completes that write with CHANNEL_CLOSED
and its count in that step, and none waits after it. -/
def Obligations.LeavingOpenCompletesTheWaitingWrite : Prop :=
  ∀ (s t : State) (e : Event) (pin : BitVec 8) (w : Pending),
    s.Inv → runEvent e s = .next t → (∀ spk mic, e ≠ .reset spk mic) →
    (s.channel pin).pend = some w → (t.channel pin).state ≠ .opened →
      waiterReply pin 5 (BitVec.ofNat 64 w.done) ∈ newResponses s t ∧ (t.channel pin).pend = none

/-- R50: right after an issue step or a progress step that leaves a write pending, the buffer is full; and whenever a write is
pending and the buffer is not full, the progress step is enabled. -/
def Obligations.PendingWriteWaitsForSpaceOrProgress : Prop :=
  (∀ (s t : State) (e : Event) (pin : BitVec 8), s.Inv → runEvent e s = .next t →
      ((s.channel pin).pend = none ∨ (e = .progress pin ∧ s.progressEnabled pin = true)) →
      (t.channel pin).pend ≠ none → (t.channel pin).buf.length = t.cfg.fifoCapacity)
    ∧ (∀ (s : State) (pin : BitVec 8), s.Inv → (s.channel pin).pend ≠ none →
        (s.channel pin).buf.length = s.cfg.fifoCapacity ∨ s.progressEnabled pin = true)

/-- R224: a close and an enabled progress step that would complete the write, in both orders: the write completes OK and its
bytes are then discarded, or completes CHANNEL_CLOSED. After a close that comes first no write waits, the progress step is no longer
enabled (R164), and that its event then does nothing is the model's choice (notes/assumptions/8.md). Which of the two responses of
that close is logged first is left open here (notes/assumptions/2.md). -/
def Obligations.CloseAndProgressRaceBothWays : Prop :=
  ∀ (s : State) (pin : BitVec 8) (c : Channel) (w : Pending) (i : Instr) (after : Channel),
    s.channels[pin.toNat]? = some c → c.state = .opened → c.pend = some w →
    c.buf.length < s.cfg.fifoCapacity → w.rest.length ≤ s.cfg.fifoCapacity - c.buf.length →
    (i = .chClosep pin ∧ after = { state := .idle, buf := [], blocking := false, pend := none })
      ∨ (i = .chClosec pin ∧ after = { state := .broken, buf := [], blocking := c.blocking, pend := none }) →
      runAll [.progress pin, .command (encode i)] s =
          .next
            { s with
              channels := s.channels.set pin.toNat after
              out := s.out ++ [waiterReply pin 0 (BitVec.ofNat 64 (w.done + w.rest.length)), reply 0 0 []] }
        ∧ ∃ rs, rs.Perm [waiterReply pin 5 (BitVec.ofNat 64 w.done), reply 0 0 []]
          ∧ runAll [.command (encode i), .progress pin] s =
            .next { s with channels := s.channels.set pin.toNat after, out := s.out ++ rs }

/-- R83, R176: within a session, over any run of events, the bytes read from a pin and then those still queued there are the bytes
that were queued and then those the writes had accepted: in order, none lost, none duplicated. -/
def Obligations.FifoKeepsEveryByteInOrder : Prop :=
  ∀ (s t : State) (es : List Event) (pin : BitVec 8),
    runAll es s = .next t → liveThroughout pin es s = true →
      deliveredIn pin es s ++ t.queued pin = s.queued pin ++ acceptedIn pin es s

/-- R150, R54: a CH command changes no channel but that of its pin and nothing of SYN, the handle or ENV; the other commands change
no channel. -/
def Obligations.ChannelsOfDifferentPinsShareNoState : Prop :=
  ∀ (s t : State) (i : Instr), exec i s = .next t →
    (∀ pin, pinOf i = some pin →
        t.syn = s.syn ∧ t.handle = s.handle ∧ t.env = s.env
          ∧ ∀ q, q ≠ pin.toNat → t.channels[q]? = s.channels[q]?)
      ∧ (pinOf i = none → t.channels = s.channels)

/-! ### CQ and ENV (42_control.md) -/

/-- R191, R192: CQ.OPEN sets the handle, always OK; CQ.CLOSE clears an open one and answers INVALID_ARGUMENT otherwise. -/
def Obligations.CqOpenAndCloseTheHandle : Prop :=
  ∀ s : State,
    exec .cqOpen s = .next { s with handle := true, out := s.out ++ [reply 0 0 []] }
      ∧ (s.handle = true → exec .cqClose s = .next { s with handle := false, out := s.out ++ [reply 0 0 []] })
      ∧ (s.handle = false → exec .cqClose s = .next { s with out := s.out ++ [reply 2 0 []] })

/-- R193, R194: CQ.INFO gives the 32 bytes of the InfoRecord, field by field, or INVALID_ARGUMENT and no byte. -/
def Obligations.CqInfoGivesTheRecord : Prop :=
  ∀ (s : State) (len : BitVec 32),
    (s.handle = true → 32 ≤ len.toNat →
        ∃ bytes : List Byte,
          exec (.cqInfo len) s = .next { s with out := s.out ++ [reply 0 0 bytes] }
            ∧ bytes.length = 32
            ∧ ofLeBytes (bytes.take 4) = s.cfg.infoVersion.toNat
            ∧ ofLeBytes ((bytes.drop 4).take 4) = s.cfg.numSpeakers.toNat
            ∧ ofLeBytes ((bytes.drop 8).take 4) = s.cfg.numMics.toNat
            ∧ bytes.drop 12 = List.replicate 20 0)
      ∧ (s.handle = false ∨ len.toNat < 32 → exec (.cqInfo len) s = .next { s with out := s.out ++ [reply 2 0 []] })

/-- R195, R196: CQ.STATUS gives the 36 bytes of the StatusRecord of this step, or INVALID_ARGUMENT and no byte. -/
def Obligations.CqStatusGivesTheRecord : Prop :=
  ∀ (s : State) (len : BitVec 32),
    (s.handle = true → 36 ≤ len.toNat →
        ∃ bytes : List Byte,
          exec (.cqStatus len) s = .next { s with out := s.out ++ [reply 0 0 bytes] }
            ∧ bytes.length = 36
            ∧ bytes.take 4 = [if s.env.spk then 1 else 0, if s.env.mic then 1 else 0, 0, 0]
            ∧ ofLeBytes ((bytes.drop 4).take 4) = s.syn.actRate.toNat
            ∧ bytes.drop 8 = List.replicate 28 0)
      ∧ (s.handle = false ∨ len.toNat < 36 → exec (.cqStatus len) s = .next { s with out := s.out ++ [reply 2 0 []] })

/-- R200: CQ.MUTE writes the mute flag, always OK, whether the handle is open or an instance is active, and touches nothing
else. -/
def Obligations.CqMuteWritesTheFlag : Prop :=
  ∀ (s : State) (m : Bool),
    exec (.cqMute m) s = .next { s with syn := { s.syn with mute := m }, out := s.out ++ [reply 0 0 []] }

/-- R198: any two CQ.INFO that are answered OK give the same bytes, whatever steps come between. -/
def Obligations.InfoIsIdempotentAcrossSteps : Prop :=
  ∀ (s t u v : State) (es : List Event) (n m : BitVec 32) (a b : List Byte),
    exec (.cqInfo n) s = .next u → newResponses s u = [reply 0 0 a] →
    runAll es u = .next t →
    exec (.cqInfo m) t = .next v → newResponses t v = [reply 0 0 b] →
      a = b

/-- R210, R52: the input change writes exactly the two inputs, and no other step but a reset changes them. -/
def Obligations.OnlyTheInputChangeWritesEnv : Prop :=
  (∀ (s : State) (spk mic : Bool) (rest : List Event), s.inbox = .inputChange spk mic :: rest →
      step s = .next { s with inbox := rest, env := { spk := spk, mic := mic } })
    ∧ (∀ (s t : State) (e : Event), runEvent e s = .next t →
        (∀ spk mic, e ≠ .inputChange spk mic) → (∀ spk mic, e ≠ .reset spk mic) → t.env = s.env)

/-! ### Errors, flags and reset as rules of the whole machine -/

/-- R222: a command that is answered with an error leaves the state exactly as it was, except SYN.INIT, and its response carries the
code only. -/
def Obligations.ErrorsArePrecise : Prop :=
  ∀ (s t : State) (i : Instr) (r : Response), exec i s = .next t → i ≠ .synInit →
    newResponses s t = [r] → r.rsp ≠ 0 →
      t = { s with out := s.out ++ [r] } ∧ r.result = 0 ∧ r.payload = []

/-- R93, R221, R237, R76: every response has a code of the table in bits 7:0 and zero above, never NO_RESOURCES, and a response that
is not OK has an empty payload. -/
def Obligations.ResponsesUseTheStatusTable : Prop :=
  ∀ (s t : State), step s = .next t → ∀ r ∈ newResponses s t,
    r.rsp.toNat ≤ 9 ∧ r.rsp ≠ 8 ∧ (r.rsp ≠ 0 → r.payload = [])

/-- R54, R33, R42, R46, R48, R51: which commands write which flag. Only SYN.INIT writes `ready` and the active format, only SYN.INIT
and CQ.MUTE write `mute`, only CQ.OPEN and CQ.CLOSE the handle, only CH.CREATE, CH.CLOSEP and CH.CLOSEC the state of a channel, only
CH.CREATE and CH.CLOSEP its blocking flag, and only SYN.WREG the staging registers. -/
def Obligations.FlagsHaveTheirWritersOnly : Prop :=
  ∀ (s t : State) (i : Instr), exec i s = .next t →
    (i ≠ .synInit → t.syn.ready = s.syn.ready ∧ t.syn.actChannels = s.syn.actChannels
        ∧ t.syn.actBits = s.syn.actBits ∧ t.syn.actRate = s.syn.actRate ∧ t.syn.frame = s.syn.frame
        ∧ t.syn.ampl = s.syn.ampl ∧ t.syn.dc = s.syn.dc ∧ t.syn.inc = s.syn.inc)
      ∧ (i ≠ .synInit → (∀ m, i ≠ .cqMute m) → t.syn.mute = s.syn.mute)
      ∧ (i ≠ .cqOpen → i ≠ .cqClose → t.handle = s.handle)
      ∧ ((∀ pin b, i ≠ .chCreate pin b) → (∀ pin, i ≠ .chClosep pin) → (∀ pin, i ≠ .chClosec pin) →
        t.channels.map Channel.state = s.channels.map Channel.state)
      ∧ ((∀ pin b, i ≠ .chCreate pin b) → (∀ pin, i ≠ .chClosep pin) →
        t.channels.map Channel.blocking = s.channels.map Channel.blocking)
      ∧ ((∀ n v, i ≠ .synWreg n v) →
        t.syn.stgChannels = s.syn.stgChannels ∧ t.syn.stgBits = s.syn.stgBits ∧ t.syn.stgRate = s.syn.stgRate
          ∧ t.syn.stgFreq = s.syn.stgFreq ∧ t.syn.stgAmpl = s.syn.stgAmpl ∧ t.syn.stgDc = s.syn.stgDc
          ∧ t.syn.stgPhase = s.syn.stgPhase)

/-- R250, R251: a reset puts the block into its reset state with the draw of ENV, answers no waiting write, and marks each as
abandoned. That a held write is abandoned too is the model's choice (notes/assumptions/7.md). -/
def Obligations.ResetAbandonsWaitingWrites : Prop :=
  ∀ (s : State) (spk mic : Bool) (rest : List Event), s.inbox = .reset spk mic :: rest →
    ∃ t, step s = .next t
      ∧ t.syn = (State.resetWith s.numPins s.cfg spk mic).syn
      ∧ t.channels = (State.resetWith s.numPins s.cfg spk mic).channels
      ∧ t.handle = false ∧ t.env = { spk := spk, mic := mic } ∧ t.cfg = s.cfg
      ∧ t.out = s.out ∧ t.inbox = rest ∧ t.held = []
      ∧ (∀ (p : Nat) (w : Pending), s.channels[p]?.bind Channel.pend = some w →
          Abandoned.waiting p w.done ∈ t.abandoned)
      ∧ (∀ w ∈ s.held, Abandoned.held w ∈ t.abandoned)

/-! ### Arithmetic, the reference sine and fairness -/

/-- R13: `fl` of a sum, a product and a quotient of finite values is the exact result rounded to nearest, ties to even, and a u32 is
exact as binary64 (R119). Signs of zeros, subnormals and overflow are IEEE 754's (notes/assumptions/21.md). -/
def Obligations.ArithmeticRoundsTheExactResult : Prop :=
  (∀ x y : F64, F64.isFinite x = true → F64.isFinite y = true →
      (RoundsTo (F64.units x + F64.units y) 1 (F64.add x y)
          ∧ (F64.units x + F64.units y = 0 → F64.sign (F64.add x y) = (F64.sign x && F64.sign y)))
        ∧ (RoundsTo (F64.units x * F64.units y) F64.unitsPerOne (F64.mul x y)
          ∧ F64.sign (F64.mul x y) = (F64.sign x != F64.sign y))
        ∧ (F64.mag y ≠ 0 →
          RoundsTo (F64.units x * F64.unitsPerOne * (if F64.sign y then -1 else 1)) (F64.mag y) (F64.div x y)
            ∧ F64.sign (F64.div x y) = (F64.sign x != F64.sign y)))
    ∧ (∀ n : Nat, n < 2 ^ 32 → F64.isFinite (F64.ofNat n) = true ∧ F64.units (F64.ofNat n) = n * F64.unitsPerOne)

/-- R130: RoundHA of a finite value is the nearest integer, and of two as near the one farther from zero; an infinity stays one. The
value is `units v / 2^1074`, so the comparisons are on the exact value. -/
def Obligations.RoundHaRoundsTiesAwayFromZero : Prop :=
  ∀ v : F64,
    (F64.isFinite v = true → ∃ z : Int, F64.roundHA v = .int z
        ∧ 2 * |z * F64.unitsPerOne - F64.units v| ≤ F64.unitsPerOne
        ∧ (2 * |z * F64.unitsPerOne - F64.units v| = F64.unitsPerOne → |F64.units v| < |z| * F64.unitsPerOne))
      ∧ (F64.isInf v = true → F64.roundHA v = if F64.sign v then .negInf else .posInf)

/-- R133, R6: for a finite argument every SIN_IMPL gives a finite value in [-1, 1], and the reference one the binary64 value nearest
the real sine of the argument: none is nearer by more than 2^-300. Within that distance of the middle between two binary64 values the
choice is not established (notes/assumptions/10.md). -/
def Obligations.ReferenceSineIsNearest : Prop :=
  let value (x : F64) : ℝ := (F64.units x : ℝ) / F64.unitsPerOne
  (∀ (impl : SineImpl) (x : F64), F64.isFinite x = true →
      F64.isFinite (sinImpl impl x) = true ∧ F64.mag (sinImpl impl x) ≤ F64.unitsPerOne)
    ∧ (∀ x z : F64, F64.isFinite x = true → F64.isFinite z = true →
        |value (sinImpl .correctlyRounded x) - Real.sin (value x)| ≤ |value z - Real.sin (value x)| + 1 / 2 ^ 300)

/-- R164 and R263: in a weakly fair run without a reset, a write that waits on a pin whose consumer keeps reading completes: it waits up
to some step, and that step ends the wait and gives the waiting agent its response, OK with the whole count where the last byte went
in, or CHANNEL_CLOSED with the count so far where a close came first (R163). -/
def Obligations.WaitingWriteCompletesInFairRuns : Prop :=
  ∀ (st : Nat → State) (ev : Nat → Event) (pin : BitVec 8) (n : Nat) (w : Pending),
    IsRun st ev → WeaklyFair st ev → KeepsReading pin ev → (st 0).Inv → (∀ m spk mic, ev m ≠ .reset spk mic) →
    ((st n).channel pin).pend = some w →
      ∃ m, n ≤ m ∧ (∀ k, n ≤ k → k ≤ m → ((st k).channel pin).pend ≠ none) ∧ ((st (m + 1)).channel pin).pend = none
        ∧ (waiterReply pin 0 (BitVec.ofNat 64 (w.done + w.rest.length)) ∈ newResponses (st m) (st (m + 1))
          ∨ ∃ d, w.done ≤ d ∧ d < w.done + w.rest.length
            ∧ waiterReply pin 5 (BitVec.ofNat 64 d) ∈ newResponses (st m) (st (m + 1)))
end

