-- ==== Sys2Proof/Laws/Decode.lean ====
section
/-! SUPPORT. Laws/Decode.lean: the fields of a command word, the table of opcodes, and the little-endian bytes. -/

namespace Sys2Proof

/-! ### The command word -/

/-- The bits of a command word. -/
theorem getLsbD_commandWord (op : Opcode) (sel : BitVec 8) (flag : Bool) (i : Nat) :
    (commandWord op sel flag).getLsbD i =
      if i < 8 then op.code.getLsbD i
      else if i < 16 then sel.getLsbD (i - 8)
      else decide (i = 16) && flag := by
  have h : (commandWord op sel flag).getLsbD i =
      BitVec.getLsbD (((0 : BitVec 15) ++ BitVec.ofBool flag) ++ sel ++ op.code) i := rfl
  rw [h, BitVec.getLsbD_append, BitVec.getLsbD_append, BitVec.getLsbD_append]
  by_cases h8 : i < 8
  · simp [h8]
  by_cases h16 : i < 16
  · have : i - 8 < 8 := by omega
    simp [h8, h16, this]
  by_cases h17 : i = 16
  · subst h17
    simp
  · have h1 : ¬ i - 8 < 8 := by omega
    have h2 : ¬ i - 8 - 8 < 1 := by omega
    simp [h8, h16, h17, h1, h2]

theorem opcField_commandWord (op : Opcode) (sel : BitVec 8) (flag : Bool) :
    opcField (commandWord op sel flag) = op.code := by
  apply BitVec.eq_of_getLsbD_eq
  intro i hi
  simp [opcField, getLsbD_commandWord, hi]

theorem selField_commandWord (op : Opcode) (sel : BitVec 8) (flag : Bool) :
    selField (commandWord op sel flag) = sel := by
  apply BitVec.eq_of_getLsbD_eq
  intro i hi
  have h : 8 + i < 16 := by omega
  simp [selField, getLsbD_commandWord, hi, h]

theorem flagField_commandWord (op : Opcode) (sel : BitVec 8) (flag : Bool) :
    flagField (commandWord op sel flag) = flag := by
  rw [flagField, getLsbD_commandWord]
  simp

theorem rsvField_commandWord (op : Opcode) (sel : BitVec 8) (flag : Bool) :
    rsvField (commandWord op sel flag) = 0 := by
  apply BitVec.eq_of_getLsbD_eq
  intro i hi
  have h1 : ¬ 17 + i < 8 := by omega
  have h2 : ¬ 17 + i < 16 := by omega
  have h3 : ¬ 17 + i = 16 := by omega
  simp [rsvField, BitVec.getLsbD_extractLsb', getLsbD_commandWord, h1, h2, h3]

/-- A command word is its four fields: with RSV zero it is the word of its OPC, SEL and F. -/
theorem commandWord_of_fields {cw : BitVec 32} {op : Opcode} (hop : opcField cw = op.code) (hrsv : rsvField cw = 0) :
    commandWord op (selField cw) (flagField cw) = cw := by
  apply BitVec.eq_of_getLsbD_eq
  intro i hi
  have ho : ∀ j, op.code.getLsbD j = (decide (j < 8) && cw.getLsbD j) := by
    intro j
    rw [← hop]
    simp [opcField, BitVec.getLsbD_extractLsb']
  have hr : ∀ j, j < 15 → cw.getLsbD (17 + j) = false := by
    intro j hj
    have := congrArg (fun v : BitVec 15 => v.getLsbD j) hrsv
    simpa [rsvField, BitVec.getLsbD_extractLsb', hj] using this
  rw [getLsbD_commandWord, ho]
  simp only [selField, flagField, BitVec.getLsbD_extractLsb']
  by_cases h8 : i < 8
  · simp [h8]
  by_cases h16 : i < 16
  · have h1 : i - 8 < 8 := by omega
    have h2 : 8 + (i - 8) = i := by omega
    simp [h8, h16, h1, h2]
  by_cases h17 : i = 16
  · subst h17
    simp
  · have := hr (i - 17) (by omega)
    rw [show 17 + (i - 17) = i by omega] at this
    simp [h8, h16, h17, this]

/-! ### The table of opcodes -/

theorem Opcode.mem_all (op : Opcode) : op ∈ Opcode.all := by
  cases op <;> decide

theorem Opcode.code_injective {a b : Opcode} (h : a.code = b.code) : a = b := by
  cases a <;> cases b <;> first | rfl | exact absurd h (by decide)

theorem Opcode.ofCode?_code (op : Opcode) : Opcode.ofCode? op.code = some op := by
  cases op <;> decide

/-- What `Opcode.ofCode?` answers: an opcode has the code looked up. -/
theorem Opcode.code_of_ofCode? {c : BitVec 8} {op : Opcode} (h : Opcode.ofCode? c = some op) : op.code = c := by
  have := List.find?_some h
  simpa using this

/-- A code that no opcode has is reserved. -/
theorem Opcode.ofCode?_eq_none {c : BitVec 8} : Opcode.ofCode? c = none ↔ ∀ op : Opcode, op.code ≠ c := by
  simp only [Opcode.ofCode?, List.find?_eq_none, beq_iff_eq]
  exact ⟨fun h op => h op op.mem_all, fun h op _ => h op⟩

/-! ### The shapes -/

theorem shapeNone_eq_some {i j : Instr} {t : Transaction} :
    shapeNone i t = some j ↔ t.operands = [] ∧ t.payload = [] ∧ j = i := by
  unfold shapeNone
  split <;> simp_all [eq_comm]

theorem shapeLen_eq_some {k : BitVec 32 → Instr} {j : Instr} {t : Transaction} :
    shapeLen k t = some j ↔ ∃ n, t.operands = [.u32 n] ∧ t.payload = [] ∧ j = k n := by
  unfold shapeLen
  split
  · rename_i n ho hp
    simp [ho, hp, eq_comm]
  · rename_i h
    simp only [reduceCtorEq, false_iff, not_exists, not_and]
    intro n ho hp
    exact absurd hp (h n ho)

theorem shapeVal_eq_some {k : BitVec 64 → Instr} {j : Instr} {t : Transaction} :
    shapeVal k t = some j ↔ ∃ v, t.operands = [.u64 v] ∧ t.payload = [] ∧ j = k v := by
  unfold shapeVal
  split
  · rename_i n ho hp
    simp [ho, hp, eq_comm]
  · rename_i h
    simp only [reduceCtorEq, false_iff, not_exists, not_and]
    intro n ho hp
    exact absurd hp (h n ho)

theorem shapeLenPayload_eq_some {k : BitVec 32 → List Byte → Instr} {j : Instr} {t : Transaction} :
    shapeLenPayload k t = some j ↔
      ∃ n, t.operands = [.u32 n] ∧ t.payload.length = n.toNat ∧ j = k n t.payload := by
  unfold shapeLenPayload
  split
  · rename_i n ho
    simp [ho, eq_comm]
  · rename_i h
    simp only [reduceCtorEq, false_iff, not_exists, not_and]
    intro n ho
    exact absurd ho (h n)

/-! ### Checks and decoding -/

/-- When the checks of R97 let a command pass. -/
theorem checkFields_eq_command {op : Opcode} {t : Transaction} {i j : Instr} :
    checkFields op t i = .command j ↔
      j = i ∧ t.iface = op.iface ∧ rsvField t.cw = 0 ∧ (op.usesSel = false → selField t.cw = 0)
        ∧ (op.usesFlag = false → flagField t.cw = false) := by
  unfold checkFields
  split_ifs with h1 h2 h3 h4
  · exact iff_of_false (by simp) fun h => h1 h.2.1
  · exact iff_of_false (by simp) fun h => h2 h.2.2.1
  · exact iff_of_false (by simp) fun h => h3.2 (h.2.2.2.1 h3.1)
  · exact iff_of_false (by simp) fun h => by simp [h.2.2.2.2 h4.1] at h4
  · constructor
    · intro h
      refine ⟨(Decoded.command.inj h).symm, not_not.mp h1, not_not.mp h2, fun h => ?_, fun h => ?_⟩
      · exact not_not.mp fun hn => h3 ⟨by assumption, hn⟩
      · exact Bool.eq_false_iff.mpr fun hn => h4 ⟨by assumption, hn⟩
    · rintro ⟨rfl, -⟩
      rfl

/-- Decoding gives a command exactly where the opcode is of the table, the shape is right and the checks pass. -/
theorem decode_eq_command {t : Transaction} {j : Instr} :
    decode t = .command j ↔
      ∃ op i, Opcode.ofCode? (opcField t.cw) = some op ∧ op.read t = some i ∧ checkFields op t i = .command j := by
  unfold decode
  split
  · simp_all
  · rename_i op hop
    split
    · rename_i hr
      simp only [reduceCtorEq, false_iff, not_exists, not_and]
      intro op' i ho hr'
      rw [hop] at ho
      obtain rfl := Option.some.inj ho
      rw [hr] at hr'
      cases hr'
    · rename_i i hr
      constructor
      · exact fun h => ⟨op, i, hop, hr, h⟩
      · rintro ⟨op', i', ho, hr', h⟩
        rw [hop] at ho
        obtain rfl := Option.some.inj ho
        rw [hr] at hr'
        obtain rfl := Option.some.inj hr'
        exact h

/-! ### Little-endian bytes -/

@[simp] theorem length_leBytes (n v : Nat) : (leBytes n v).length = n := by
  induction n generalizing v with
  | zero => rfl
  | succ n ih => simp [leBytes, ih]

/-- Reading the `n` bytes of a number back gives it modulo 2^(8n). -/
theorem ofLeBytes_leBytes (n v : Nat) : ofLeBytes (leBytes n v) = v % 256 ^ n := by
  induction n generalizing v with
  | zero => simp [leBytes, ofLeBytes, Nat.mod_one]
  | succ n ih =>
    rw [leBytes, ofLeBytes, ih, BitVec.toNat_ofNat, show 256 ^ (n + 1) = 256 * 256 ^ n from Nat.pow_succ', Nat.mod_mul]

theorem ofLeBytes_leBytes_of_lt {n v : Nat} (h : v < 256 ^ n) : ofLeBytes (leBytes n v) = v := by
  rw [ofLeBytes_leBytes, Nat.mod_eq_of_lt h]

end Sys2Proof
end

