-- ==== Sys2Proof/Laws/State.lean ====
section
/-! SUPPORT. Laws/State.lean: what each update leaves in each field, true by rfl, so that no proof unfolds a record update. -/

namespace Sys2Proof.Machine

/-! ### A response -/

@[simp] theorem State.answer_cfg (s : State) (who : Recipient) (st : Status) (r : BitVec 64) (p : List Byte) :
    (s.answer who st r p).cfg = s.cfg := rfl
@[simp] theorem State.answer_syn (s : State) (who : Recipient) (st : Status) (r : BitVec 64) (p : List Byte) :
    (s.answer who st r p).syn = s.syn := rfl
@[simp] theorem State.answer_channels (s : State) (who : Recipient) (st : Status) (r : BitVec 64) (p : List Byte) :
    (s.answer who st r p).channels = s.channels := rfl
@[simp] theorem State.answer_handle (s : State) (who : Recipient) (st : Status) (r : BitVec 64) (p : List Byte) :
    (s.answer who st r p).handle = s.handle := rfl
@[simp] theorem State.answer_env (s : State) (who : Recipient) (st : Status) (r : BitVec 64) (p : List Byte) :
    (s.answer who st r p).env = s.env := rfl
@[simp] theorem State.answer_inbox (s : State) (who : Recipient) (st : Status) (r : BitVec 64) (p : List Byte) :
    (s.answer who st r p).inbox = s.inbox := rfl
@[simp] theorem State.answer_held (s : State) (who : Recipient) (st : Status) (r : BitVec 64) (p : List Byte) :
    (s.answer who st r p).held = s.held := rfl
@[simp] theorem State.answer_out (s : State) (who : Recipient) (st : Status) (r : BitVec 64) (p : List Byte) :
    (s.answer who st r p).out = s.out ++ [{ recipient := who, rsp := st.rsp, result := r, payload := p }] := rfl
@[simp] theorem State.answer_abandoned (s : State) (who : Recipient) (st : Status) (r : BitVec 64) (p : List Byte) :
    (s.answer who st r p).abandoned = s.abandoned := rfl

/-! ### A channel written -/

@[simp] theorem State.setChannel_cfg (s : State) (pin : BitVec 8) (c : Channel) :
    (s.setChannel pin c).cfg = s.cfg := rfl
@[simp] theorem State.setChannel_syn (s : State) (pin : BitVec 8) (c : Channel) :
    (s.setChannel pin c).syn = s.syn := rfl
@[simp] theorem State.setChannel_channels (s : State) (pin : BitVec 8) (c : Channel) :
    (s.setChannel pin c).channels = s.channels.set pin.toNat c := rfl
@[simp] theorem State.setChannel_handle (s : State) (pin : BitVec 8) (c : Channel) :
    (s.setChannel pin c).handle = s.handle := rfl
@[simp] theorem State.setChannel_env (s : State) (pin : BitVec 8) (c : Channel) :
    (s.setChannel pin c).env = s.env := rfl
@[simp] theorem State.setChannel_inbox (s : State) (pin : BitVec 8) (c : Channel) :
    (s.setChannel pin c).inbox = s.inbox := rfl
@[simp] theorem State.setChannel_held (s : State) (pin : BitVec 8) (c : Channel) :
    (s.setChannel pin c).held = s.held := rfl
@[simp] theorem State.setChannel_out (s : State) (pin : BitVec 8) (c : Channel) :
    (s.setChannel pin c).out = s.out := rfl
@[simp] theorem State.setChannel_abandoned (s : State) (pin : BitVec 8) (c : Channel) :
    (s.setChannel pin c).abandoned = s.abandoned := rfl

@[simp] theorem State.answer_numPins (s : State) (who : Recipient) (st : Status) (r : BitVec 64) (p : List Byte) :
    (s.answer who st r p).numPins = s.numPins := rfl
@[simp] theorem State.setChannel_numPins (s : State) (pin : BitVec 8) (c : Channel) :
    (s.setChannel pin c).numPins = s.numPins := by simp [State.numPins]
@[simp] theorem State.answer_channel (s : State) (who : Recipient) (st : Status) (r : BitVec 64) (p : List Byte)
    (pin : BitVec 8) : (s.answer who st r p).channel pin = s.channel pin := rfl

/-! ### Reset -/

@[simp] theorem State.resetWith_cfg (n : Nat) (cfg : Config) (spk mic : Bool) :
    (State.resetWith n cfg spk mic).cfg = cfg := rfl
@[simp] theorem State.resetWith_syn (n : Nat) (cfg : Config) (spk mic : Bool) :
    (State.resetWith n cfg spk mic).syn = Syn.reset := rfl
@[simp] theorem State.resetWith_channels (n : Nat) (cfg : Config) (spk mic : Bool) :
    (State.resetWith n cfg spk mic).channels = List.replicate n Channel.reset := rfl
@[simp] theorem State.resetWith_handle (n : Nat) (cfg : Config) (spk mic : Bool) :
    (State.resetWith n cfg spk mic).handle = false := rfl
@[simp] theorem State.resetWith_env (n : Nat) (cfg : Config) (spk mic : Bool) :
    (State.resetWith n cfg spk mic).env = { spk := spk, mic := mic } := rfl
@[simp] theorem State.resetWith_inbox (n : Nat) (cfg : Config) (spk mic : Bool) :
    (State.resetWith n cfg spk mic).inbox = [] := rfl
@[simp] theorem State.resetWith_held (n : Nat) (cfg : Config) (spk mic : Bool) :
    (State.resetWith n cfg spk mic).held = [] := rfl
@[simp] theorem State.resetWith_out (n : Nat) (cfg : Config) (spk mic : Bool) :
    (State.resetWith n cfg spk mic).out = [] := rfl
@[simp] theorem State.resetWith_abandoned (n : Nat) (cfg : Config) (spk mic : Bool) :
    (State.resetWith n cfg spk mic).abandoned = [] := rfl

/-! ### The mute flag -/

@[simp] theorem Syn.setMute_ready (m : Bool) (y : Syn) :
    (y.setMute m).ready = y.ready := rfl
@[simp] theorem Syn.setMute_mute (m : Bool) (y : Syn) :
    (y.setMute m).mute = m := rfl
@[simp] theorem Syn.setMute_stgChannels (m : Bool) (y : Syn) :
    (y.setMute m).stgChannels = y.stgChannels := rfl
@[simp] theorem Syn.setMute_stgBits (m : Bool) (y : Syn) :
    (y.setMute m).stgBits = y.stgBits := rfl
@[simp] theorem Syn.setMute_stgRate (m : Bool) (y : Syn) :
    (y.setMute m).stgRate = y.stgRate := rfl
@[simp] theorem Syn.setMute_stgFreq (m : Bool) (y : Syn) :
    (y.setMute m).stgFreq = y.stgFreq := rfl
@[simp] theorem Syn.setMute_stgAmpl (m : Bool) (y : Syn) :
    (y.setMute m).stgAmpl = y.stgAmpl := rfl
@[simp] theorem Syn.setMute_stgDc (m : Bool) (y : Syn) :
    (y.setMute m).stgDc = y.stgDc := rfl
@[simp] theorem Syn.setMute_stgPhase (m : Bool) (y : Syn) :
    (y.setMute m).stgPhase = y.stgPhase := rfl
@[simp] theorem Syn.setMute_actChannels (m : Bool) (y : Syn) :
    (y.setMute m).actChannels = y.actChannels := rfl
@[simp] theorem Syn.setMute_actBits (m : Bool) (y : Syn) :
    (y.setMute m).actBits = y.actBits := rfl
@[simp] theorem Syn.setMute_actRate (m : Bool) (y : Syn) :
    (y.setMute m).actRate = y.actRate := rfl
@[simp] theorem Syn.setMute_frame (m : Bool) (y : Syn) :
    (y.setMute m).frame = y.frame := rfl
@[simp] theorem Syn.setMute_ampl (m : Bool) (y : Syn) :
    (y.setMute m).ampl = y.ampl := rfl
@[simp] theorem Syn.setMute_dc (m : Bool) (y : Syn) :
    (y.setMute m).dc = y.dc := rfl
@[simp] theorem Syn.setMute_theta (m : Bool) (y : Syn) :
    (y.setMute m).theta = y.theta := rfl
@[simp] theorem Syn.setMute_inc (m : Bool) (y : Syn) :
    (y.setMute m).inc = y.inc := rfl
@[simp] theorem Syn.setMute_carry (m : Bool) (y : Syn) :
    (y.setMute m).carry = y.carry := rfl

/-! ### A failed SYN.INIT -/

@[simp] theorem Syn.failInit_ready (y : Syn) :
    (y.failInit).ready = false := rfl
@[simp] theorem Syn.failInit_mute (y : Syn) :
    (y.failInit).mute = false := rfl
@[simp] theorem Syn.failInit_stgChannels (y : Syn) :
    (y.failInit).stgChannels = y.stgChannels := rfl
@[simp] theorem Syn.failInit_stgBits (y : Syn) :
    (y.failInit).stgBits = y.stgBits := rfl
@[simp] theorem Syn.failInit_stgRate (y : Syn) :
    (y.failInit).stgRate = y.stgRate := rfl
@[simp] theorem Syn.failInit_stgFreq (y : Syn) :
    (y.failInit).stgFreq = y.stgFreq := rfl
@[simp] theorem Syn.failInit_stgAmpl (y : Syn) :
    (y.failInit).stgAmpl = y.stgAmpl := rfl
@[simp] theorem Syn.failInit_stgDc (y : Syn) :
    (y.failInit).stgDc = y.stgDc := rfl
@[simp] theorem Syn.failInit_stgPhase (y : Syn) :
    (y.failInit).stgPhase = y.stgPhase := rfl
@[simp] theorem Syn.failInit_actChannels (y : Syn) :
    (y.failInit).actChannels = 0 := rfl
@[simp] theorem Syn.failInit_actBits (y : Syn) :
    (y.failInit).actBits = 0 := rfl
@[simp] theorem Syn.failInit_actRate (y : Syn) :
    (y.failInit).actRate = 0 := rfl
@[simp] theorem Syn.failInit_frame (y : Syn) :
    (y.failInit).frame = 0 := rfl
@[simp] theorem Syn.failInit_ampl (y : Syn) :
    (y.failInit).ampl = 0 := rfl
@[simp] theorem Syn.failInit_dc (y : Syn) :
    (y.failInit).dc = 0 := rfl
@[simp] theorem Syn.failInit_theta (y : Syn) :
    (y.failInit).theta = 0 := rfl
@[simp] theorem Syn.failInit_inc (y : Syn) :
    (y.failInit).inc = 0 := rfl
@[simp] theorem Syn.failInit_carry (y : Syn) :
    (y.failInit).carry = [] := rfl

/-! ### A successful SYN.INIT -/

@[simp] theorem Syn.startInstance_ready (inc : F64) (y : Syn) :
    (y.startInstance inc).ready = true := rfl
@[simp] theorem Syn.startInstance_mute (inc : F64) (y : Syn) :
    (y.startInstance inc).mute = false := rfl
@[simp] theorem Syn.startInstance_stgChannels (inc : F64) (y : Syn) :
    (y.startInstance inc).stgChannels = y.stgChannels := rfl
@[simp] theorem Syn.startInstance_stgBits (inc : F64) (y : Syn) :
    (y.startInstance inc).stgBits = y.stgBits := rfl
@[simp] theorem Syn.startInstance_stgRate (inc : F64) (y : Syn) :
    (y.startInstance inc).stgRate = y.stgRate := rfl
@[simp] theorem Syn.startInstance_stgFreq (inc : F64) (y : Syn) :
    (y.startInstance inc).stgFreq = y.stgFreq := rfl
@[simp] theorem Syn.startInstance_stgAmpl (inc : F64) (y : Syn) :
    (y.startInstance inc).stgAmpl = y.stgAmpl := rfl
@[simp] theorem Syn.startInstance_stgDc (inc : F64) (y : Syn) :
    (y.startInstance inc).stgDc = y.stgDc := rfl
@[simp] theorem Syn.startInstance_stgPhase (inc : F64) (y : Syn) :
    (y.startInstance inc).stgPhase = y.stgPhase := rfl
@[simp] theorem Syn.startInstance_actChannels (inc : F64) (y : Syn) :
    (y.startInstance inc).actChannels = y.stgChannels := rfl
@[simp] theorem Syn.startInstance_actBits (inc : F64) (y : Syn) :
    (y.startInstance inc).actBits = y.stgBits := rfl
@[simp] theorem Syn.startInstance_actRate (inc : F64) (y : Syn) :
    (y.startInstance inc).actRate = y.stgRate := rfl
@[simp] theorem Syn.startInstance_frame (inc : F64) (y : Syn) :
    (y.startInstance inc).frame = BitVec.ofNat 32 (y.stgChannels.toNat * (y.stgBits.toNat / 8)) := rfl
@[simp] theorem Syn.startInstance_ampl (inc : F64) (y : Syn) :
    (y.startInstance inc).ampl = y.stgAmpl := rfl
@[simp] theorem Syn.startInstance_dc (inc : F64) (y : Syn) :
    (y.startInstance inc).dc = y.stgDc := rfl
@[simp] theorem Syn.startInstance_theta (inc : F64) (y : Syn) :
    (y.startInstance inc).theta = F64.wrap y.stgPhase := rfl
@[simp] theorem Syn.startInstance_inc (inc : F64) (y : Syn) :
    (y.startInstance inc).inc = inc := rfl
@[simp] theorem Syn.startInstance_carry (inc : F64) (y : Syn) :
    (y.startInstance inc).carry = [] := rfl

/-! ### One frame computed -/

@[simp] theorem Syn.advance_ready (y : Syn) :
    (y.advance).ready = y.ready := rfl
@[simp] theorem Syn.advance_mute (y : Syn) :
    (y.advance).mute = y.mute := rfl
@[simp] theorem Syn.advance_stgChannels (y : Syn) :
    (y.advance).stgChannels = y.stgChannels := rfl
@[simp] theorem Syn.advance_stgBits (y : Syn) :
    (y.advance).stgBits = y.stgBits := rfl
@[simp] theorem Syn.advance_stgRate (y : Syn) :
    (y.advance).stgRate = y.stgRate := rfl
@[simp] theorem Syn.advance_stgFreq (y : Syn) :
    (y.advance).stgFreq = y.stgFreq := rfl
@[simp] theorem Syn.advance_stgAmpl (y : Syn) :
    (y.advance).stgAmpl = y.stgAmpl := rfl
@[simp] theorem Syn.advance_stgDc (y : Syn) :
    (y.advance).stgDc = y.stgDc := rfl
@[simp] theorem Syn.advance_stgPhase (y : Syn) :
    (y.advance).stgPhase = y.stgPhase := rfl
@[simp] theorem Syn.advance_actChannels (y : Syn) :
    (y.advance).actChannels = y.actChannels := rfl
@[simp] theorem Syn.advance_actBits (y : Syn) :
    (y.advance).actBits = y.actBits := rfl
@[simp] theorem Syn.advance_actRate (y : Syn) :
    (y.advance).actRate = y.actRate := rfl
@[simp] theorem Syn.advance_frame (y : Syn) :
    (y.advance).frame = y.frame := rfl
@[simp] theorem Syn.advance_ampl (y : Syn) :
    (y.advance).ampl = y.ampl := rfl
@[simp] theorem Syn.advance_dc (y : Syn) :
    (y.advance).dc = y.dc := rfl
@[simp] theorem Syn.advance_theta (y : Syn) :
    (y.advance).theta = F64.wrap (F64.add y.theta y.inc) := rfl
@[simp] theorem Syn.advance_inc (y : Syn) :
    (y.advance).inc = y.inc := rfl
@[simp] theorem Syn.advance_carry (y : Syn) :
    (y.advance).carry = y.carry := rfl

end Sys2Proof.Machine
end

