-- ==== Sys2Proof/Laws/Ops.lean ====
section
/-! SUPPORT. Laws/Ops.lean: for each shared operation what it can answer, said once. -/

namespace Sys2Proof.Machine

/-! ### Responses -/

/-- What `respond` answers: always a next state, the given one with one response more. -/
theorem respond_eq_next {st : Status} {r : BitVec 64} {p : List Byte} {s t : State} :
    respond st r p s = .next t ↔ t = s.answer .issuer st r p := by
  simp [respond, eq_comm]

/-- What `raise` answers: the given state with an empty response of the code. -/
theorem raise_eq_next {st : Status} {s t : State} :
    raise st s = .next t ↔ t = s.answer .issuer st 0 [] := by
  simp [raise, respond_eq_next]

/-- What `hold` answers: the given state with one held write more. -/
theorem hold_eq_next {w : HeldWrite} {s t : State} :
    hold w s = .next t ↔ t = { s with held := s.held ++ [w] } := by
  simp [hold, eq_comm]

/-! ### Channels -/

theorem State.channel_of_getElem? {s : State} {pin : BitVec 8} {c : Channel} (h : s.channels[pin.toNat]? = some c) :
    s.channel pin = c := by
  simp [State.channel, h]

theorem State.channel_of_numPins_le {s : State} {pin : BitVec 8} (h : s.numPins ≤ pin.toNat) :
    s.channel pin = Channel.reset := by
  unfold State.numPins at h
  simp [State.channel, List.getElem?_eq_none h]

theorem State.getElem?_channel {s : State} {pin : BitVec 8} (h : pin.toNat < s.numPins) :
    s.channels[pin.toNat]? = some (s.channel pin) := by
  unfold State.numPins at h
  simp [State.channel, h]

/-- A channel that is not as after reset is one of the channels there are. -/
theorem State.channel_mem {s : State} {pin : BitVec 8} (h : s.channel pin ≠ Channel.reset) :
    pin.toNat < s.numPins ∧ s.channel pin ∈ s.channels := by
  have hp : pin.toNat < s.numPins := by
    by_contra hn
    exact h (State.channel_of_numPins_le (not_lt.mp hn))
  exact ⟨hp, List.mem_of_getElem? (State.getElem?_channel hp)⟩

/-- Reading back the channel written. -/
@[simp] theorem State.channel_setChannel_same {s : State} {pin : BitVec 8} {c : Channel} (h : pin.toNat < s.numPins) :
    (s.setChannel pin c).channel pin = c := by
  unfold State.numPins at h
  simp [State.channel, State.setChannel, h]

/-- A write leaves every other channel alone. -/
theorem State.channel_setChannel_ne {s : State} {pin q : BitVec 8} {c : Channel} (h : q ≠ pin) :
    (s.setChannel pin c).channel q = s.channel q := by
  have : pin.toNat ≠ q.toNat := fun e => h (BitVec.eq_of_toNat_eq e.symm)
  simp [State.channel, State.setChannel, List.getElem?_set_ne this]

/-- The pin check on a pin that exists. -/
theorem withPin_of_lt {pin : BitVec 8} {s : State} {k : Channel → Result} (h : pin.toNat < s.numPins) :
    withPin pin s k = k (s.channel pin) := by
  simp [withPin, h]

/-- The pin check on a pin that does not exist. -/
theorem withPin_of_le {pin : BitVec 8} {s : State} {k : Channel → Result} (h : s.numPins ≤ pin.toNat) :
    withPin pin s k = raise .invalidArgument s := by
  simp [withPin, h]

/-- The pin check, by the channel found. -/
theorem withPin_of_getElem? {pin : BitVec 8} {s : State} {k : Channel → Result} {c : Channel}
    (h : s.channels[pin.toNat]? = some c) : withPin pin s k = k c := by
  have hp : pin.toNat < s.numPins := (List.getElem?_eq_some_iff.mp h).1
  rw [withPin_of_lt hp, State.channel_of_getElem? h]

/-- What `withPin` answers: INVALID_ARGUMENT on a pin that does not exist, and what follows on the channel of one that does. -/
theorem withPin_eq_next {pin : BitVec 8} {s t : State} {k : Channel → Result} (h : withPin pin s k = .next t) :
    (s.numPins ≤ pin.toNat ∧ t = s.answer .issuer .invalidArgument 0 [])
      ∨ (pin.toNat < s.numPins ∧ k (s.channel pin) = .next t) := by
  by_cases hp : s.numPins ≤ pin.toNat
  · rw [withPin_of_le hp, raise_eq_next] at h
    exact .inl ⟨hp, h⟩
  · rw [withPin_of_lt (not_le.mp hp)] at h
    exact .inr ⟨not_le.mp hp, h⟩

/-! ### The end of a session -/

theorem endSession_of_none {pin : BitVec 8} {s : State} (h : (s.channel pin).pend = none) :
    endSession pin s = s.setChannel pin { s.channel pin with buf := [], pend := none } := by
  simp [endSession, h]

theorem endSession_of_some {pin : BitVec 8} {s : State} {w : Pending} (h : (s.channel pin).pend = some w) :
    endSession pin s =
      (s.setChannel pin { s.channel pin with buf := [], pend := none }).answer (.waiter pin) .channelClosed
        (BitVec.ofNat 64 w.done) [] := by
  simp [endSession, h]

/-- What the end of a session leaves: the channel emptied with no write waiting, everything else of the block as it was, and the
response of the write that waited. -/
theorem endSession_spec (pin : BitVec 8) (s : State) :
    ∃ rs, endSession pin s =
        { s with
          channels := s.channels.set pin.toNat { s.channel pin with buf := [], pend := none }
          out := s.out ++ rs }
      ∧ rs = ((s.channel pin).pend.map fun w =>
          { recipient := .waiter pin, rsp := Status.channelClosed.rsp, result := BitVec.ofNat 64 w.done, payload := [] }).toList := by
  cases h : (s.channel pin).pend with
  | none => exact ⟨[], by rw [endSession_of_none h]; simp [State.setChannel], rfl⟩
  | some w => exact ⟨_, by rw [endSession_of_some h]; rfl, rfl⟩

/-! ### Writes -/

/-- What a non-blocking write answers (41_channel.md R156). -/
theorem nonBlockingWrite_eq_next {pin : BitVec 8} {bytes : List Byte} {c : Channel} {s t : State}
    (h : nonBlockingWrite pin bytes c s = .next t) :
    (s.free c < bytes.length ∧ t = s.answer .issuer .wouldBlock 0 [])
      ∨ (bytes.length ≤ s.free c
        ∧ t = (s.setChannel pin { c with buf := c.buf ++ bytes }).answer .issuer .ok (BitVec.ofNat 64 bytes.length) []) := by
  unfold nonBlockingWrite at h
  split at h
  · exact .inl ⟨‹_›, raise_eq_next.mp h⟩
  · exact .inr ⟨not_lt.mp ‹_›, respond_eq_next.mp h⟩

/-- What the issue step of a blocking write answers (R160): everything fits, or the buffer is filled and the rest waits. -/
theorem blockingWrite_eq_next {pin : BitVec 8} {bytes : List Byte} {c : Channel} {s t : State}
    (h : blockingWrite pin bytes c s = .next t) :
    (bytes.length ≤ s.free c
        ∧ t = (s.setChannel pin { c with buf := c.buf ++ bytes }).answer .issuer .ok (BitVec.ofNat 64 bytes.length) [])
      ∨ (s.free c < bytes.length
        ∧ t = s.setChannel pin
          { c with
            buf := c.buf ++ bytes.take (s.free c)
            pend := some { rest := bytes.drop (s.free c), done := s.free c } }) := by
  unfold blockingWrite at h
  by_cases hk : bytes.length ≤ s.free c
  · rw [min_eq_left hk] at h
    simp only [List.take_length, if_true] at h
    exact .inl ⟨hk, respond_eq_next.mp h⟩
  · rw [min_eq_right (not_le.mp hk).le] at h
    simp only [(not_le.mp hk).ne, if_false] at h
    exact .inr ⟨not_le.mp hk, (Host.Outcome.next.inj h).symm⟩

/-! ### Queries -/

/-- What a query answers (42_control.md R197): the whole record or nothing. -/
theorem query_eq_next {record : List Byte} {len : BitVec 32} {s t : State} (h : query record len s = .next t) :
    ((s.handle = false ∨ len.toNat < record.length) ∧ t = s.answer .issuer .invalidArgument 0 [])
      ∨ (s.handle = true ∧ record.length ≤ len.toNat ∧ t = s.answer .issuer .ok 0 record) := by
  unfold query at h
  split at h
  · exact .inl ⟨.inl ‹_›, raise_eq_next.mp h⟩
  split at h
  · exact .inl ⟨.inr ‹_›, raise_eq_next.mp h⟩
  · exact .inr ⟨by simpa using ‹¬ s.handle = false›, not_lt.mp ‹_›, respond_eq_next.mp h⟩

/-! ### The write-progress step -/

/-- What the write-progress step answers (41_channel.md R164): nothing where it is not enabled; otherwise the last bytes of the
waiting write go in and it completes, or the buffer is filled and it waits on. -/
theorem runProgress_eq_next {pin : BitVec 8} {s t : State} (h : runProgress pin s = .next t) :
    (s.progressEnabled pin = false ∧ t = s)
      ∨ ∃ w, s.progressEnabled pin = true ∧ (s.channel pin).pend = some w ∧
        ((w.rest.length ≤ s.free (s.channel pin)
            ∧ t = (s.setChannel pin { s.channel pin with buf := (s.channel pin).buf ++ w.rest, pend := none }).answer
                (.waiter pin) .ok (BitVec.ofNat 64 (w.done + w.rest.length)) [])
          ∨ (s.free (s.channel pin) < w.rest.length
            ∧ t = s.setChannel pin
                { s.channel pin with
                  buf := (s.channel pin).buf ++ w.rest.take (s.free (s.channel pin))
                  pend := some
                    { rest := w.rest.drop (s.free (s.channel pin)), done := w.done + s.free (s.channel pin) } })) := by
  unfold runProgress at h
  by_cases he : s.progressEnabled pin = false
  · rw [if_pos he] at h
    exact .inl ⟨he, (Host.Outcome.next.inj h).symm⟩
  have he' : s.progressEnabled pin = true := by simpa using he
  rw [if_neg he] at h
  cases hp : (s.channel pin).pend with
  | none => simp [State.progressEnabled, hp] at he'
  | some w =>
    refine .inr ⟨w, he', rfl, ?_⟩
    simp only [hp] at h
    by_cases hk : w.rest.length ≤ s.free (s.channel pin)
    · rw [min_eq_left hk] at h
      simp only [List.drop_length, List.take_length, if_true] at h
      exact .inl ⟨hk, (Host.Outcome.next.inj h).symm⟩
    · have hlt := not_le.mp hk
      rw [min_eq_right hlt.le] at h
      rw [if_neg (by simp only [List.drop_eq_nil_iff, not_le]; exact hlt)] at h
      exact .inr ⟨hlt, (Host.Outcome.next.inj h).symm⟩

/-! ### One step -/

/-- What a step does, by the first event of the inbox. -/
theorem step_cons {s : State} {e : Event} {rest : List Event} (h : s.inbox = e :: rest) :
    step s = runEvent e { s with inbox := rest } := by
  simp [step, h]

theorem step_nil {s : State} (h : s.inbox = []) : step s = .next s := by
  simp [step, h]

/-- What one event does: a command runs, a failed check is answered, or one of the steps that are no command. -/
theorem runEvent_cases {e : Event} {s t : State} (h : runEvent e s = .next t) :
    (∃ tr i, e = .command tr ∧ decode tr = .command i ∧ exec i s = .next t)
      ∨ (∃ tr check, e = .command tr ∧ decode tr = .illegal check ∧ t = s.answer .issuer .illegalCommand 0 [])
      ∨ (∃ pin, e = .progress pin ∧ runProgress pin s = .next t)
      ∨ (∃ k w, e = .resume k ∧ s.held[k]? = some w ∧ (s.channel w.pin).pend = none
          ∧ exec (.chWrite w.pin w.len w.payload) { s with held := s.held.eraseIdx k } = .next t)
      ∨ (∃ k, e = .resume k ∧ t = s ∧ ∀ w, s.held[k]? = some w → (s.channel w.pin).pend ≠ none)
      ∨ (∃ spk mic, e = .inputChange spk mic ∧ t = { s with env := { spk := spk, mic := mic } })
      ∨ (∃ spk mic, e = .reset spk mic ∧ runReset spk mic s = .next t) := by
  cases e with
  | command tr =>
    simp only [runEvent, runTransaction] at h
    cases hd : decode tr with
    | command i => rw [hd] at h; exact .inl ⟨tr, i, rfl, hd, h⟩
    | illegal check => rw [hd] at h; exact .inr (.inl ⟨tr, check, rfl, hd, raise_eq_next.mp h⟩)
    | notDelivered => rw [hd] at h; cases h
  | progress pin => exact .inr (.inr (.inl ⟨pin, rfl, h⟩))
  | resume k =>
    simp only [runEvent, runResume] at h
    cases hk : s.held[k]? with
    | none =>
      rw [hk] at h
      exact .inr (.inr (.inr (.inr (.inl ⟨k, rfl, (Host.Outcome.next.inj h).symm, by simp [hk]⟩))))
    | some w =>
      rw [hk] at h
      by_cases hw : (s.channel w.pin).pend = none
      · simp only [HeldWrite.released, hw, Option.isSome_none, Bool.not_false, if_true] at h
        exact .inr (.inr (.inr (.inl ⟨k, w, rfl, hk, hw, h⟩)))
      · have hs : (s.channel w.pin).pend.isSome = true := Option.isSome_iff_ne_none.mpr hw
        simp only [HeldWrite.released, hs, Bool.not_true, Bool.false_eq_true, if_false] at h
        refine .inr (.inr (.inr (.inr (.inl ⟨k, rfl, (Host.Outcome.next.inj h).symm, ?_⟩))))
        intro w' hw'
        rw [hk] at hw'
        rwa [← Option.some.inj hw']
  | inputChange spk mic =>
    exact .inr (.inr (.inr (.inr (.inr (.inl ⟨spk, mic, rfl, (Host.Outcome.next.inj h).symm⟩)))))
  | reset spk mic => exact .inr (.inr (.inr (.inr (.inr (.inr ⟨spk, mic, rfl, h⟩)))))

end Sys2Proof.Machine
end

