-- ==== Sys2Proof/Laws/Exec.lean ====
section
/-! SUPPORT. Laws/Exec.lean: for each command what it can answer, said once, so that a proof about every step cites these and
unfolds no meaning. -/

namespace Sys2Proof.Machine

/-! ### SYN -/

/-- What SYN.INIT answers (40_synth.md R113): a failure ends the instance, a success starts one. -/
theorem execSynInit_eq_next {s t : State} (h : execSynInit s = .next t) :
    (formatOk s.cfg s.syn.stgChannels s.syn.stgBits s.syn.stgRate = false
        ∧ t = State.answer { s with syn := s.syn.failInit } .issuer .invalidFormat 0 [])
      ∨ (formatOk s.cfg s.syn.stgChannels s.syn.stgBits s.syn.stgRate = true
        ∧ (paramsFinite s.syn = false ∨ F64.isFinite (F64.increment s.syn.stgFreq s.syn.stgRate) = false)
        ∧ t = State.answer { s with syn := s.syn.failInit } .issuer .invalidParam 0 [])
      ∨ (formatOk s.cfg s.syn.stgChannels s.syn.stgBits s.syn.stgRate = true
        ∧ paramsFinite s.syn = true ∧ F64.isFinite (F64.increment s.syn.stgFreq s.syn.stgRate) = true
        ∧ t = State.answer { s with syn := s.syn.startInstance (F64.increment s.syn.stgFreq s.syn.stgRate) } .issuer .ok 0 []) := by
  unfold execSynInit at h
  simp only [] at h
  split at h
  · exact .inl ⟨‹_›, respond_eq_next.mp h⟩
  rename_i hf
  split at h
  · exact .inr (.inl ⟨by simpa using hf, .inl ‹_›, respond_eq_next.mp h⟩)
  rename_i hp
  split at h
  · exact .inr (.inl ⟨by simpa using hf, .inr ‹_›, respond_eq_next.mp h⟩)
  · exact .inr (.inr ⟨by simpa using hf, by simpa using hp, by simpa using ‹¬ _ = false›, respond_eq_next.mp h⟩)

/-- What SYN.GEN answers (R120): NOT_READY with nothing changed, or the fill. -/
theorem execSynGen_eq_next {len : BitVec 32} {s t : State} (h : execSynGen len s = .next t) :
    (s.syn.ready = false ∧ t = s.answer .issuer .notReady 0 [])
      ∨ (s.syn.ready = true
        ∧ t = State.answer { s with syn := (s.syn.generate s.cfg len.toNat).2 } .issuer .ok 0
            (s.syn.generate s.cfg len.toNat).1) := by
  unfold execSynGen at h
  split at h
  · exact .inl ⟨‹_›, raise_eq_next.mp h⟩
  · exact .inr ⟨by simpa using ‹¬ _ = false›, respond_eq_next.mp h⟩

/-- What SYN.WREG answers (R111): INVALID_ARGUMENT with nothing changed, or one register written. -/
theorem execSynWreg_eq_next {reg : BitVec 8} {val : BitVec 64} {s t : State} (h : execSynWreg reg val s = .next t) :
    t = s.answer .issuer .invalidArgument 0 []
      ∨ ∃ r y, SynReg.ofNumber? reg = some r ∧ r.write? val s.syn = some y
          ∧ t = State.answer { s with syn := y } .issuer .ok 0 [] := by
  unfold execSynWreg at h
  split at h
  · exact .inl (raise_eq_next.mp h)
  split at h
  · exact .inl (raise_eq_next.mp h)
  · exact .inr ⟨_, _, ‹_›, ‹_›, respond_eq_next.mp h⟩

/-- What SYN.RREG answers (R112): INVALID_ARGUMENT, or the register's value; nothing changed in either case. -/
theorem execSynRreg_eq_next {reg : BitVec 8} {s t : State} (h : execSynRreg reg s = .next t) :
    t = s.answer .issuer .invalidArgument 0 []
      ∨ ∃ r, SynReg.ofNumber? reg = some r ∧ t = s.answer .issuer .ok (r.read s.syn) [] := by
  unfold execSynRreg at h
  split at h
  · exact .inl (raise_eq_next.mp h)
  · exact .inr ⟨_, ‹_›, respond_eq_next.mp h⟩

/-- What a register write leaves besides the seven staging registers. -/
theorem SynReg.write?_frame {r : SynReg} {v : BitVec 64} {y y' : Syn} (h : r.write? v y = some y') :
    ∃ (ch bits : BitVec 16) (rate : BitVec 32) (freq ampl dc phase : F64),
      y' = { y with
        stgChannels := ch, stgBits := bits, stgRate := rate
        stgFreq := freq, stgAmpl := ampl, stgDc := dc, stgPhase := phase } := by
  cases r <;> simp only [SynReg.write?, Option.ite_none_right_eq_some, Option.some.injEq, reduceCtorEq] at h
  all_goals first
    | exact ⟨_, _, _, _, _, _, _, h.2.symm⟩
    | exact ⟨_, _, _, _, _, _, _, h.symm⟩

/-! ### CH -/

/-- What CH.CREATE answers (41_channel.md R152). -/
theorem execChCreate_eq_next {pin : BitVec 8} {b : Bool} {s t : State} (h : execChCreate pin b s = .next t) :
    (s.numPins ≤ pin.toNat ∧ t = s.answer .issuer .invalidArgument 0 [])
      ∨ (pin.toNat < s.numPins ∧ (s.channel pin).state ≠ .idle ∧ t = s.answer .issuer .alreadyOpen 0 [])
      ∨ (pin.toNat < s.numPins ∧ (s.channel pin).state = .idle
        ∧ t = (s.setChannel pin (Channel.newSession b)).answer .issuer .ok 0 []) := by
  rcases withPin_eq_next h with h | ⟨hp, h⟩
  · exact .inl h
  split at h
  · exact .inr (.inl ⟨hp, ‹_›, raise_eq_next.mp h⟩)
  · exact .inr (.inr ⟨hp, by simpa using ‹¬ _ ≠ _›, respond_eq_next.mp h⟩)

/-- What CH.WRITE answers (R155, R156, R160, R165): a pin that does not exist, a hold, a channel that is not OPEN, a LEN of 0, a
buffer too full for a non-blocking write, everything enqueued, or the rest waiting. -/
theorem execChWrite_eq_next {pin : BitVec 8} {len : BitVec 32} {payload : List Byte} {s t : State}
    (h : execChWrite pin len payload s = .next t) :
    payload.length = len.toNat
      ∧ ((s.numPins ≤ pin.toNat ∧ t = s.answer .issuer .invalidArgument 0 [])
        ∨ (pin.toNat < s.numPins
          ∧ (((s.channel pin).pend ≠ none
                ∧ t = { s with held := s.held ++ [{ pin := pin, len := len, payload := payload }] })
            ∨ ((s.channel pin).pend = none ∧ (s.channel pin).state ≠ .opened
                ∧ t = s.answer .issuer .channelClosed 0 [])
            ∨ ((s.channel pin).pend = none ∧ (s.channel pin).state = .opened
              ∧ ((len = 0 ∧ t = s.answer .issuer .ok 0 [])
                ∨ (len ≠ 0 ∧ payload.length ≤ s.free (s.channel pin)
                  ∧ t = (s.setChannel pin { s.channel pin with buf := (s.channel pin).buf ++ payload }).answer .issuer .ok
                      (BitVec.ofNat 64 payload.length) [])
                ∨ (len ≠ 0 ∧ s.free (s.channel pin) < payload.length ∧ (s.channel pin).blocking = false
                  ∧ t = s.answer .issuer .wouldBlock 0 [])
                ∨ (len ≠ 0 ∧ s.free (s.channel pin) < payload.length ∧ (s.channel pin).blocking = true
                  ∧ t = s.setChannel pin
                      { s.channel pin with
                        buf := (s.channel pin).buf ++ payload.take (s.free (s.channel pin))
                        pend := some
                          { rest := payload.drop (s.free (s.channel pin)), done := s.free (s.channel pin) } })))))) := by
  unfold execChWrite at h
  split at h
  · cases h
  refine ⟨not_not.mp ‹_›, ?_⟩
  rcases withPin_eq_next h with h | ⟨hp, h⟩
  · exact .inl h
  refine .inr ⟨hp, ?_⟩
  split at h
  · exact .inl ⟨Option.isSome_iff_ne_none.mp ‹_›, hold_eq_next.mp h⟩
  have hn : (s.channel pin).pend = none := Option.not_isSome_iff_eq_none.mp ‹_›
  split at h
  · exact .inr (.inl ⟨hn, ‹_›, raise_eq_next.mp h⟩)
  refine .inr (.inr ⟨hn, not_not.mp ‹_›, ?_⟩)
  split at h
  · exact .inl ⟨‹_›, respond_eq_next.mp h⟩
  rename_i hl
  split at h
  · rcases blockingWrite_eq_next h with ⟨h1, h2⟩ | ⟨h1, h2⟩
    · exact .inr (.inl ⟨hl, h1, h2⟩)
    · exact .inr (.inr (.inr ⟨hl, h1, ‹_›, h2⟩))
  · rcases nonBlockingWrite_eq_next h with ⟨h1, h2⟩ | ⟨h1, h2⟩
    · exact .inr (.inr (.inl ⟨hl, h1, by simpa using ‹¬ _ = true›, h2⟩))
    · exact .inr (.inl ⟨hl, h1, h2⟩)

/-- The end of a session and then another state and blocking flag: the channel, and the response of the write that waited. -/
theorem endSession_setChannel {pin : BitVec 8} {s : State} (c : Channel) :
    (endSession pin s).setChannel pin c =
      { s with
        channels := s.channels.set pin.toNat c
        out := s.out ++ ((s.channel pin).pend.map fun w =>
          { recipient := .waiter pin, rsp := Status.channelClosed.rsp, result := BitVec.ofNat 64 w.done, payload := [] }).toList } := by
  obtain ⟨rs, h1, h2⟩ := endSession_spec pin s
  rw [h1, h2]
  simp [State.setChannel]

theorem endSession_channel {pin : BitVec 8} {s : State} (hp : pin.toNat < s.numPins) :
    (endSession pin s).channel pin = { s.channel pin with buf := [], pend := none } := by
  obtain ⟨rs, h1, -⟩ := endSession_spec pin s
  rw [h1]
  unfold State.numPins at hp
  simp [State.channel, hp]

/-- What CH.CLOSEP answers (R166, R174). -/
theorem execChClosep_eq_next {pin : BitVec 8} {s t : State} (h : execChClosep pin s = .next t) :
    (s.numPins ≤ pin.toNat ∧ t = s.answer .issuer .invalidArgument 0 [])
      ∨ (pin.toNat < s.numPins ∧ (s.channel pin).state = .idle ∧ t = s.answer .issuer .channelClosed 0 [])
      ∨ (pin.toNat < s.numPins ∧ (s.channel pin).state ≠ .idle
        ∧ t = State.answer
          { s with
            channels := s.channels.set pin.toNat Channel.reset
            out := s.out ++ ((s.channel pin).pend.map fun w =>
              { recipient := .waiter pin, rsp := Status.channelClosed.rsp, result := BitVec.ofNat 64 w.done
                payload := [] }).toList }
          .issuer .ok 0 []) := by
  rcases withPin_eq_next h with h | ⟨hp, h⟩
  · exact .inl h
  split at h
  · exact .inr (.inl ⟨hp, ‹_›, raise_eq_next.mp h⟩)
  · refine .inr (.inr ⟨hp, ‹_›, ?_⟩)
    simp only [endSession_channel hp, endSession_setChannel] at h
    exact respond_eq_next.mp h

/-- What CH.READ answers (R168, R170). -/
theorem execChRead_eq_next {pin : BitVec 8} {len : BitVec 32} {s t : State} (h : execChRead pin len s = .next t) :
    (s.numPins ≤ pin.toNat ∧ t = s.answer .issuer .invalidArgument 0 [])
      ∨ (pin.toNat < s.numPins ∧ (s.channel pin).state ≠ .opened ∧ t = s.answer .issuer .channelClosed 0 [])
      ∨ (pin.toNat < s.numPins ∧ (s.channel pin).state = .opened
        ∧ t = (s.setChannel pin
            { s.channel pin with buf := (s.channel pin).buf.drop (min len.toNat (s.channel pin).buf.length) }).answer .issuer .ok
            (BitVec.ofNat 64 (min len.toNat (s.channel pin).buf.length))
            ((s.channel pin).buf.take (min len.toNat (s.channel pin).buf.length))) := by
  rcases withPin_eq_next h with h | ⟨hp, h⟩
  · exact .inl h
  split at h
  · exact .inr (.inl ⟨hp, ‹_›, raise_eq_next.mp h⟩)
  · exact .inr (.inr ⟨hp, not_not.mp ‹_›, respond_eq_next.mp h⟩)

/-- What CH.CLOSEC answers (R172, R174). -/
theorem execChClosec_eq_next {pin : BitVec 8} {s t : State} (h : execChClosec pin s = .next t) :
    (s.numPins ≤ pin.toNat ∧ t = s.answer .issuer .invalidArgument 0 [])
      ∨ (pin.toNat < s.numPins ∧ (s.channel pin).state ≠ .opened ∧ t = s.answer .issuer .channelClosed 0 [])
      ∨ (pin.toNat < s.numPins ∧ (s.channel pin).state = .opened
        ∧ t = State.answer
          { s with
            channels := s.channels.set pin.toNat { s.channel pin with state := .broken, buf := [], pend := none }
            out := s.out ++ ((s.channel pin).pend.map fun w =>
              { recipient := .waiter pin, rsp := Status.channelClosed.rsp, result := BitVec.ofNat 64 w.done
                payload := [] }).toList }
          .issuer .ok 0 []) := by
  rcases withPin_eq_next h with h | ⟨hp, h⟩
  · exact .inl h
  split at h
  · exact .inr (.inl ⟨hp, ‹_›, raise_eq_next.mp h⟩)
  · refine .inr (.inr ⟨hp, not_not.mp ‹_›, ?_⟩)
    simp only [endSession_channel hp, endSession_setChannel] at h
    exact respond_eq_next.mp h

/-! ### CQ -/

/-- What CQ.CLOSE answers (42_control.md R192). -/
theorem execCqClose_eq_next {s t : State} (h : execCqClose s = .next t) :
    (s.handle = false ∧ t = s.answer .issuer .invalidArgument 0 [])
      ∨ (s.handle = true ∧ t = State.answer { s with handle := false } .issuer .ok 0 []) := by
  unfold execCqClose at h
  split at h
  · exact .inl ⟨‹_›, raise_eq_next.mp h⟩
  · exact .inr ⟨by simpa using ‹¬ _ = false›, respond_eq_next.mp h⟩

/-- What CQ.OPEN answers (R191). -/
theorem execCqOpen_eq_next {s t : State} :
    execCqOpen s = .next t ↔ t = State.answer { s with handle := true } .issuer .ok 0 [] := by
  simp [execCqOpen, respond_eq_next]

/-- What CQ.MUTE answers (R200). -/
theorem execCqMute_eq_next {m : Bool} {s t : State} :
    execCqMute m s = .next t ↔ t = State.answer { s with syn := s.syn.setMute m } .issuer .ok 0 [] := by
  simp [execCqMute, respond_eq_next]

end Sys2Proof.Machine
end

