-- ==== Sys2Proof/Laws/Float.lean ====
section
/-! SUPPORT. Laws/Float.lean: what rounding, the operations and wrap of Machine/Float.lean give, said once. Values are in units of
2^-1074 throughout. -/

namespace Sys2Proof

/-! ### The nearest integer -/

/-- `roundHalfEven` is within half a divisor of the quotient, and even where it is exactly half of one away. -/
theorem roundHalfEven_near {num den : Nat} (h : 0 < den) :
    2 * num ≤ 2 * (roundHalfEven num den * den) + den ∧ 2 * (roundHalfEven num den * den) ≤ 2 * num + den
      ∧ (2 * num = 2 * (roundHalfEven num den * den) + den ∨ 2 * (roundHalfEven num den * den) = 2 * num + den →
          roundHalfEven num den % 2 = 0) := by
  have hd : den * (num / den) + num % den = num := Nat.div_add_mod num den
  have hr : num % den < den := Nat.mod_lt _ h
  have hc : num / den * den = den * (num / den) := Nat.mul_comm _ _
  unfold roundHalfEven
  simp only []
  split
  · refine ⟨by omega, by omega, fun hh => by omega⟩
  split
  · have : (num / den + 1) * den = den * (num / den) + den := by ring
    refine ⟨by omega, by omega, fun hh => by omega⟩
  · rcases Nat.mod_two_eq_zero_or_one (num / den) with he | he
    · rw [he, Nat.add_zero]
      refine ⟨by omega, by omega, fun _ => he⟩
    · rw [he]
      have : (num / den + 1) * den = den * (num / den) + den := by ring
      refine ⟨by omega, by omega, fun _ => by omega⟩

/-- An exact quotient is its own nearest integer. -/
theorem roundHalfEven_mul {m den : Nat} (h : 0 < den) : roundHalfEven (m * den) den = m := by
  unfold roundHalfEven
  simp [Nat.mul_div_cancel _ h, Nat.mul_mod_left, h]

/-- No integer multiple of the divisor is nearer than the one `roundHalfEven` picks; another one as near makes it even. -/
theorem roundHalfEven_nearest {num den : Nat} (h : 0 < den) (m : Int) :
    |((roundHalfEven num den : Int) * den - num)| ≤ |m * den - num|
      ∧ (|((roundHalfEven num den : Int) * den - num)| = |m * den - num| → m ≠ roundHalfEven num den →
          roundHalfEven num den % 2 = 0) := by
  obtain ⟨h1, h2, h3⟩ := roundHalfEven_near (num := num) h
  generalize roundHalfEven num den = n at *
  have h1' : 2 * (num : Int) ≤ 2 * ((n : Int) * den) + den := by exact_mod_cast h1
  have h2' : 2 * ((n : Int) * den) ≤ 2 * (num : Int) + den := by exact_mod_cast h2
  have hd : (0 : Int) < den := by exact_mod_cast h
  have key : m ≠ n → (den : Int) ≤ |m * den - n * den| := by
    intro hm
    rw [← sub_mul, abs_mul, abs_of_pos hd]
    have : 1 ≤ |m - (n : Int)| := Int.one_le_abs (sub_ne_zero.mpr hm)
    nlinarith
  have tri : |m * den - n * den| ≤ |m * den - (num : Int)| + |(n : Int) * den - num| := by
    have := abs_sub (m * den - (num : Int)) ((n : Int) * den - num)
    simpa using this
  have hn : 2 * |(n : Int) * den - num| ≤ den := by
    rcases abs_cases ((n : Int) * den - num) with ⟨e, _⟩ | ⟨e, _⟩ <;> rw [e] <;> omega
  by_cases hm : m = n
  · subst hm; exact ⟨le_refl _, fun _ hne => absurd rfl hne⟩
  · have hk := key hm
    refine ⟨by linarith, fun he _ => h3 ?_⟩
    rw [← he] at tri
    have : 2 * |(n : Int) * den - num| = den := by linarith
    rcases abs_cases ((n : Int) * den - num) with ⟨e, _⟩ | ⟨e, _⟩ <;> rw [e] at this
    · exact .inr (by zify; linarith)
    · exact .inl (by zify; linarith)

/-! ### Magnitude patterns -/

/-- The magnitude of a pattern without sign, by its exponent and fraction. -/
def F64.patternMag (p : Nat) : Nat :=
  if p / 2 ^ 52 = 0 then p else (2 ^ 52 + p % 2 ^ 52) * 2 ^ (p / 2 ^ 52 - 1)

theorem F64.infMag_eq : F64.infMag = 9218868437227405312 := by decide

theorem F64.pack_toNat {neg : Bool} {p : Nat} (h : p < 2 ^ 63) :
    (F64.pack neg p).toNat = (if neg then 2 ^ 63 else 0) + p := by
  unfold F64.pack
  rw [BitVec.toNat_ofNat]
  apply Nat.mod_eq_of_lt
  cases neg <;> simp at * <;> omega

theorem F64.sign_eq (x : F64) : F64.sign x = decide (2 ^ 63 ≤ x.toNat) := by
  unfold F64.sign
  rw [BitVec.getLsbD, Nat.testBit_eq_decide_div_mod_eq]
  have := x.isLt
  congr 1
  apply propext
  omega

/-- A value is its sign and its magnitude pattern. -/
theorem F64.pack_sign_mod (x : F64) : F64.pack (F64.sign x) (x.toNat % 2 ^ 63) = x := by
  apply BitVec.eq_of_toNat_eq
  rw [F64.pack_toNat (Nat.mod_lt _ (by norm_num)), F64.sign_eq]
  have := x.isLt
  by_cases h : 2 ^ 63 ≤ x.toNat
  · rw [decide_eq_true h]; simp only [if_true]; omega
  · rw [decide_eq_false h]; simp only [Bool.false_eq_true, if_false]; omega

theorem F64.sign_pack {neg : Bool} {p : Nat} (h : p < 2 ^ 63) : F64.sign (F64.pack neg p) = neg := by
  rw [F64.sign_eq, F64.pack_toNat h]
  cases neg
  all_goals simp
  all_goals omega

theorem F64.expField_pack {neg : Bool} {p : Nat} (h : p < 2 ^ 63) :
    F64.expField (F64.pack neg p) = p / 2 ^ 52 := by
  unfold F64.expField
  rw [F64.pack_toNat h]
  cases neg
  all_goals simp
  all_goals omega

theorem F64.fracField_pack {neg : Bool} {p : Nat} (h : p < 2 ^ 63) :
    F64.fracField (F64.pack neg p) = p % 2 ^ 52 := by
  unfold F64.fracField
  rw [F64.pack_toNat h]
  cases neg
  all_goals simp
  all_goals omega

theorem F64.mag_pack {neg : Bool} {p : Nat} (h : p < 2 ^ 63) :
    F64.mag (F64.pack neg p) = F64.patternMag p := by
  unfold F64.mag F64.patternMag
  rw [F64.expField_pack h, F64.fracField_pack h]
  split
  · exact Nat.mod_eq_of_lt (by omega)
  · rfl

theorem F64.isFinite_pack {neg : Bool} {p : Nat} (h : p < F64.infMag) :
    F64.isFinite (F64.pack neg p) = true := by
  rw [F64.infMag_eq] at h
  unfold F64.isFinite
  rw [F64.expField_pack (by omega)]
  simp only [bne_iff_ne, ne_eq]
  omega

theorem F64.isInf_pack_infMag {neg : Bool} : F64.isInf (F64.pack neg F64.infMag) = true := by
  cases neg <;> decide

/-- The pattern `magBits` forms from a significand and an exponent. -/
theorem F64.patternMag_add {n k : Nat} (h : n ≤ 2 ^ 53) (hk : k = 0 ∨ 2 ^ 52 ≤ n) :
    F64.patternMag (n + k * 2 ^ 52) = n * 2 ^ k := by
  unfold F64.patternMag
  rcases Nat.lt_or_ge n (2 ^ 52) with hn | hn
  · have : k = 0 := by omega
    subst this
    simp; omega
  have h0 : (n + k * 2 ^ 52) / 2 ^ 52 ≠ 0 := by omega
  rw [if_neg h0]
  rcases Nat.lt_or_ge n (2 ^ 53) with h2 | h2
  · have e1 : (n + k * 2 ^ 52) / 2 ^ 52 = k + 1 := by omega
    have e2 : (n + k * 2 ^ 52) % 2 ^ 52 = n - 2 ^ 52 := by omega
    rw [e1, e2, Nat.add_sub_cancel, Nat.add_sub_cancel' hn]
  · have : n = 2 ^ 53 := by omega
    subst this
    have e1 : (2 ^ 53 + k * 2 ^ 52) / 2 ^ 52 = k + 2 := by omega
    have e2 : (2 ^ 53 + k * 2 ^ 52) % 2 ^ 52 = 0 := by omega
    rw [e1, e2]
    simp only [Nat.add_zero, Nat.add_one_sub_one]
    rw [pow_succ 2 k]; ring

/-- A finite value's magnitude is a significand below 2^53 times a power of two, in the normal form of binary64. -/
theorem F64.mag_form {x : F64} (h : F64.isFinite x = true) :
    ∃ m j, F64.mag x = m * 2 ^ j ∧ m < 2 ^ 53 ∧ j ≤ 2045 ∧ (j = 0 ∨ 2 ^ 52 ≤ m) := by
  unfold F64.mag
  have hf : F64.fracField x < 2 ^ 52 := Nat.mod_lt _ (by norm_num)
  have he : F64.expField x < 2048 := Nat.mod_lt _ (by norm_num)
  have hn : F64.expField x ≠ 2047 := by simpa [F64.isFinite] using h
  split
  · exact ⟨F64.fracField x, 0, by simp, by omega, by omega, .inl rfl⟩
  · exact ⟨_, _, rfl, by omega, by omega, .inr (by omega)⟩

/-- The largest finite magnitude. -/
theorem F64.mag_le_of_isFinite {x : F64} (h : F64.isFinite x = true) : F64.mag x ≤ (2 ^ 53 - 1) * 2 ^ 2045 := by
  obtain ⟨m, j, e, hm, hj, -⟩ := F64.mag_form h
  rw [e]
  exact Nat.mul_le_mul (by omega) (Nat.pow_le_pow_right (by norm_num) hj)

/-! ### Rounding -/

/-- How many bits `magBits` drops: those the integer part of `num / den` has beyond 53. -/
def F64.dropped (num den : Nat) : Nat := Nat.log2 (num / den) - 52

/-- The significand `magBits` keeps. -/
def F64.kept (num den : Nat) : Nat := roundHalfEven num (den * 2 ^ F64.dropped num den)

theorem F64.magBits_eq (num den : Nat) :
    F64.magBits num den = min (F64.kept num den + F64.dropped num den * 2 ^ 52) F64.infMag := rfl

theorem F64.lt_dropped {num den : Nat} (h : 0 < den) : num < 2 ^ (53 + F64.dropped num den) * den := by
  have h1 : num / den < 2 ^ (Nat.log2 (num / den) + 1) := Nat.lt_log2_self
  have h2 : num / den < 2 ^ (53 + F64.dropped num den) :=
    lt_of_lt_of_le h1 (Nat.pow_le_pow_right (by norm_num) (by unfold F64.dropped; omega))
  exact (Nat.div_lt_iff_lt_mul h).mp h2

theorem F64.dropped_le {num den : Nat} (hk : F64.dropped num den ≠ 0) :
    2 ^ (52 + F64.dropped num den) * den ≤ num := by
  have hl : Nat.log2 (num / den) ≠ 0 := by unfold F64.dropped at hk; omega
  have h0 : num / den ≠ 0 := by intro e; rw [e] at hl; exact hl (by decide)
  have h1 : 2 ^ Nat.log2 (num / den) ≤ num / den := Nat.log2_self_le h0
  have e : 52 + F64.dropped num den = Nat.log2 (num / den) := by unfold F64.dropped at *; omega
  rw [e]
  exact le_trans (Nat.mul_le_mul_right _ h1) (Nat.div_mul_le_self _ _)

theorem F64.kept_le {num den : Nat} (h : 0 < den) : F64.kept num den ≤ 2 ^ 53 := by
  have hD : 0 < den * 2 ^ F64.dropped num den := by positivity
  obtain ⟨-, h2, -⟩ := roundHalfEven_near (num := num) hD
  have h3 := F64.lt_dropped (num := num) h
  change 2 * (F64.kept num den * _) ≤ _ at h2
  generalize F64.kept num den = n at *
  have e : 2 ^ (53 + F64.dropped num den) * den = 2 ^ 53 * (den * 2 ^ F64.dropped num den) := by
    rw [pow_add]; ring
  rw [e] at h3
  generalize den * 2 ^ F64.dropped num den = D at *
  by_contra hn
  have : (2 ^ 53 + 1) * D ≤ n * D := Nat.mul_le_mul_right _ (by omega)
  have : (2 ^ 53 + 1) * D = 2 ^ 53 * D + D := by ring
  omega

theorem F64.le_kept {num den : Nat} (h : 0 < den) : F64.dropped num den = 0 ∨ 2 ^ 52 ≤ F64.kept num den := by
  by_cases hk : F64.dropped num den = 0
  · exact .inl hk
  right
  have hD : 0 < den * 2 ^ F64.dropped num den := by positivity
  obtain ⟨h1, -, -⟩ := roundHalfEven_near (num := num) hD
  have h3 := F64.dropped_le hk
  change _ ≤ 2 * (F64.kept num den * _) + _ at h1
  generalize F64.kept num den = n at *
  have e : 2 ^ (52 + F64.dropped num den) * den = 2 ^ 52 * (den * 2 ^ F64.dropped num den) := by
    rw [pow_add]; ring
  rw [e] at h3
  generalize den * 2 ^ F64.dropped num den = D at *
  by_contra hn
  have : (n + 1) * D ≤ 2 ^ 52 * D := Nat.mul_le_mul_right _ (by omega)
  have : (n + 1) * D = n * D + D := by ring
  omega

theorem F64.magBits_lt (num den : Nat) : F64.magBits num den < 2 ^ 63 := by
  have := Nat.min_le_right (F64.kept num den + F64.dropped num den * 2 ^ 52) F64.infMag
  rw [← F64.magBits_eq, F64.infMag_eq] at this
  omega

/-- Below half a step past the largest finite value, rounding gives a finite value. -/
theorem F64.magBits_lt_infMag {num den : Nat} (h : 0 < den) (hlt : num < (2 ^ 54 - 1) * 2 ^ 2044 * den) :
    F64.kept num den + F64.dropped num den * 2 ^ 52 < F64.infMag := by
  have hk : F64.dropped num den ≤ 2045 := by
    by_contra hc
    have h1 := F64.dropped_le (num := num) (den := den) (by omega)
    have h2 : 2 ^ 2098 * den ≤ 2 ^ (52 + F64.dropped num den) * den :=
      Nat.mul_le_mul_right _ (Nat.pow_le_pow_right (by norm_num) (by omega))
    have h3 : (2 ^ 54 - 1) * 2 ^ 2044 * den ≤ 2 ^ 2098 * den :=
      Nat.mul_le_mul_right _ (by rw [show 2098 = 54 + 2044 from rfl, pow_add]; exact Nat.mul_le_mul_right _ (by omega))
    omega
  have hn := F64.kept_le (num := num) h
  rw [F64.infMag_eq]
  rcases Nat.lt_or_ge (F64.dropped num den) 2045 with hk' | hk'
  · omega
  have e : F64.dropped num den = 2045 := by omega
  have hD : 0 < den * 2 ^ F64.dropped num den := by positivity
  obtain ⟨-, h2, -⟩ := roundHalfEven_near (num := num) hD
  change 2 * (F64.kept num den * _) ≤ _ at h2
  have e2 : 2 * ((2 ^ 54 - 1) * 2 ^ 2044 * den) = (2 ^ 54 - 1) * (den * 2 ^ F64.dropped num den) := by
    rw [e, show 2045 = 2044 + 1 from rfl, pow_succ 2 2044]; ring
  generalize F64.kept num den = n at *
  generalize den * 2 ^ F64.dropped num den = D at *
  have : n < 2 ^ 53 := by
    by_contra hc
    have h4 : 2 ^ 53 * D ≤ n * D := Nat.mul_le_mul_right _ (by omega)
    have h5 : 2 * num < (2 ^ 54 - 1) * D := by omega
    have : 2 * (2 ^ 53 * D) = (2 ^ 54 - 1) * D + D := by ring
    omega
  omega

/-- From there on it gives infinity. -/
theorem F64.infMag_le_magBits {num den : Nat} (h : 0 < den) (hle : (2 ^ 54 - 1) * 2 ^ 2044 * den ≤ num) :
    F64.infMag ≤ F64.kept num den + F64.dropped num den * 2 ^ 52 := by
  have hk : 2045 ≤ F64.dropped num den := by
    by_contra hc
    have h1 := F64.lt_dropped (num := num) h
    have h2 : 2 ^ (53 + F64.dropped num den) * den ≤ 2 ^ 2097 * den :=
      Nat.mul_le_mul_right _ (Nat.pow_le_pow_right (by norm_num) (by omega))
    have h3 : 2 ^ 2097 * den ≤ (2 ^ 54 - 1) * 2 ^ 2044 * den :=
      Nat.mul_le_mul_right _ (by rw [show 2097 = 53 + 2044 from rfl, pow_add]; exact Nat.mul_le_mul_right _ (by omega))
    omega
  have hn := F64.le_kept (num := num) h
  rw [F64.infMag_eq]
  rcases Nat.lt_or_ge 2045 (F64.dropped num den) with hk' | hk'
  · omega
  have e : F64.dropped num den = 2045 := by omega
  have hD : 0 < den * 2 ^ F64.dropped num den := by positivity
  obtain ⟨h1, -, h3⟩ := roundHalfEven_near (num := num) hD
  change _ ≤ 2 * (F64.kept num den * _) + _ at h1
  change 2 * num = 2 * (F64.kept num den * _) + _ ∨ _ → F64.kept num den % 2 = 0 at h3
  have e2 : 2 * ((2 ^ 54 - 1) * 2 ^ 2044 * den) = (2 ^ 54 - 1) * (den * 2 ^ F64.dropped num den) := by
    rw [e, show 2045 = 2044 + 1 from rfl, pow_succ 2 2044]; ring
  generalize F64.kept num den = n at *
  generalize den * 2 ^ F64.dropped num den = D at *
  have h5 : (2 ^ 54 - 1) * D ≤ 2 * num := by omega
  have h6 : 2 ^ 53 ≤ n := by
    by_contra hc
    have hnd : n * D ≤ (2 ^ 53 - 1) * D := Nat.mul_le_mul_right _ (by omega)
    have e3 : 2 * ((2 ^ 53 - 1) * D) + D = (2 ^ 54 - 1) * D := by ring
    have e4 : n * D = (2 ^ 53 - 1) * D := by omega
    have e5 : n = 2 ^ 53 - 1 := Nat.eq_of_mul_eq_mul_right hD e4
    have := h3 (.inl (by omega))
    omega
  omega

/-- What a finite rounding is: sign, magnitude and last bit, by the significand kept and the bits dropped. -/
theorem F64.round_spec {neg : Bool} {num den : Nat} (h : 0 < den) (hlt : num < (2 ^ 54 - 1) * 2 ^ 2044 * den) :
    F64.isFinite (F64.round neg num den) = true ∧ F64.sign (F64.round neg num den) = neg
      ∧ F64.mag (F64.round neg num den) = F64.kept num den * 2 ^ F64.dropped num den
      ∧ F64.fracField (F64.round neg num den) % 2 = F64.kept num den % 2 := by
  have h1 := F64.magBits_lt_infMag h hlt
  have h2 : F64.magBits num den = F64.kept num den + F64.dropped num den * 2 ^ 52 := by
    rw [F64.magBits_eq]; exact Nat.min_eq_left h1.le
  have h3 : F64.kept num den + F64.dropped num den * 2 ^ 52 < 2 ^ 63 := by rw [F64.infMag_eq] at h1; omega
  unfold F64.round
  rw [h2]
  refine ⟨F64.isFinite_pack h1, F64.sign_pack h3, ?_, ?_⟩
  · rw [F64.mag_pack h3, F64.patternMag_add (F64.kept_le h) (F64.le_kept h)]
  · rw [F64.fracField_pack h3]; omega

/-- What an overflowing rounding is. -/
theorem F64.round_overflow {neg : Bool} {num den : Nat} (h : 0 < den) (hle : (2 ^ 54 - 1) * 2 ^ 2044 * den ≤ num) :
    F64.round neg num den = F64.pack neg F64.infMag := by
  unfold F64.round
  rw [F64.magBits_eq, Nat.min_eq_right (F64.infMag_le_magBits h hle)]

/-- Every finite magnitude above the first binade is a multiple of the step there. -/
theorem F64.mag_dvd {z : F64} {k : Nat} (h : F64.isFinite z = true) (hz : 2 ^ (52 + k) ≤ F64.mag z) :
    2 ^ k ∣ F64.mag z := by
  obtain ⟨m, j, e, hm, -, -⟩ := F64.mag_form h
  rw [e] at hz ⊢
  have : k ≤ j := by
    by_contra hc
    have h1 : m * 2 ^ j < 2 ^ 53 * 2 ^ j := Nat.mul_lt_mul_of_pos_right hm (by positivity)
    have h2 : 2 ^ 53 * 2 ^ j ≤ 2 ^ (52 + k) := by
      rw [← pow_add]; exact Nat.pow_le_pow_right (by norm_num) (by omega)
    omega
  exact dvd_mul_of_dvd_right (pow_dvd_pow 2 this) m

/-- No finite magnitude is nearer to `num / den` than the one rounding keeps; another one as near makes its last bit even. -/
theorem F64.kept_nearest {num den : Nat} (h : 0 < den) {z : F64} (hz : F64.isFinite z = true) :
    |((F64.kept num den * 2 ^ F64.dropped num den : Nat) * den - num : Int)| ≤ |(F64.mag z : Int) * den - num|
      ∧ (|((F64.kept num den * 2 ^ F64.dropped num den : Nat) * den - num : Int)| = |(F64.mag z : Int) * den - num| →
          F64.mag z ≠ F64.kept num den * 2 ^ F64.dropped num den → F64.kept num den % 2 = 0) := by
  have hD : 0 < den * 2 ^ F64.dropped num den := by positivity
  have near := fun m => roundHalfEven_nearest (num := num) hD m
  change ∀ m : Int, |((F64.kept num den : Int) * _ - num)| ≤ _
    ∧ (|((F64.kept num den : Int) * _ - num)| = _ → m ≠ (F64.kept num den : Int) → F64.kept num den % 2 = 0) at near
  have ek : ((F64.kept num den * 2 ^ F64.dropped num den : Nat) * den : Int)
      = (F64.kept num den : Int) * ((den * 2 ^ F64.dropped num den : Nat) : Int) := by push_cast; ring
  rw [ek]
  by_cases hm : 2 ^ F64.dropped num den ∣ F64.mag z
  · obtain ⟨m, em⟩ := hm
    have e : (F64.mag z : Int) * den = (m : Int) * ((den * 2 ^ F64.dropped num den : Nat) : Int) := by
      rw [em]; push_cast; ring
    rw [e]
    refine ⟨(near m).1, fun h1 h2 => (near m).2 h1 ?_⟩
    intro hc
    apply h2
    rw [em, Nat.mul_comm]
    congr 1
    exact_mod_cast hc
  · have hk : F64.dropped num den ≠ 0 := by intro hc; rw [hc] at hm; exact hm (one_dvd _)
    have hlt : F64.mag z < 2 ^ (52 + F64.dropped num den) := by
      by_contra hc
      exact hm (F64.mag_dvd hz (by omega))
    have hge := F64.dropped_le hk
    have n52 := near (2 ^ 52)
    have e : ((2 ^ 52 : Int) * ((den * 2 ^ F64.dropped num den : Nat) : Int))
        = ((2 ^ (52 + F64.dropped num den) * den : Nat) : Int) := by push_cast; rw [pow_add]; ring
    rw [e] at n52
    have hlt' : (F64.mag z : Int) * den < ((2 ^ (52 + F64.dropped num den) * den : Nat) : Int) := by
      exact_mod_cast Nat.mul_lt_mul_of_pos_right hlt h
    have hge' : ((2 ^ (52 + F64.dropped num den) * den : Nat) : Int) ≤ num := by exact_mod_cast hge
    have s : |((2 ^ (52 + F64.dropped num den) * den : Nat) : Int) - num| < |(F64.mag z : Int) * den - num| := by
      rw [abs_of_nonpos (by omega), abs_of_nonpos (by omega)]
      omega
    exact ⟨le_trans n52.1 s.le, fun he => absurd (le_trans he.symm.le n52.1) (not_le.mpr s)⟩

/-- A magnitude that is already a significand times a power of two is kept as it is. -/
theorem F64.mag_round_of_form {neg : Bool} {m j : Nat} (hm : m < 2 ^ 53) (hj : j ≤ 2045) :
    F64.isFinite (F64.round neg (m * 2 ^ j) 1) = true ∧ F64.sign (F64.round neg (m * 2 ^ j) 1) = neg
      ∧ F64.mag (F64.round neg (m * 2 ^ j) 1) = m * 2 ^ j := by
  have hmax : m * 2 ^ j ≤ (2 ^ 53 - 1) * 2 ^ 2045 :=
    Nat.mul_le_mul (by omega) (Nat.pow_le_pow_right (by norm_num) hj)
  have hlt : m * 2 ^ j < (2 ^ 54 - 1) * 2 ^ 2044 * 1 := by
    have e : (2 ^ 53 - 1) * 2 ^ 2045 + 2 ^ 2044 = (2 ^ 54 - 1) * 2 ^ 2044 := by
      rw [show 2045 = 2044 + 1 from rfl, pow_succ 2 2044]; ring
    have : 0 < 2 ^ 2044 := by positivity
    omega
  obtain ⟨h1, h2, h3, -⟩ := F64.round_spec (neg := neg) Nat.one_pos hlt
  refine ⟨h1, h2, ?_⟩
  rw [h3]
  have hk : F64.dropped (m * 2 ^ j) 1 ≤ j := by
    by_contra hc
    have h4 := F64.dropped_le (num := m * 2 ^ j) (den := 1) (by omega)
    have h5 : m * 2 ^ j < 2 ^ 53 * 2 ^ j := Nat.mul_lt_mul_of_pos_right hm (by positivity)
    have h6 : 2 ^ 53 * 2 ^ j ≤ 2 ^ (52 + F64.dropped (m * 2 ^ j) 1) := by
      rw [← pow_add]; exact Nat.pow_le_pow_right (by norm_num) (by omega)
    omega
  unfold F64.kept
  generalize F64.dropped (m * 2 ^ j) 1 = k at *
  have e : m * 2 ^ j = m * 2 ^ (j - k) * 2 ^ k := by rw [Nat.mul_assoc, ← pow_add, Nat.sub_add_cancel hk]
  rw [Nat.one_mul]
  conv_lhs => rw [e]
  rw [roundHalfEven_mul (by positivity), ← e]

/-! ### Infinities, NaNs and equal values -/

theorem F64.not_isNaN_of_isFinite {x : F64} (h : F64.isFinite x = true) : F64.isNaN x = false := by
  simp only [F64.isFinite, bne_iff_ne] at h
  simp [F64.isNaN, h]

theorem F64.not_isInf_of_isFinite {x : F64} (h : F64.isFinite x = true) : F64.isInf x = false := by
  simp only [F64.isFinite, bne_iff_ne] at h
  simp [F64.isInf, h]

theorem F64.not_isFinite_of_isInf {x : F64} (h : F64.isInf x = true) : F64.isFinite x = false := by
  by_contra hc
  rw [F64.not_isInf_of_isFinite (by simpa using hc)] at h
  cases h

theorem F64.not_isNaN_pack_infMag {neg : Bool} : F64.isNaN (F64.pack neg F64.infMag) = false := by
  cases neg <;> decide

theorem F64.sign_pack_infMag {neg : Bool} : F64.sign (F64.pack neg F64.infMag) = neg := by
  cases neg <;> decide

theorem F64.mag_eq_patternMag (x : F64) : F64.mag x = F64.patternMag (x.toNat % 2 ^ 63) := by
  conv_lhs => rw [← F64.pack_sign_mod x]
  exact F64.mag_pack (Nat.mod_lt _ (by norm_num))

/-- A smaller pattern has a smaller magnitude. -/
theorem F64.patternMag_strictMono : StrictMono F64.patternMag := by
  apply strictMono_nat_of_lt_succ
  intro p
  have h1 := F64.patternMag_add (n := 2 ^ 52 + p % 2 ^ 52) (k := p / 2 ^ 52 - 1) (by omega) (.inr (by omega))
  have h2 := F64.patternMag_add (n := 2 ^ 52 + p % 2 ^ 52 + 1) (k := p / 2 ^ 52 - 1) (by omega) (.inr (by omega))
  by_cases h0 : p / 2 ^ 52 = 0
  · have e1 : F64.patternMag p = p := by simp only [F64.patternMag]; rw [if_pos h0]
    have e2 := F64.patternMag_add (n := p + 1) (k := 0) (by omega) (.inl rfl)
    rw [e1]
    simp only [Nat.zero_mul, Nat.add_zero, pow_zero, Nat.mul_one] at e2
    omega
  · have e : 2 ^ 52 + p % 2 ^ 52 + (p / 2 ^ 52 - 1) * 2 ^ 52 = p := by omega
    have e' : 2 ^ 52 + p % 2 ^ 52 + 1 + (p / 2 ^ 52 - 1) * 2 ^ 52 = p + 1 := by omega
    rw [e] at h1; rw [e'] at h2
    rw [h1, h2]
    exact Nat.mul_lt_mul_of_pos_right (by omega) (by positivity)

/-- Sign and magnitude fix the value. -/
theorem F64.eq_of_sign_mag {x y : F64} (hs : F64.sign x = F64.sign y) (hm : F64.mag x = F64.mag y) : x = y := by
  rw [← F64.pack_sign_mod x, ← F64.pack_sign_mod y, hs]
  rw [F64.mag_eq_patternMag, F64.mag_eq_patternMag] at hm
  rw [F64.patternMag_strictMono.injective hm]

theorem F64.units_of_not_sign {x : F64} (h : F64.sign x = false) : F64.units x = F64.mag x := by
  simp [F64.units, h]

theorem F64.units_of_sign {x : F64} (h : F64.sign x = true) : F64.units x = -(F64.mag x : Int) := by
  simp [F64.units, h]

theorem F64.natAbs_units (x : F64) : (F64.units x).natAbs = F64.mag x := by
  unfold F64.units; split <;> simp

/-- Rounding gives no NaN. -/
theorem F64.not_isNaN_round {neg : Bool} {num den : Nat} (h : 0 < den) : F64.isNaN (F64.round neg num den) = false := by
  by_cases hlt : num < (2 ^ 54 - 1) * 2 ^ 2044 * den
  · exact F64.not_isNaN_of_isFinite (F64.round_spec h hlt).1
  · rw [F64.round_overflow h (not_lt.mp hlt)]; exact F64.not_isNaN_pack_infMag

theorem F64.sign_round {neg : Bool} {num den : Nat} : F64.sign (F64.round neg num den) = neg :=
  F64.sign_pack (F64.magBits_lt num den)

/-- A finite magnitude is below the overflow threshold. -/
theorem F64.mag_lt_threshold {x : F64} (h : F64.isFinite x = true) : F64.mag x + 2 ^ 2044 ≤ (2 ^ 54 - 1) * 2 ^ 2044 := by
  have := F64.mag_le_of_isFinite h
  have e : (2 ^ 53 - 1) * 2 ^ 2045 + 2 ^ 2044 = (2 ^ 54 - 1) * 2 ^ 2044 := by
    rw [show 2045 = 2044 + 1 from rfl, pow_succ 2 2044]; ring
  omega

/-- Rounding does not go past a finite value: below it stays below. -/
theorem F64.mag_round_le {neg : Bool} {num den : Nat} {z : F64} (h : 0 < den) (hz : F64.isFinite z = true)
    (hle : num ≤ F64.mag z * den) :
    F64.isFinite (F64.round neg num den) = true ∧ F64.mag (F64.round neg num den) ≤ F64.mag z := by
  have hlt : num < (2 ^ 54 - 1) * 2 ^ 2044 * den := by
    refine lt_of_le_of_lt hle (Nat.mul_lt_mul_of_pos_right ?_ h)
    have := F64.mag_lt_threshold hz
    have : 0 < 2 ^ 2044 := by positivity
    omega
  obtain ⟨h1, -, h3, -⟩ := F64.round_spec (neg := neg) h hlt
  refine ⟨h1, ?_⟩
  have near := (F64.kept_nearest (num := num) h hz).1
  rw [← h3] at near
  by_contra hc
  have hc' : F64.mag z * den < F64.mag (F64.round neg num den) * den := Nat.mul_lt_mul_of_pos_right (not_le.mp hc) h
  have hc'' : (F64.mag z : Int) * den < (F64.mag (F64.round neg num den) : Int) * den := by exact_mod_cast hc'
  have hle' : (num : Int) ≤ (F64.mag z : Int) * den := by exact_mod_cast hle
  rw [abs_of_nonneg (by omega), abs_of_nonneg (by omega)] at near
  omega

/-! ### Addition -/

/-- A finite sum of finite values is the rounding of the exact sum, with the sign of the sum. -/
theorem F64.add_of_isFinite {x y : F64} (hx : F64.isFinite x = true) (hy : F64.isFinite y = true) :
    F64.add x y =
      if F64.units x + F64.units y = 0 then F64.pack (F64.sign x && F64.sign y) 0
      else F64.round (decide (F64.units x + F64.units y < 0)) (F64.units x + F64.units y).natAbs 1 := by
  simp [F64.add, hx, hy]

/-- The sum of two finite values is no NaN, and overflows only from half a step past the largest finite value. -/
theorem F64.add_spec {x y : F64} (hx : F64.isFinite x = true) (hy : F64.isFinite y = true) :
    F64.isNaN (F64.add x y) = false
      ∧ ((F64.units x + F64.units y).natAbs < (2 ^ 54 - 1) * 2 ^ 2044 → F64.isFinite (F64.add x y) = true) := by
  rw [F64.add_of_isFinite hx hy]
  split
  · exact ⟨F64.not_isNaN_of_isFinite (F64.isFinite_pack (by decide)), fun _ => F64.isFinite_pack (by decide)⟩
  · exact ⟨F64.not_isNaN_round Nat.one_pos, fun h => (F64.round_spec Nat.one_pos (by omega)).1⟩

/-! ### Multiplication and division -/

/-- The product with a value in [-1, 1] is finite and no larger. -/
theorem F64.mul_unit {x y : F64} (hx : F64.isFinite x = true) (hy : F64.isFinite y = true)
    (h1 : F64.mag y ≤ F64.unitsPerOne) :
    F64.isFinite (F64.mul x y) = true ∧ F64.mag (F64.mul x y) ≤ F64.mag x := by
  have e : F64.mul x y = F64.round (F64.sign x != F64.sign y) (F64.mag x * F64.mag y) F64.unitsPerOne := by
    simp [F64.mul, hx, hy]
  rw [e]
  exact F64.mag_round_le (by unfold F64.unitsPerOne; positivity) hx (Nat.mul_le_mul_left _ h1)

/-! ### fmod -/

/-- The remainder of two finite magnitudes is a significand times a power of two. -/
theorem F64.mod_form {x y : F64} (hx : F64.isFinite x = true) (hy : F64.isFinite y = true) (h0 : F64.mag y ≠ 0) :
    ∃ m j, F64.mag x % F64.mag y = m * 2 ^ j ∧ m < 2 ^ 53 ∧ j ≤ 2045 := by
  obtain ⟨a, i, ex, ha, hi, -⟩ := F64.mag_form hx
  obtain ⟨b, j, ey, hb, hj, -⟩ := F64.mag_form hy
  have key : ∀ k, k ≤ i → k ≤ j → F64.mag x % F64.mag y < 2 ^ 53 * 2 ^ k → k ≤ 2045 →
      ∃ m j, F64.mag x % F64.mag y = m * 2 ^ j ∧ m < 2 ^ 53 ∧ j ≤ 2045 := by
    intro k h1 h2 hlt hk
    have hd : 2 ^ k ∣ F64.mag x % F64.mag y := by
      apply (Nat.dvd_mod_iff _).mpr
      · rw [ex]; exact dvd_mul_of_dvd_right (pow_dvd_pow 2 h1) a
      · rw [ey]; exact dvd_mul_of_dvd_right (pow_dvd_pow 2 h2) b
    obtain ⟨m, em⟩ := hd
    refine ⟨m, k, by rw [em, Nat.mul_comm], ?_, hk⟩
    rw [em, Nat.mul_comm] at hlt
    exact Nat.lt_of_mul_lt_mul_right hlt
  have hlt : F64.mag x % F64.mag y < F64.mag y := Nat.mod_lt _ (Nat.pos_of_ne_zero h0)
  rcases Nat.le_total j i with hji | hij
  · refine key j hji le_rfl (lt_trans hlt ?_) hj
    rw [ey]; exact Nat.mul_lt_mul_of_pos_right hb (by positivity)
  · refine key i le_rfl hij (lt_of_le_of_lt (Nat.mod_le _ _) ?_) hi
    rw [ex]; exact Nat.mul_lt_mul_of_pos_right ha (by positivity)

/-- fmod of finite values: the rounding of the exact remainder, which rounding does not change. -/
theorem F64.fmod_of_isFinite {x y : F64} (hx : F64.isFinite x = true) (hy : F64.isFinite y = true)
    (h0 : F64.mag y ≠ 0) : F64.fmod x y = F64.round (F64.sign x) (F64.mag x % F64.mag y) 1 := by
  simp [F64.fmod, hx, hy, h0]

/-! ### wrap -/

theorem F64.twoPi_form : F64.mag F64.twoPi = 7074237752028440 * 2 ^ 1024 := by
  have e : F64.expField F64.twoPi = 1025 := by decide
  have f : F64.fracField F64.twoPi = 2570638124657944 := by decide
  unfold F64.mag
  rw [e, f, if_neg (by decide), show 2 ^ 52 + 2570638124657944 = 7074237752028440 by norm_num, show 1025 - 1 = 1024 by norm_num]

theorem F64.twoPi_isFinite : F64.isFinite F64.twoPi = true := by decide
theorem F64.twoPi_sign : F64.sign F64.twoPi = false := by decide
theorem F64.twoPi_mag_pos : 0 < F64.mag F64.twoPi := by
  rw [F64.twoPi_form]; exact Nat.mul_pos (by norm_num) (Nat.pow_pos (by norm_num))

theorem F64.zero_isFinite : F64.isFinite 0 = true := by decide
theorem F64.zero_sign : F64.sign 0 = false := by decide
theorem F64.zero_mag : F64.mag 0 = 0 := by decide

/-- What wrap answers for a finite value: an exact remainder that is not negative is kept (a zero as +0.0); to a negative one
TWO_PI is added, and a sum that rounds to TWO_PI or to zero is +0.0. -/
theorem F64.wrap_eq {x : F64} (hx : F64.isFinite x = true) :
    F64.wrap x =
      if F64.mag x % F64.mag F64.twoPi = 0 then 0
      else if F64.sign x = false then F64.round false (F64.mag x % F64.mag F64.twoPi) 1
      else
        let r := F64.round false (F64.mag F64.twoPi - F64.mag x % F64.mag F64.twoPi) 1
        if F64.mag r = F64.mag F64.twoPi ∨ F64.mag r = 0 then 0 else r := by
  have hT := F64.twoPi_mag_pos
  have hfm := F64.fmod_of_isFinite hx F64.twoPi_isFinite hT.ne'
  obtain ⟨m, j, em, hm, hj⟩ := F64.mod_form hx F64.twoPi_isFinite hT.ne'
  have hrep : ∀ neg, _ := fun neg => F64.mag_round_of_form (neg := neg) hm hj
  rw [← em] at hrep
  have hlt : F64.mag x % F64.mag F64.twoPi < F64.mag F64.twoPi := Nat.mod_lt _ hT
  obtain ⟨f1, f2, f3⟩ := hrep (F64.sign x)
  have nz : F64.isNaN (0 : F64) = false := F64.not_isNaN_of_isFinite F64.zero_isFinite
  have nT : F64.isNaN F64.twoPi = false := F64.not_isNaN_of_isFinite F64.twoPi_isFinite
  have uz : F64.units 0 = 0 := by decide
  have uT : F64.units F64.twoPi = F64.mag F64.twoPi := F64.units_of_not_sign F64.twoPi_sign
  obtain ⟨g1, g2⟩ := F64.mag_round_le (neg := false) (num := F64.mag F64.twoPi - F64.mag x % F64.mag F64.twoPi)
    Nat.one_pos F64.twoPi_isFinite (by rw [Nat.mul_one]; exact Nat.sub_le _ _)
  have g3 : F64.sign (F64.round false (F64.mag F64.twoPi - F64.mag x % F64.mag F64.twoPi) 1) = false := F64.sign_round
  have hadd : ∀ r, F64.isFinite r = true → F64.add r F64.twoPi = _ := fun r h =>
    F64.add_of_isFinite h F64.twoPi_isFinite
  rw [uT] at hadd
  have z0 := F64.zero_mag
  unfold F64.wrap
  rw [hfm]
  generalize hr : F64.round (F64.sign x) (F64.mag x % F64.mag F64.twoPi) 1 = r at *
  have nr := F64.not_isNaN_of_isFinite f1
  simp only [F64.lt, F64.ge, nr, nz, nT, uz, uT, Bool.not_false, Bool.true_and, F64.isZero]
  generalize F64.mag F64.twoPi = T at *
  generalize F64.twoPi = tp at *
  by_cases h0 : F64.mag x % T = 0
  · have ur : F64.units r = 0 := by
      have := F64.natAbs_units r; rw [f3, h0] at this; exact Int.natAbs_eq_zero.mp this
    have h1 : ¬ ((T : Int) ≤ 0) := by omega
    have hT0 : T ≠ 0 := by omega
    simp [h0, ur, f3, nr, hT0]
  rw [if_neg h0]
  cases hs : F64.sign x with
  | false =>
    rw [hs] at f2
    have ur := F64.units_of_not_sign f2
    have h1 : ¬ F64.units r < 0 := by omega
    have h2 : ¬ ((T : Int) ≤ F64.units r) := by omega
    have h3 : F64.mag r ≠ 0 := by omega
    rw [hs] at hr
    simp [h1, h2, h3, nr, hr]
  | true =>
    rw [hs] at f2
    have ur := F64.units_of_sign f2
    have h1 : F64.units r < 0 := by omega
    have ha : F64.add r tp = F64.round false (T - F64.mag x % T) 1 := by
      rw [hadd r f1, ur, f3, if_neg (by omega)]
      congr 1
      · simp; omega
      · omega
    simp only [h1, decide_true, if_true, ha]
    generalize F64.round false (T - F64.mag x % T) 1 = q at *
    have uq := F64.units_of_not_sign g3
    have nq := F64.not_isNaN_of_isFinite g1
    rw [uq]
    simp only [nq, Bool.not_false, Bool.true_and, Bool.true_eq_false, if_false]
    have hT0 : T ≠ 0 := by omega
    by_cases h4 : F64.mag q = T
    · simp [h4]
    · have h5 : ¬ ((T : Int) ≤ F64.mag q) := by omega
      by_cases h6 : F64.mag q = 0
      · simp [h6, hT0]
      · simp [h4, h5, h6]

/-- What wrap gives: a finite value, not negative, below TWO_PI. -/
theorem F64.wrap_range {x : F64} (hx : F64.isFinite x = true) :
    F64.isFinite (F64.wrap x) = true ∧ F64.sign (F64.wrap x) = false ∧ F64.mag (F64.wrap x) < F64.mag F64.twoPi := by
  have hT := F64.twoPi_mag_pos
  obtain ⟨m, j, em, hm, hj⟩ := F64.mod_form hx F64.twoPi_isFinite hT.ne'
  have hlt : F64.mag x % F64.mag F64.twoPi < F64.mag F64.twoPi := Nat.mod_lt _ hT
  have z : F64.isFinite 0 = true ∧ F64.sign 0 = false ∧ F64.mag 0 < F64.mag F64.twoPi :=
    ⟨F64.zero_isFinite, F64.zero_sign, by rw [F64.zero_mag]; exact hT⟩
  rw [F64.wrap_eq hx]
  split
  · exact z
  split
  · obtain ⟨f1, f2, f3⟩ := F64.mag_round_of_form (neg := false) hm hj
    rw [← em] at f1 f2 f3
    exact ⟨f1, f2, by omega⟩
  · obtain ⟨g1, g2⟩ := F64.mag_round_le (neg := false) (num := F64.mag F64.twoPi - F64.mag x % F64.mag F64.twoPi)
      Nat.one_pos F64.twoPi_isFinite (by omega)
    simp only []
    split
    · exact z
    · rename_i hn
      exact ⟨g1, F64.sign_round, lt_of_le_of_ne g2 (fun e => hn (.inl e))⟩

/-- A next angle stays finite: TWO_PI is far below half a step of the largest finite value. -/
theorem F64.add_below_twoPi {x y : F64} (hx : F64.isFinite x = true) (hlt : F64.mag x < F64.mag F64.twoPi)
    (hy : F64.isFinite y = true) : F64.isFinite (F64.add x y) = true := by
  apply (F64.add_spec hx hy).2
  have h1 := F64.mag_lt_threshold hy
  have h2 : F64.mag F64.twoPi ≤ 2 ^ 2044 := by
    rw [F64.twoPi_form]
    calc 7074237752028440 * 2 ^ 1024 ≤ 2 ^ 1020 * 2 ^ 1024 :=
          Nat.mul_le_mul_right _
            (le_trans (by norm_num : 7074237752028440 ≤ 2 ^ 53) (Nat.pow_le_pow_right (by norm_num) (by norm_num)))
      _ = 2 ^ 2044 := by rw [← pow_add]
  have h3 := Int.natAbs_add_le (F64.units x) (F64.units y)
  rw [F64.natAbs_units, F64.natAbs_units] at h3
  omega

/-! ### SIN_IMPL -/

theorem unitMag_lt (bits : Nat) : unitMag bits < F64.infMag := by
  have : unitMag bits ≤ F64.one.toNat := Nat.min_le_right _ _
  have h : F64.one.toNat < F64.infMag := by decide
  omega

theorem F64.one_pattern : F64.patternMag F64.one.toNat = F64.unitsPerOne := by
  have e : F64.one.toNat = 2 ^ 52 + 1022 * 2 ^ 52 := by decide
  rw [e, F64.patternMag_add (by norm_num) (.inr le_rfl)]
  unfold F64.unitsPerOne
  rw [← pow_add]

/-- A pattern held to that of 1.0 is a finite value in [-1, 1]. -/
theorem F64.pack_unitMag {neg : Bool} {bits : Nat} :
    F64.isFinite (F64.pack neg (unitMag bits)) = true
      ∧ F64.mag (F64.pack neg (unitMag bits)) ≤ F64.unitsPerOne := by
  have h := unitMag_lt bits
  refine ⟨F64.isFinite_pack h, ?_⟩
  rw [F64.infMag_eq] at h
  rw [F64.mag_pack (by omega), ← F64.one_pattern]
  exact F64.patternMag_strictMono.monotone (Nat.min_le_right _ _)

/-- 00_scope.md R6: for a finite argument SIN_IMPL gives a finite value in [-1, 1]. -/
theorem sinImpl_unit {impl : SineImpl} {x : F64} (hx : F64.isFinite x = true) :
    F64.isFinite (sinImpl impl x) = true ∧ F64.mag (sinImpl impl x) ≤ F64.unitsPerOne := by
  have free : ∀ k, F64.isFinite (sinFree k x) = true ∧ F64.mag (sinFree k x) ≤ F64.unitsPerOne := by
    intro k
    simp only [sinFree, hx, if_true]
    exact F64.pack_unitMag
  cases impl with
  | other k => exact free k
  | correctlyRounded =>
    simp only [sinImpl, sinReference, hx, Bool.true_eq_false, if_false]
    split
    · refine ⟨hx, ?_⟩
      have h : (2 : Nat) ^ (1074 - 26) ≤ F64.unitsPerOne := Nat.pow_le_pow_right (by norm_num) (by norm_num)
      omega
    · exact F64.pack_unitMag

/-! ### RoundHA -/

/-- RoundHA looks at the exact value only: equal values round alike, both zeros included. -/
theorem F64.roundHA_of_units {v w : F64} (hv : F64.isFinite v = true) (hw : F64.isFinite w = true)
    (h : F64.units v = F64.units w) : F64.roundHA v = F64.roundHA w := by
  have hmag : F64.mag v = F64.mag w := by rw [← F64.natAbs_units, ← F64.natAbs_units, h]
  unfold F64.roundHA
  rw [F64.not_isNaN_of_isFinite hv, F64.not_isNaN_of_isFinite hw, F64.not_isInf_of_isFinite hv,
    F64.not_isInf_of_isFinite hw, hmag]
  by_cases h0 : F64.mag w = 0
  · rw [h0]
    have : (0 + 2 ^ 1073) / 2 ^ 1074 = 0 :=
      Nat.div_eq_of_lt (by rw [Nat.zero_add]; exact Nat.pow_lt_pow_right (by norm_num) (by norm_num))
    rw [this]; simp
  · have : F64.sign v = F64.sign w := by
      unfold F64.units at h
      cases hv' : F64.sign v <;> cases hw' : F64.sign w <;> rw [hv', hw'] at h <;> simp at h ⊢ <;> omega
    rw [this]; rfl

end Sys2Proof
end

