-- ==== Sys2Proof/Laws/Pcm.lean ====
section
/-! SUPPORT. Laws/Pcm.lean: how long frames are, what the frames of a run are by the stream of Safety.lean, and what a fill is of
that stream. -/

namespace Sys2Proof.Machine

/-! ### The range of theta -/

/-- `InPhaseRange` by magnitudes. -/
theorem inPhaseRange_iff {x : F64} :
    InPhaseRange x ↔ F64.isFinite x = true ∧ F64.sign x = false ∧ F64.mag x < F64.mag F64.twoPi := by
  constructor
  · rintro ⟨h1, h2, h3⟩
    refine ⟨h1, h2, ?_⟩
    simp only [F64.lt, Bool.and_eq_true, decide_eq_true_eq] at h3
    have := h3.2
    rw [F64.units_of_not_sign h2, F64.units_of_not_sign F64.twoPi_sign] at this
    exact_mod_cast this
  · rintro ⟨h1, h2, h3⟩
    refine ⟨h1, h2, ?_⟩
    unfold F64.lt
    rw [F64.not_isNaN_of_isFinite h1, F64.not_isNaN_of_isFinite F64.twoPi_isFinite, F64.units_of_not_sign h2,
      F64.units_of_not_sign F64.twoPi_sign, decide_eq_true (by exact_mod_cast h3)]
    rfl

/-! ### Lengths -/

/-- `enc_b` gives b/8 bytes. -/
theorem encSample_length (enc : Pcm8Encoding) (b : Nat) (s : Int) : (encSample enc b s).length = b / 8 := by
  unfold encSample
  split
  · rename_i h; rw [h.1]; rfl
  · exact length_leBytes _ _

theorem frameBytes_length (enc : Pcm8Encoding) (b c : Nat) (s : Int) : (frameBytes enc b c s).length = c * (b / 8) := by
  simp [frameBytes, encSample_length]

/-- Every frame of the stream has the bytes R36 says. -/
theorem Syn.frameAt_length (cfg : Config) (y : Syn) (j : Nat) :
    (y.frameAt cfg j).length = y.actChannels.toNat * (y.actBits.toNat / 8) := frameBytes_length _ _ _ _

theorem Syn.stream_length (cfg : Config) (y : Syn) (m : Nat) :
    (y.stream cfg m).length = m * (y.actChannels.toNat * (y.actBits.toNat / 8)) := by
  simp [Syn.stream, List.length_flatMap, Syn.frameAt_length]

/-! ### The stream after a frame, and after a change of theta and carry -/

theorem Syn.thetaAt_advance (y : Syn) (j : Nat) : y.advance.thetaAt j = y.thetaAt (j + 1) := by
  induction j with
  | zero => rfl
  | succ j ih => simp only [Syn.thetaAt, ih, Syn.advance_inc]

theorem Syn.frameAt_advance (cfg : Config) (y : Syn) (j : Nat) : y.advance.frameAt cfg j = y.frameAt cfg (j + 1) := by
  simp only [Syn.frameAt, Syn.thetaAt_advance]; rfl

/-- The instance as it is after `n` frames and with another carry. -/
abbrev Syn.after (y : Syn) (n : Nat) (carry : List Byte) : Syn := { y with theta := y.thetaAt n, carry := carry }

theorem Syn.thetaAt_after (y : Syn) (n j : Nat) (carry : List Byte) :
    (y.after n carry).thetaAt j = y.thetaAt (n + j) := by
  induction j with
  | zero => rfl
  | succ j ih => simp only [Syn.thetaAt, ih]; rfl

theorem Syn.frameAt_after (cfg : Config) (y : Syn) (n j : Nat) (carry : List Byte) :
    (y.after n carry).frameAt cfg j = y.frameAt cfg (n + j) := by
  simp only [Syn.frameAt, Syn.thetaAt_after]; rfl

theorem Syn.stream_succ (cfg : Config) (y : Syn) (m : Nat) :
    y.stream cfg (m + 1) = y.stream cfg m ++ y.frameAt cfg m := by
  simp [Syn.stream, List.range_succ]

theorem Syn.stream_add (cfg : Config) (y : Syn) (n m : Nat) (carry : List Byte) :
    y.stream cfg (n + m) = y.stream cfg n ++ (y.after n carry).stream cfg m := by
  induction m with
  | zero => simp [Syn.stream]
  | succ m ih => rw [← Nat.add_assoc, Syn.stream_succ, ih, Syn.stream_succ, Syn.frameAt_after, List.append_assoc]

theorem Syn.nextFrame_eq (cfg : Config) (y : Syn) : y.nextFrame cfg = y.frameAt cfg 0 := rfl

theorem Syn.advance_eq (y : Syn) : y.advance = y.after 1 y.carry := rfl

/-! ### Frames one after another, and a fill -/

/-- What computing `n` frames gives: the first `n` frames of the stream, and theta there. -/
theorem Syn.computeFrames_eq (cfg : Config) (n : Nat) (y : Syn) :
    Syn.computeFrames cfg n y = (y.stream cfg n, y.after n y.carry) := by
  induction n generalizing y with
  | zero => rfl
  | succ n ih =>
    simp only [Syn.computeFrames, ih]
    congr 1
    · rw [Nat.add_comm, Syn.stream_add cfg y 1 n y.carry, Syn.advance_eq]
      simp [Syn.stream, Syn.nextFrame_eq]
    · simp only [Syn.after, Syn.thetaAt_advance]; rfl

theorem framesFor_mul {f q : Nat} (hf : 0 < f) : framesFor f (q * f) = q := by
  unfold framesFor
  rw [Nat.add_sub_assoc hf, Nat.add_comm, Nat.add_mul_div_right _ _ hf, Nat.div_eq_of_lt (by omega), Nat.zero_add]

theorem framesFor_mul_add {f q r : Nat} (hr : 0 < r) (hf : r < f) : framesFor f (q * f + r) = q + 1 := by
  unfold framesFor
  rw [show q * f + r + f - 1 = (r - 1) + (q + 1) * f by rw [Nat.add_mul]; omega, Nat.add_mul_div_right _ _ (by omega),
    Nat.div_eq_of_lt (by omega), Nat.zero_add]

/-- `framesFor` is the least number of frames that hold `n` bytes. -/
theorem framesFor_spec {f n : Nat} (hf : 0 < f) : n ≤ framesFor f n * f ∧ framesFor f n * f < n + f := by
  unfold framesFor
  have := Nat.div_add_mod (n + f - 1) f
  have h2 := Nat.mod_lt (n + f - 1) hf
  rw [Nat.mul_comm] at this
  omega

theorem framesFor_unique {f n m : Nat} (hf : 0 < f) (h1 : n ≤ m * f) (h2 : m * f < n + f) : framesFor f n = m := by
  obtain ⟨h3, h4⟩ := framesFor_spec (n := n) hf
  by_contra hc
  rcases Nat.lt_or_gt_of_ne hc with h | h
  · have : (framesFor f n + 1) * f ≤ m * f := Nat.mul_le_mul_right _ h
    rw [Nat.add_mul] at this; omega
  · have : (m + 1) * f ≤ framesFor f n * f := Nat.mul_le_mul_right _ h
    rw [Nat.add_mul] at this; omega

/-- What a fill is: the first `len` bytes of the carry and then the stream, as many frames as that takes, and the rest of them as
the new carry. -/
theorem Syn.generate_eq {cfg : Config} {y : Syn} (len : Nat) (hf : 0 < y.frame.toNat)
    (hy : y.frame.toNat = y.actChannels.toNat * (y.actBits.toNat / 8)) :
    let m := framesFor y.frame.toNat (len - y.carry.length)
    let all := y.carry ++ y.stream cfg m
    y.generate cfg len = (all.take len, y.after m (all.drop len)) := by
  intro m all
  have hm := Nat.div_add_mod (len - y.carry.length) y.frame.toNat
  rw [Nat.mul_comm] at hm
  have hk : len - min len y.carry.length = len - y.carry.length := by omega
  have hs : ∀ n, (y.stream cfg n).length = n * y.frame.toNat := fun n => by rw [Syn.stream_length, hy]
  have hthe : ∀ n c, ({ y with carry := c } : Syn).stream cfg n = y.stream cfg n := by
    intro n c
    have := Syn.stream_add cfg y 0 n c
    simpa [Syn.stream, Syn.after, Syn.thetaAt] using this.symm
  have htheta : ∀ n c, ({ y with carry := c } : Syn).thetaAt n = y.thetaAt n := by
    intro n c
    have := Syn.thetaAt_after y 0 n c
    simpa [Syn.after, Syn.thetaAt] using this
  have h1 : ∀ r, y.carry.take (min len y.carry.length) ++ r = y.carry.take len ++ r := by
    intro r; rw [← List.take_take, List.take_length]
  unfold Syn.generate
  simp only [Syn.computeFrames_eq, hk, hthe, h1]
  generalize hq : (len - y.carry.length) / y.frame.toNat = q at *
  have hsq := hs q
  by_cases ht : (len - y.carry.length) % y.frame.toNat = 0
  · rw [if_pos ht]
    have em : m = q := by
      simp only [m]; rw [← hm, ht, Nat.add_zero]; exact framesFor_mul hf
    simp only [all, em]
    rw [List.take_append, List.drop_append, List.take_of_length_le (l := y.stream cfg q) (by omega),
      List.drop_of_length_le (l := y.stream cfg q) (by omega)]
    simp only [Syn.after, htheta]
    refine Prod.ext rfl ?_
    simp only [Syn.mk.injEq, true_and, List.append_nil]
    rcases Nat.le_total len y.carry.length with h | h
    · rw [Nat.min_eq_left h]
    · rw [Nat.min_eq_right h, List.drop_of_length_le h, List.drop_of_length_le le_rfl]
  · rw [if_neg ht]
    have hlt := Nat.mod_lt (len - y.carry.length) hf
    have em : m = q + 1 := by
      simp only [m]; rw [← hm]; exact framesFor_mul_add (by omega) hlt
    generalize (len - y.carry.length) % y.frame.toNat = r at *
    have hl : y.carry.length ≤ len := by omega
    simp only [all, em]
    rw [Syn.stream_succ, List.take_append, List.drop_append, List.take_append, List.drop_append,
      List.take_of_length_le (l := y.stream cfg q) (by omega), List.drop_of_length_le (l := y.stream cfg q) (by omega),
      List.drop_of_length_le hl]
    have er : len - y.carry.length - (y.stream cfg q).length = r := by omega
    rw [er]
    have hfr : ({ y with carry := y.carry.drop (min len y.carry.length) } : Syn).after q (y.carry.drop (min len y.carry.length))
        = y.after q (y.carry.drop (min len y.carry.length)) := by simp only [Syn.after, htheta]
    simp only [Syn.after, htheta, List.nil_append] at hfr ⊢
    have hF := Syn.frameAt_after cfg y q 0 (y.carry.drop (min len y.carry.length))
    simp only [Syn.after, Nat.add_zero] at hF
    rw [Syn.nextFrame_eq, hF]
    rfl

end Sys2Proof.Machine
end

