-- ==== Sys2Proof/Laws/PerInstr.lean ====
section
/-! SUPPORT. Laws/PerInstr.lean: a statement made for every instruction, one lemma for each constructor of `Instr`. -/

namespace Sys2Proof.Laws

/-- The command word of an instruction's encoding has RSV clear, and an OPC of the table that the encoding's interface accepts
(30_encoding.md R90, R95, R96). -/
def ReservedClear.Statement (i : Instr) : Prop :=
  rsvField (encode i).cw = 0
    ∧ (Opcode.ofCode? (opcField (encode i).cw)).map Opcode.iface = some (encode i).iface

theorem ReservedClear.of_commandWord {i : Instr} {op : Opcode} {sel : BitVec 8} {flag : Bool}
    (h : (encode i).cw = commandWord op sel flag) (hi : (encode i).iface = op.iface) : ReservedClear.Statement i := by
  refine ⟨by rw [h, rsvField_commandWord], ?_⟩
  rw [h, opcField_commandWord, Opcode.ofCode?_code, hi]
  rfl

theorem ReservedClear.synInit : ReservedClear.Statement (.synInit) :=
  ReservedClear.of_commandWord (op := .synInit) rfl rfl
theorem ReservedClear.synGen (n : BitVec 32) : ReservedClear.Statement (.synGen n) :=
  ReservedClear.of_commandWord (op := .synGen) rfl rfl
theorem ReservedClear.synWreg (r : BitVec 8) (v : BitVec 64) : ReservedClear.Statement (.synWreg r v) :=
  ReservedClear.of_commandWord (op := .synWreg) rfl rfl
theorem ReservedClear.synRreg (r : BitVec 8) : ReservedClear.Statement (.synRreg r) :=
  ReservedClear.of_commandWord (op := .synRreg) rfl rfl
theorem ReservedClear.chCreate (p : BitVec 8) (b : Bool) : ReservedClear.Statement (.chCreate p b) :=
  ReservedClear.of_commandWord (op := .chCreate) rfl rfl
theorem ReservedClear.chWrite (p : BitVec 8) (n : BitVec 32) (bytes : List Byte) : ReservedClear.Statement (.chWrite p n bytes) :=
  ReservedClear.of_commandWord (op := .chWrite) rfl rfl
theorem ReservedClear.chClosep (p : BitVec 8) : ReservedClear.Statement (.chClosep p) :=
  ReservedClear.of_commandWord (op := .chClosep) rfl rfl
theorem ReservedClear.chRead (p : BitVec 8) (n : BitVec 32) : ReservedClear.Statement (.chRead p n) :=
  ReservedClear.of_commandWord (op := .chRead) rfl rfl
theorem ReservedClear.chClosec (p : BitVec 8) : ReservedClear.Statement (.chClosec p) :=
  ReservedClear.of_commandWord (op := .chClosec) rfl rfl
theorem ReservedClear.cqOpen : ReservedClear.Statement (.cqOpen) :=
  ReservedClear.of_commandWord (op := .cqOpen) rfl rfl
theorem ReservedClear.cqClose : ReservedClear.Statement (.cqClose) :=
  ReservedClear.of_commandWord (op := .cqClose) rfl rfl
theorem ReservedClear.cqInfo (n : BitVec 32) : ReservedClear.Statement (.cqInfo n) :=
  ReservedClear.of_commandWord (op := .cqInfo) rfl rfl
theorem ReservedClear.cqStatus (n : BitVec 32) : ReservedClear.Statement (.cqStatus n) :=
  ReservedClear.of_commandWord (op := .cqStatus) rfl rfl
theorem ReservedClear.cqMute (m : Bool) : ReservedClear.Statement (.cqMute m) :=
  ReservedClear.of_commandWord (op := .cqMute) rfl rfl

end Sys2Proof.Laws
end

