-- ==== Sys2Proof/Laws/Sine.lean ====
section
/-! SUPPORT. Laws/Sine.lean: how near the fixed-point sums of Machine/Sine.lean are to the real sine, the real 2π and the sine of a
binary64 argument of any size. -/

namespace Sys2Proof

/-! ### The series of the sine -/

/-- The partial sums of the sine series in reals, by the recursion of `sinSeries`. -/
noncomputable def sinPartial (t : ℝ) : Nat → Nat → ℝ → ℝ
  | 0, _, _ => 0
  | k + 1, n, u => u - sinPartial t k (n + 2) (u * t ^ 2 / ((n + 1) * (n + 2)))

/-- A bound of the error the floors make, by the same recursion: `δ` is the error of the next term. -/
def sinError : Nat → Nat → Nat → Nat
  | 0, _, _ => 0
  | k + 1, n, δ => δ + sinError k (n + 2) (δ * 64 / ((n + 1) * (n + 2)) + 2)

theorem sinSeries_error {a : Nat} {t : ℝ} (ht : t = a / 2 ^ sinScale) (h8 : t ≤ 8) (k n δ term : Nat) (u : ℝ)
    (h : |(term : ℝ) - u| ≤ δ) :
    |(sinSeries (a * a) k n term : ℝ) - sinPartial t k n u| ≤ sinError k n δ := by
  induction k generalizing n δ term u with
  | zero => simp [sinSeries, sinPartial, sinError]
  | succ k ih =>
    have h0 : 0 ≤ t := by rw [ht]; positivity
    have hD : (0 : ℝ) < (n + 1) * (n + 2) := by positivity
    have key : |((term * (a * a) / 2 ^ (2 * sinScale) / ((n + 1) * (n + 2)) : Nat) : ℝ) - u * t ^ 2 / ((n + 1) * (n + 2))|
        ≤ ((δ * 64 / ((n + 1) * (n + 2)) + 2 : Nat) : ℝ) := by
      rw [Nat.div_div_eq_div_mul]
      have e : ((term * (a * a) : Nat) : ℝ) / ((2 ^ (2 * sinScale) * ((n + 1) * (n + 2)) : Nat) : ℝ)
          = term * t ^ 2 / ((n + 1) * (n + 2)) := by
        rw [ht]; push_cast [sinScale]; field_simp
      have f1 := Nat.floor_div_eq_div (K := ℝ) (term * (a * a)) (2 ^ (2 * sinScale) * ((n + 1) * (n + 2)))
      rw [e] at f1
      rw [← f1]
      have g0 : (0 : ℝ) ≤ term * t ^ 2 / ((n + 1) * (n + 2)) := by positivity
      have g1 := Nat.floor_le g0
      have g2 := Nat.lt_floor_add_one ((term : ℝ) * t ^ 2 / ((n + 1) * (n + 2)))
      have g3 : |(term : ℝ) * t ^ 2 / ((n + 1) * (n + 2)) - u * t ^ 2 / ((n + 1) * (n + 2))|
          ≤ (δ : ℝ) * 64 / ((n + 1) * (n + 2)) := by
        rw [← sub_div, ← sub_mul, abs_div, abs_mul, abs_of_pos hD, abs_of_nonneg (sq_nonneg t)]
        have ht2 : t ^ 2 ≤ 64 := by nlinarith
        gcongr
      have g4 : (δ : ℝ) * 64 / ((n + 1) * (n + 2)) ≤ ((δ * 64 / ((n + 1) * (n + 2)) : Nat) : ℝ) + 1 := by
        have f2 := Nat.floor_div_eq_div (K := ℝ) (δ * 64) ((n + 1) * (n + 2))
        rw [← f2]
        push_cast
        exact (Nat.lt_floor_add_one _).le
      push_cast at g4 ⊢
      rw [abs_le] at g3 ⊢
      constructor <;> linarith [g3.1, g3.2]
    have := ih (n + 2) _ _ _ key
    simp only [sinSeries, sinPartial, sinError]
    push_cast
    calc _ = |((term : ℝ) - u) - (((sinSeries (a * a) k (n + 2)
            (term * (a * a) / 2 ^ (2 * sinScale) / ((n + 1) * (n + 2))) : Int) : ℝ)
            - sinPartial t k (n + 2) (u * t ^ 2 / ((n + 1) * (n + 2))))| := by congr 1; ring
      _ ≤ _ := (abs_sub _ _).trans (add_le_add h this)

theorem sinPartial_eq (t c : ℝ) (k n : Nat) :
    sinPartial t k n (c * (t ^ n / n.factorial)) =
      c * ∑ j ∈ Finset.range k, (-1) ^ j * (t ^ (n + 2 * j) / (n + 2 * j).factorial) := by
  induction k generalizing n with
  | zero => simp [sinPartial]
  | succ k ih =>
    have e : c * (t ^ n / n.factorial) * t ^ 2 / ((n + 1) * (n + 2)) = c * (t ^ (n + 2) / (n + 2).factorial) := by
      rw [show (n + 2).factorial = (n + 2) * ((n + 1) * n.factorial) from rfl]
      push_cast
      have := n.factorial_ne_zero
      field_simp
      ring
    rw [sinPartial, e, ih, Finset.sum_range_succ', mul_add, sub_eq_neg_add, ← mul_neg, ← Finset.sum_neg_distrib]
    congr 1
    · congr 1
      refine Finset.sum_congr rfl fun j _ => ?_
      rw [show n + 2 + 2 * j = n + 2 * (j + 1) by ring, pow_succ]; ring
    · simp

theorem sin_series_sum (t : ℝ) (k : Nat) :
    (∑ m ∈ Finset.range (2 * k), (t * Complex.I) ^ m / (m.factorial : ℂ)).im =
      ∑ j ∈ Finset.range k, (-1) ^ j * (t ^ (1 + 2 * j) / (1 + 2 * j).factorial) := by
  induction k with
  | zero => simp
  | succ k ih =>
    rw [show 2 * (k + 1) = 2 * k + 1 + 1 by ring, Finset.sum_range_succ, Finset.sum_range_succ, Finset.sum_range_succ,
      Complex.add_im, Complex.add_im, ih]
    have e1 : ((t : ℂ) * Complex.I) ^ (2 * k) = (((-1) ^ k * t ^ (2 * k) : ℝ) : ℂ) := by
      rw [mul_pow, pow_mul Complex.I, Complex.I_sq]; push_cast; ring
    have e2 : ((t : ℂ) * Complex.I) ^ (2 * k + 1) = (((-1) ^ k * t ^ (2 * k + 1) : ℝ) : ℂ) * Complex.I := by
      rw [pow_succ, e1]; push_cast; ring
    have h1 : (((t : ℂ) * Complex.I) ^ (2 * k) / ((2 * k).factorial : ℂ)).im = 0 := by
      rw [e1, ← Complex.ofReal_natCast, ← Complex.ofReal_div, Complex.ofReal_im]
    have h2 : (((t : ℂ) * Complex.I) ^ (2 * k + 1) / ((2 * k + 1).factorial : ℂ)).im
        = (-1) ^ k * t ^ (2 * k + 1) / (2 * k + 1).factorial := by
      rw [e2, mul_div_right_comm, ← Complex.ofReal_natCast, ← Complex.ofReal_div, Complex.im_ofReal_mul, Complex.I_im,
        mul_one]
    rw [h1, h2, add_zero, Nat.add_comm 1 (2 * k), mul_div_assoc]

theorem sin_taylor {t : ℝ} (h0 : 0 ≤ t) (h8 : t ≤ 8) :
    |(∑ j ∈ Finset.range 70, (-1) ^ j * (t ^ (1 + 2 * j) / (1 + 2 * j).factorial)) - Real.sin t| ≤ 1 / 2 ^ sinScale := by
  have hn : ‖(t : ℂ) * Complex.I‖ = t := by simp [abs_of_nonneg h0]
  have hb := Complex.exp_bound' (x := (t : ℂ) * Complex.I) (n := 140) (by rw [hn]; norm_num; linarith)
  rw [hn] at hb
  have him := (Complex.abs_im_le_norm _).trans hb
  rw [Complex.sub_im, show (140 : Nat) = 2 * 70 from rfl, sin_series_sum, Complex.exp_ofReal_mul_I_im, abs_sub_comm] at him
  refine him.trans ?_
  have : t ^ (2 * 70) ≤ 8 ^ 140 := pow_le_pow_left₀ h0 h8 _
  calc t ^ (2 * 70) / ((2 * 70).factorial : ℝ) * 2 ≤ 8 ^ 140 / ((2 * 70).factorial : ℝ) * 2 := by gcongr
    _ ≤ _ := by
      rw [div_mul_eq_mul_div, div_le_div_iff₀ (by positivity) (by positivity)]
      have : 8 ^ 140 * 2 * 2 ^ sinScale ≤ 1 * (2 * 70).factorial := by decide +kernel
      exact_mod_cast this

/-- The fixed-point sine of an argument in [0, 8]. -/
theorem sinSeries_near {a : Nat} (h8 : (a : ℝ) / 2 ^ sinScale ≤ 8) :
    |(sinSeries (a * a) 70 1 a : ℝ) / 2 ^ sinScale - Real.sin (a / 2 ^ sinScale)| ≤ 1024 / 2 ^ sinScale := by
  set t : ℝ := a / 2 ^ sinScale with ht
  have h0 : 0 ≤ t := by positivity
  have h1 := sinSeries_error ht h8 70 1 0 a a (by simp)
  have e : sinPartial t 70 1 (a : ℝ) =
      2 ^ sinScale * ∑ j ∈ Finset.range 70, (-1) ^ j * (t ^ (1 + 2 * j) / (1 + 2 * j).factorial) := by
    rw [← sinPartial_eq]
    congr 1
    rw [ht]; simp; field_simp
  rw [e] at h1
  have hd : sinError 70 1 0 ≤ 1023 := by decide +kernel
  have hd' : (sinError 70 1 0 : ℝ) ≤ 1023 := by exact_mod_cast hd
  have h2 := sin_taylor h0 h8
  have hp : (0 : ℝ) < 2 ^ sinScale := by positivity
  set S := ∑ j ∈ Finset.range 70, (-1) ^ j * (t ^ (1 + 2 * j) / (1 + 2 * j).factorial)
  have h3 : |(sinSeries (a * a) 70 1 a : ℝ) / 2 ^ sinScale - S| ≤ 1023 / 2 ^ sinScale := by
    rw [show (sinSeries (a * a) 70 1 a : ℝ) / 2 ^ sinScale - S =
        ((sinSeries (a * a) 70 1 a : ℝ) - 2 ^ sinScale * S) / 2 ^ sinScale by
      field_simp, abs_div, abs_of_pos hp]
    gcongr
    linarith
  calc _ = |((sinSeries (a * a) 70 1 a : ℝ) / 2 ^ sinScale - S) + (S - Real.sin t)| := by congr 1; ring
    _ ≤ 1023 / 2 ^ sinScale + 1 / 2 ^ sinScale := (abs_add_le _ _).trans (add_le_add h3 h2)
    _ = _ := by ring

/-! ### The turn -/

/-- The partial sums of the series of the arctangent in reals, by the recursion of `arctanSeries`. -/
noncomputable def arctanPartial (q : ℝ) : Nat → Nat → ℝ → ℝ
  | 0, _, _ => 0
  | k + 1, n, u => u / n - arctanPartial q k (n + 2) (u * q)

theorem floor_div_error {a b : Nat} {u w : ℝ} (hb : 0 < b) (hw : u * w = u / b) (h : |(a : ℝ) - u| ≤ 2) :
    |((a / b : Nat) : ℝ) - u * w| ≤ 2 / b + 1 := by
  have hb' : (0 : ℝ) < b := by exact_mod_cast hb
  have f := Nat.floor_div_eq_div (K := ℝ) a b
  have g0 : (0 : ℝ) ≤ (a : ℝ) / b := by positivity
  have g1 := Nat.floor_le g0
  have g2 := Nat.lt_floor_add_one ((a : ℝ) / b)
  rw [f] at g1 g2
  have g3 : |(a : ℝ) / b - u / b| ≤ 2 / b := by
    rw [← sub_div, abs_div, abs_of_pos hb']; gcongr
  rw [hw]
  rw [abs_le] at g3 ⊢
  constructor <;> linarith [g3.1, g3.2]

theorem arctanSeries_error {m2 : Nat} {q : ℝ} (hm : 2 ≤ m2) (hq : q = 1 / m2) (k n power : Nat) (hn : 0 < n) (u : ℝ)
    (h : |(power : ℝ) - u| ≤ 2) :
    |(arctanSeries m2 k n power : ℝ) - arctanPartial q k n u| ≤ 3 * k := by
  induction k generalizing n power u with
  | zero => simp [arctanSeries, arctanPartial]
  | succ k ih =>
    have h1 := floor_div_error (w := 1 / n) hn (by ring) h
    have h2 := floor_div_error (b := m2) (w := q) (by omega) (by rw [hq]; ring) h
    have hm' : (2 : ℝ) ≤ m2 := by exact_mod_cast hm
    have hn' : (1 : ℝ) ≤ n := by exact_mod_cast hn
    have h3 : (2 : ℝ) / m2 ≤ 1 := by rw [div_le_one (by linarith)]; exact hm'
    have h4 : (2 : ℝ) / n ≤ 2 := by rw [div_le_iff₀ (by linarith)]; linarith
    have := ih (n + 2) (power / m2) (by omega) (u * q) (by linarith)
    simp only [arctanSeries, arctanPartial]
    rw [Int.cast_sub, Int.cast_natCast]
    rw [Nat.cast_succ]
    calc _ = |(((power / n : Nat) : ℝ) - u * (1 / n)) - (((arctanSeries m2 k (n + 2) (power / m2) : Int) : ℝ)
            - arctanPartial q k (n + 2) (u * q))| := by congr 1; ring
      _ ≤ 3 + 3 * k := (abs_sub _ _).trans (add_le_add (by linarith) this)
      _ = _ := by ring

theorem arctanPartial_eq (x c : ℝ) (k n : Nat) :
    arctanPartial (x ^ 2) k n (c * x ^ n) =
      c * ∑ j ∈ Finset.range k, (-1) ^ j * (x ^ (n + 2 * j) / ((n + 2 * j : Nat) : ℝ)) := by
  induction k generalizing n with
  | zero => simp [arctanPartial]
  | succ k ih =>
    rw [arctanPartial, show c * x ^ n * x ^ 2 = c * x ^ (n + 2) by ring, ih, Finset.sum_range_succ', mul_add,
      sub_eq_neg_add, ← mul_neg, ← Finset.sum_neg_distrib]
    congr 1
    · congr 1
      refine Finset.sum_congr rfl fun j _ => ?_
      rw [show n + 2 + 2 * j = n + 2 * (j + 1) by ring, pow_succ]; ring
    · simp; ring

theorem arctan_taylor {x : ℝ} (h0 : 0 ≤ x) (h1 : x ≤ 1 / 2) (k : Nat) :
    |(∑ j ∈ Finset.range k, (-1) ^ j * (x ^ (1 + 2 * j) / ((1 + 2 * j : Nat) : ℝ))) - Real.arctan x|
      ≤ 2 * (x ^ 2) ^ k := by
  have hx : ‖x‖ < 1 := by rw [Real.norm_of_nonneg h0]; linarith
  have hq : x ^ 2 ≤ 1 / 4 := by nlinarith
  have hs : HasSum (fun j : Nat => (-1) ^ j * (x ^ (1 + 2 * j) / ((1 + 2 * j : Nat) : ℝ))) (Real.arctan x) := by
    have := Real.hasSum_arctan hx
    refine this.congr_fun fun j => ?_
    rw [Nat.add_comm 1]; push_cast; ring
  have hb := norm_sub_le_of_geometric_bound_of_hasSum (r := x ^ 2) (C := 1) (by linarith) (fun j => ?_) hs k
  · rw [Real.norm_eq_abs] at hb
    refine hb.trans ?_
    rw [one_mul, div_le_iff₀ (by linarith)]
    have : 0 ≤ (x ^ 2) ^ k := by positivity
    nlinarith
  · rw [norm_mul, norm_pow, norm_neg, norm_one, one_pow, one_mul, one_mul, Real.norm_of_nonneg (by positivity), pow_add,
      pow_mul, pow_one]
    have hj : (1 : ℝ) ≤ ((1 + 2 * j : Nat) : ℝ) := by exact_mod_cast Nat.le_add_right 1 _
    rw [div_le_iff₀ (by linarith)]
    have : 0 ≤ (x ^ 2) ^ j := by positivity
    nlinarith

/-- The fixed-point arctangent of 1/m. -/
theorem arctanSeries_near {m k : Nat} (hm : 2 ≤ m) (hk : 2 ^ turnScale ≤ (m ^ 2) ^ k) :
    |(arctanSeries (m ^ 2) k 1 (2 ^ turnScale / m) : ℝ) / 2 ^ turnScale - Real.arctan (m : ℝ)⁻¹|
      ≤ (3 * k + 2) / 2 ^ turnScale := by
  have hm' : (2 : ℝ) ≤ m := by exact_mod_cast hm
  have h2 : 2 ≤ m ^ 2 := by nlinarith
  have hp : (0 : ℝ) < 2 ^ turnScale := by positivity
  set x : ℝ := (m : ℝ)⁻¹ with hx
  have e := arctanPartial_eq x (2 ^ turnScale) k 1
  rw [pow_one] at e
  have h1 := arctanSeries_error (m2 := m ^ 2) (q := x ^ 2) h2 (by rw [hx]; push_cast; rw [inv_pow, one_div]) k 1
    (2 ^ turnScale / m)
    Nat.one_pos (2 ^ turnScale * x) (by
      have f := Nat.floor_div_eq_div (K := ℝ) (2 ^ turnScale) m
      have g0 : (0 : ℝ) ≤ ((2 ^ turnScale : Nat) : ℝ) / m := by positivity
      have g1 := Nat.floor_le g0
      have g2 := Nat.lt_floor_add_one (((2 ^ turnScale : Nat) : ℝ) / m)
      rw [f] at g1 g2
      have : ((2 ^ turnScale : Nat) : ℝ) / m = 2 ^ turnScale * x := by rw [hx]; push_cast; rw [div_eq_mul_inv]
      rw [this] at g1 g2
      rw [abs_le]; constructor <;> linarith)
  rw [e] at h1
  have h3 := arctan_taylor (x := x) (by positivity) (by rw [hx, one_div]; gcongr) k
  have h4 : 2 * (x ^ 2) ^ k ≤ 2 / 2 ^ turnScale := by
    rw [hx, inv_pow, inv_pow, ← div_eq_mul_inv]
    gcongr
    exact_mod_cast hk
  set S := ∑ j ∈ Finset.range k, (-1) ^ j * (x ^ (1 + 2 * j) / ((1 + 2 * j : Nat) : ℝ))
  have h5 : |(arctanSeries (m ^ 2) k 1 (2 ^ turnScale / m) : ℝ) / 2 ^ turnScale - S| ≤ 3 * k / 2 ^ turnScale := by
    rw [show (arctanSeries (m ^ 2) k 1 (2 ^ turnScale / m) : ℝ) / 2 ^ turnScale - S
      = ((arctanSeries (m ^ 2) k 1 (2 ^ turnScale / m) : ℝ) - 2 ^ turnScale * S) / 2 ^ turnScale by field_simp,
      abs_div, abs_of_pos hp]
    gcongr
  calc _ = |((arctanSeries (m ^ 2) k 1 (2 ^ turnScale / m) : ℝ) / 2 ^ turnScale - S) + (S - Real.arctan x)| := by congr 1; ring
    _ ≤ 3 * k / 2 ^ turnScale + 2 / 2 ^ turnScale := (abs_add_le _ _).trans (add_le_add h5 (h3.trans h4))
    _ = _ := by ring

/-- The fixed-point turn is 2π to within 2^-1484, and lies between 6 and 7. -/
theorem twoPiFixed_near :
    |(twoPiFixed : ℝ) / 2 ^ turnScale - 2 * Real.pi| ≤ 2 ^ 16 / 2 ^ turnScale
      ∧ 6 * 2 ^ turnScale ≤ twoPiFixed ∧ twoPiFixed ≤ 7 * 2 ^ turnScale := by
  refine ⟨?_, by decide +kernel, by decide +kernel⟩
  have h5 := arctanSeries_near (m := 5) (k := 330) (by norm_num) (by decide +kernel)
  have h239 := arctanSeries_near (m := 239) (k := 100) (by norm_num) (by decide +kernel)
  have hM := Real.four_mul_arctan_inv_5_sub_arctan_inv_239
  have hp : (0 : ℝ) < 2 ^ turnScale := by positivity
  have hpos : 0 ≤ 32 * arctanSeries (5 ^ 2) 330 1 (2 ^ turnScale / 5)
      - 8 * arctanSeries (239 ^ 2) 100 1 (2 ^ turnScale / 239) := by
    decide +kernel
  have e : (twoPiFixed : ℝ) = 32 * (arctanSeries (5 ^ 2) 330 1 (2 ^ turnScale / 5) : ℝ)
      - 8 * (arctanSeries (239 ^ 2) 100 1 (2 ^ turnScale / 239) : ℝ) := by
    have : ((twoPiFixed : Int) : ℝ) = _ := congrArg _ (Int.toNat_of_nonneg hpos)
    push_cast at this
    exact this
  push_cast at h5 h239
  rw [e]
  generalize (arctanSeries (5 ^ 2) 330 1 (2 ^ turnScale / 5) : ℝ) = A at *
  generalize (arctanSeries (239 ^ 2) 100 1 (2 ^ turnScale / 239) : ℝ) = B at *
  have : (32 * A - 8 * B) / 2 ^ turnScale - 2 * Real.pi
      = 32 * (A / 2 ^ turnScale - Real.arctan 5⁻¹) - 8 * (B / 2 ^ turnScale - Real.arctan 239⁻¹) := by
    linear_combination 8 * hM
  rw [this]
  have k1 : (0 : ℝ) < 1 / 2 ^ turnScale := by positivity
  have e1 : ((3 : ℝ) * 330 + 2) / 2 ^ turnScale = 992 * (1 / 2 ^ turnScale) := by ring
  have e2 : ((3 : ℝ) * 100 + 2) / 2 ^ turnScale = 302 * (1 / 2 ^ turnScale) := by ring
  have e3 : (2 : ℝ) ^ 16 / 2 ^ turnScale = 65536 * (1 / 2 ^ turnScale) := by ring
  rw [e1] at h5; rw [e2] at h239; rw [e3]
  rw [abs_le] at *
  constructor <;> linarith [h5.1, h5.2, h239.1, h239.2]

/-! ### The argument -/

/-- What the series is given for a magnitude from 2^-26 on: a number in [0, 8] whose sine is that of the argument. -/
theorem sinArgument_near {x : F64} (hx : F64.isFinite x = true) (h : 2 ^ (1074 - 26) ≤ F64.mag x) :
    (sinArgument (F64.mag x) : ℝ) / 2 ^ sinScale ≤ 8
      ∧ |Real.sin (sinArgument (F64.mag x) / 2 ^ sinScale) - Real.sin (F64.mag x / F64.unitsPerOne)| ≤ 2 / 2 ^ sinScale := by
  have eU : (F64.unitsPerOne : ℝ) = 2 ^ 1074 := by rw [F64.unitsPerOne, Nat.cast_pow, Nat.cast_ofNat]
  rw [eU]
  have hmax := F64.mag_le_of_isFinite hx
  have hdvd : 2 ^ (1074 - 26 - 52) ∣ F64.mag x :=
    F64.mag_dvd hx (by rw [← show 1074 - 26 = 52 + (1074 - 26 - 52) from rfl]; exact h)
  generalize F64.mag x = m at *
  unfold sinArgument
  split
  · rename_i hlt
    have hd : 2 ^ (1074 - sinScale) ∣ m := (pow_dvd_pow 2 (by decide)).trans hdvd
    have e : ((m / 2 ^ (1074 - sinScale) : Nat) : ℝ) / 2 ^ sinScale = (m : ℝ) / 2 ^ 1074 := by
      rw [Nat.cast_div hd (by positivity), div_div]
      congr 1
      rw [Nat.cast_pow, Nat.cast_ofNat, ← pow_add]; rfl
    rw [e, sub_self, abs_zero]
    refine ⟨?_, by positivity⟩
    rw [div_le_iff₀ (by positivity)]
    have : m ≤ 8 * 2 ^ 1074 := by
      rw [show ∀ k, 8 * 2 ^ k = 2 ^ (k + 3) from fun k => by rw [pow_add]; ring]; exact hlt.le
    exact_mod_cast this
  · obtain ⟨hT, hT6, hT7⟩ := twoPiFixed_near
    have hP : (0 : ℝ) < 2 ^ turnScale := by positivity
    have hTpos : 0 < twoPiFixed := lt_of_lt_of_le (by positivity) hT6
    have hdm := Nat.div_add_mod (m * 2 ^ (turnScale - 1074)) twoPiFixed
    have hr := Nat.mod_lt (m * 2 ^ (turnScale - 1074)) hTpos
    set R := m * 2 ^ (turnScale - 1074) % twoPiFixed
    set q := m * 2 ^ (turnScale - 1074) / twoPiFixed with hq
    have hq' : q ≤ 2 ^ 1022 := by
      rw [hq]
      apply Nat.div_le_of_le_mul
      calc m * 2 ^ (turnScale - 1074) ≤ (2 ^ 53 - 1) * 2 ^ 2045 * 2 ^ (turnScale - 1074) := Nat.mul_le_mul_right _ hmax
        _ ≤ 2 ^ 53 * 2 ^ 2045 * 2 ^ (turnScale - 1074) :=
            Nat.mul_le_mul_right _ (Nat.mul_le_mul_right _ (Nat.sub_le _ _))
        _ = 4 * (2 ^ turnScale * 2 ^ 1022) := by
          rw [show (4 : Nat) = 2 ^ 2 from rfl, ← pow_add, ← pow_add, ← pow_add, ← pow_add]
          exact congrArg (2 ^ ·) (by decide : 53 + 2045 + (turnScale - 1074) = 2 + (turnScale + 1022))
        _ ≤ 6 * 2 ^ turnScale * 2 ^ 1022 := by rw [Nat.mul_assoc]; exact Nat.mul_le_mul_right _ (by norm_num)
        _ ≤ _ := Nat.mul_le_mul_right _ hT6
    have f := Nat.floor_div_eq_div (K := ℝ) R (2 ^ (turnScale - sinScale))
    have g0 : (0 : ℝ) ≤ (R : ℝ) / ((2 ^ (turnScale - sinScale) : Nat) : ℝ) :=
      div_nonneg (Nat.cast_nonneg _) (Nat.cast_nonneg _)
    have g1 := Nat.floor_le g0
    have g2 := Nat.lt_floor_add_one ((R : ℝ) / ((2 ^ (turnScale - sinScale) : Nat) : ℝ))
    rw [f] at g1 g2
    have hs : (0 : ℝ) < 2 ^ sinScale := by positivity
    have eR : (R : ℝ) / ((2 ^ (turnScale - sinScale) : Nat) : ℝ) = (R : ℝ) / 2 ^ turnScale * 2 ^ sinScale := by
      rw [Nat.cast_pow, Nat.cast_ofNat, show (2 : ℝ) ^ turnScale = 2 ^ (turnScale - sinScale) * 2 ^ sinScale by rw [← pow_add]; rfl]
      field_simp
    rw [eR] at g1 g2
    set a := R / 2 ^ (turnScale - sinScale)
    have hR7 : (R : ℝ) / 2 ^ turnScale ≤ 7 := by
      rw [div_le_iff₀ hP]
      exact_mod_cast hr.le.trans hT7
    have ha1 : (a : ℝ) / 2 ^ sinScale ≤ (R : ℝ) / 2 ^ turnScale := by rw [div_le_iff₀ hs]; exact g1
    have ha2 : (R : ℝ) / 2 ^ turnScale ≤ (a : ℝ) / 2 ^ sinScale + 1 / 2 ^ sinScale := by
      rw [← add_div, le_div_iff₀ hs]; exact g2.le
    refine ⟨by linarith, ?_⟩
    have eX : (m : ℝ) / 2 ^ 1074 = (R : ℝ) / 2 ^ turnScale + q * ((twoPiFixed : ℝ) / 2 ^ turnScale) := by
      have : (twoPiFixed : ℝ) * q + R = m * 2 ^ (turnScale - 1074) := by exact_mod_cast hdm
      rw [show (2 : ℝ) ^ turnScale = 2 ^ 1074 * 2 ^ (turnScale - 1074) by rw [← pow_add]; rfl, ← mul_div_assoc, ← add_div,
        show (R : ℝ) + q * twoPiFixed = m * 2 ^ (turnScale - 1074) by linarith]
      field_simp
    have eS : Real.sin ((m : ℝ) / 2 ^ 1074) = Real.sin ((m : ℝ) / 2 ^ 1074 - q * (2 * Real.pi)) :=
      (Real.sin_sub_nat_mul_two_pi _ q).symm
    rw [eS]
    have lip : ∀ u w : ℝ, |Real.sin u - Real.sin w| ≤ |u - w| := fun u w => by
      simpa using Real.abs_sin_sub_sin_le u w
    refine (lip _ _).trans ?_
    have hqe : |(q : ℝ) * ((twoPiFixed : ℝ) / 2 ^ turnScale - 2 * Real.pi)| ≤ 1 / 2 ^ sinScale := by
      rw [abs_mul, Nat.abs_cast]
      have : (q : ℝ) ≤ 2 ^ 1022 := by exact_mod_cast hq'
      calc (q : ℝ) * |(twoPiFixed : ℝ) / 2 ^ turnScale - 2 * Real.pi| ≤ 2 ^ 1022 * (2 ^ 16 / 2 ^ turnScale) :=
            mul_le_mul this hT (abs_nonneg _) (by positivity)
        _ ≤ _ := by
          rw [← mul_div_assoc, div_le_div_iff₀ hP hs, one_mul]
          have : 2 ^ 1022 * 2 ^ 16 * 2 ^ sinScale ≤ 2 ^ turnScale := by decide +kernel
          exact_mod_cast this
    rw [eX]
    rw [show (a : ℝ) / 2 ^ sinScale - ((R : ℝ) / 2 ^ turnScale + q * ((twoPiFixed : ℝ) / 2 ^ turnScale) - q * (2 * Real.pi))
      = ((a : ℝ) / 2 ^ sinScale - (R : ℝ) / 2 ^ turnScale) - q * ((twoPiFixed : ℝ) / 2 ^ turnScale - 2 * Real.pi) by ring]
    refine (abs_sub _ _).trans ?_
    have : |(a : ℝ) / 2 ^ sinScale - (R : ℝ) / 2 ^ turnScale| ≤ 1 / 2 ^ sinScale := by
      rw [abs_le]; constructor <;> linarith [show (0 : ℝ) ≤ 1 / 2 ^ sinScale by positivity]
    calc _ ≤ 1 / 2 ^ sinScale + 1 / 2 ^ sinScale := add_le_add this hqe
      _ = _ := by ring

/-- What the fixed-point sum of `sinReference` is: the sine of the magnitude to within 1026 units of 2^-320. -/
theorem sinFixed_near {x : F64} (hx : F64.isFinite x = true) (h : 2 ^ (1074 - 26) ≤ F64.mag x) :
    |(sinSeries (sinArgument (F64.mag x) * sinArgument (F64.mag x)) 70 1 (sinArgument (F64.mag x)) : ℝ) / 2 ^ sinScale
        - Real.sin (F64.mag x / F64.unitsPerOne)| ≤ 1026 / 2 ^ sinScale := by
  obtain ⟨h8, h2⟩ := sinArgument_near hx h
  calc _ ≤ _ := abs_sub_le _ (Real.sin (sinArgument (F64.mag x) / 2 ^ sinScale)) _
    _ ≤ 1024 / 2 ^ sinScale + 2 / 2 ^ sinScale := add_le_add (sinSeries_near h8) h2
    _ = _ := by ring

/-! ### Small arguments -/

/-- The next finite value below `m` times `2^j`: at least `2^j` units away, or half of that where `m` is the first significand of its
binade. -/
theorem F64.units_gap {z : F64} (hz : F64.isFinite z = true) {m j : Nat} (hn : j = 0 ∨ 2 ^ 52 ≤ m)
    (h : F64.units z < ((m * 2 ^ j : Nat) : Int)) :
    F64.units z + 2 ^ j ≤ ((m * 2 ^ j : Nat) : Int)
      ∨ (m = 2 ^ 52 ∧ 2 * F64.units z + 2 ^ j ≤ 2 * ((m * 2 ^ j : Nat) : Int)) := by
  rcases le_or_gt (F64.units z) 0 with h0 | h0
  · left
    by_cases hm0 : m = 0
    · subst hm0
      rcases hn with rfl | hn
      · simp at *; omega
      · omega
    · have : 2 ^ j ≤ m * 2 ^ j := Nat.le_mul_of_pos_left _ (by omega)
      have : ((2 ^ j : Nat) : Int) ≤ ((m * 2 ^ j : Nat) : Int) := by exact_mod_cast this
      push_cast at *; omega
  have hs : F64.sign z = false := by
    by_contra hc
    rw [F64.units_of_sign (by simpa using hc)] at h0; omega
  rw [F64.units_of_not_sign hs] at *
  have h' : F64.mag z < m * 2 ^ j := by exact_mod_cast h
  rcases hn with rfl | hn
  · left; simp at *; omega
  rcases hn.lt_or_eq with hlt | heq
  · left
    have : F64.mag z + 2 ^ j ≤ m * 2 ^ j := by
      by_cases hb : 2 ^ (52 + j) ≤ F64.mag z
      · obtain ⟨q, e⟩ := F64.mag_dvd hz hb
        rw [e, Nat.mul_comm] at h' ⊢
        have : q < m := Nat.lt_of_mul_lt_mul_right h'
        have : (q + 1) * 2 ^ j ≤ m * 2 ^ j := Nat.mul_le_mul_right _ this
        rw [Nat.add_mul] at this; omega
      · have : (2 ^ 52 + 1) * 2 ^ j ≤ m * 2 ^ j := Nat.mul_le_mul_right _ hlt
        rw [Nat.add_mul, ← pow_add] at this; omega
    exact_mod_cast this
  · rcases Nat.eq_zero_or_pos j with rfl | hj
    · left; simp at *; omega
    right
    refine ⟨heq.symm, ?_⟩
    have : 2 * F64.mag z + 2 ^ j ≤ 2 * (m * 2 ^ j) := by
      obtain ⟨k, rfl⟩ : ∃ k, j = k + 1 := ⟨j - 1, by omega⟩
      rw [← heq] at *
      by_cases hb : 2 ^ (52 + k) ≤ F64.mag z
      · obtain ⟨q, e⟩ := F64.mag_dvd hz hb
        rw [e, Nat.mul_comm] at h' ⊢
        rw [pow_succ 2 k] at *
        have : q < 2 ^ 53 := by
          have : q * 2 ^ k < 2 ^ 53 * 2 ^ k := by calc _ < _ := h'
              _ = _ := by ring
          exact Nat.lt_of_mul_lt_mul_right this
        have : (q + 1) * 2 ^ k ≤ 2 ^ 53 * 2 ^ k := Nat.mul_le_mul_right _ this
        nlinarith
      · rw [pow_succ 2 k] at *
        rw [pow_add] at hb
        have : 0 < 2 ^ k := by positivity
        nlinarith
    exact_mod_cast this

/-- Below 2^-26 no finite value is nearer to the sine of a magnitude than the magnitude itself. -/
theorem sin_of_small {x z : F64} (hx : F64.isFinite x = true) (hz : F64.isFinite z = true) (h : F64.mag x < 2 ^ (1074 - 26)) :
    |(F64.mag x : ℝ) / F64.unitsPerOne - Real.sin (F64.mag x / F64.unitsPerOne)|
      ≤ |(F64.units z : ℝ) / F64.unitsPerOne - Real.sin (F64.mag x / F64.unitsPerOne)| := by
  obtain ⟨m, j, e, hm, -, hn⟩ := F64.mag_form hx
  have hp : (0 : ℝ) < F64.unitsPerOne := by unfold F64.unitsPerOne; rw [Nat.cast_pow]; positivity
  have ht1 : (F64.mag x : ℝ) / F64.unitsPerOne ≤ 1 / 2 ^ 26 := by
    rw [div_le_div_iff₀ hp (by positivity)]
    have : F64.mag x * 2 ^ 26 ≤ 1 * F64.unitsPerOne := by
      have e : F64.unitsPerOne = 2 ^ (1074-26) * 2 ^ 26 := by unfold F64.unitsPerOne; rw [← pow_add]
      rw [e, Nat.one_mul]; exact Nat.mul_le_mul_right _ h.le
    exact_mod_cast this
  generalize (F64.unitsPerOne : ℝ) = U at *
  clear h
  have et : ((F64.mag x : Nat) : ℝ) / U = m * 2 ^ j / U := by rw [e]; push_cast; rfl
  set t : ℝ := F64.mag x / U with ht
  have ht0 : 0 ≤ t := by positivity
  have hs1 : Real.sin t ≤ t := Real.sin_le ht0
  have hs2 : t - t ^ 3 / 6 ≤ Real.sin t := by
    rcases ht0.eq_or_lt with h0 | h0
    · rw [← h0]; simp
    · exact Real.sin_ge_sub_cube ht0
  rw [abs_of_nonneg (by linarith)]
  by_cases hge : t ≤ F64.units z / U
  · rw [abs_of_nonneg (by linarith)]; linarith
  rw [not_le] at hge
  have hlt : F64.units z < ((m * 2 ^ j : Nat) : Int) := by
    rw [ht, div_lt_div_iff_of_pos_right hp, e] at hge
    exact_mod_cast hge
  have t2 : t ^ 2 ≤ 1 / 2 ^ 52 := by
    calc t ^ 2 ≤ (1 / 2 ^ 26) ^ 2 := by gcongr
      _ = 1 / 2 ^ 52 := by norm_num
  have t3 : t ^ 3 ≤ t / 2 ^ 52 := by
    calc t ^ 3 = t * t ^ 2 := by ring
      _ ≤ t * (1 / 2 ^ 52) := by gcongr
      _ = _ := by ring
  have hmR : (m : ℝ) < 2 ^ 53 := by exact_mod_cast hm
  have hpj : (0 : ℝ) < 2 ^ j := by positivity
  have goal : F64.units z / U ≤ t - t ^ 3 / 3 := by
    rcases F64.units_gap hz hn hlt with g | ⟨hm52, g⟩
    · have g' : (F64.units z : ℝ) + 2 ^ j ≤ m * 2 ^ j := by exact_mod_cast g
      have : (F64.units z : ℝ) / U ≤ t - 2 ^ j / U := by rw [et, ← sub_div]; gcongr; linarith
      have : t / 2 ^ 52 / 3 ≤ 2 ^ j / U := by
        rw [et, div_div, div_div, div_le_div_iff₀ (by positivity) hp]
        have : (m : ℝ) * 2 ^ j * U ≤ 2 ^ 53 * 2 ^ j * U := by gcongr
        nlinarith [mul_pos hpj hp]
      linarith
    · have g' : 2 * (F64.units z : ℝ) + 2 ^ j ≤ 2 * (m * 2 ^ j) := by exact_mod_cast g
      have : (F64.units z : ℝ) / U ≤ t - 2 ^ j / 2 / U := by rw [et, ← sub_div]; gcongr; linarith
      have : t / 2 ^ 52 / 3 ≤ 2 ^ j / 2 / U := by
        rw [et, div_div, div_div, div_div, div_le_div_iff₀ (by positivity) (by positivity), hm52]
        push_cast
        nlinarith [mul_pos hpj hp]
      linarith
  rw [abs_of_nonpos (by linarith)]
  linarith

end Sys2Proof
end

