-- ==== Sys2Proof/Laws/Waiting.lean ====
section
/-! SUPPORT. Laws/Waiting.lean: what one event does to a blocking write that waits on a pin (41_channel.md R163 to R165), said
once over every event. -/

namespace Sys2Proof.Machine

/-! ### Small facts -/

/-- Every channel of a state that meets the invariant meets its own, a pin past the last one included. -/
theorem State.Inv.channel {s : State} (hi : s.Inv) (pin : BitVec 8) : (s.channel pin).Inv s.cfg := by
  by_cases h : s.channel pin = Channel.reset
  · rw [h]; simp [Channel.reset, Channel.Inv]
  · exact hi.2.2.2.2.1 _ (State.channel_mem h).2

/-- A write waits only on a pin that exists. -/
theorem State.lt_numPins_of_pend {s : State} {pin : BitVec 8} {w : Pending} (h : (s.channel pin).pend = some w) :
    pin.toNat < s.numPins := by
  by_contra hc
  rw [State.channel_of_numPins_le (not_lt.mp hc)] at h
  cases h

/-- A state whose channels are those of `s` but for the one of another pin. -/
theorem State.channel_of_set_ne {s t : State} {pin q : BitVec 8} {c : Channel} (hq : q ≠ pin)
    (h : t.channels = s.channels.set q.toNat c) : t.channel pin = s.channel pin := by
  have e : t.channel pin = (s.setChannel q c).channel pin := by unfold State.channel; rw [h]; rfl
  rw [e, State.channel_setChannel_ne hq.symm]

/-- A state whose channels are those of `s` but for the one of this pin. -/
theorem State.channel_of_set {s t : State} {pin : BitVec 8} {c : Channel} (hp : pin.toNat < s.numPins)
    (h : t.channels = s.channels.set pin.toNat c) : t.channel pin = c := by
  have e : t.channel pin = (s.setChannel pin c).channel pin := by unfold State.channel; rw [h]; rfl
  rw [e, State.channel_setChannel_same hp]

theorem decode_encode_chRead (pin : BitVec 8) (len : BitVec 32) :
    decode (encode (.chRead pin len)) = .command (.chRead pin len) := by
  simp [opcField_commandWord, selField_commandWord, flagField_commandWord, rsvField_commandWord, Opcode.ofCode?_code, decode,
    encode, Opcode.read, shapeLen, checkFields, Opcode.iface, Opcode.usesSel, Opcode.usesFlag]

/-- A SYN or CQ command touches no channel. -/
theorem exec_channels_of_pinOf_none {i : Instr} {s t : State} (h : exec i s = .next t) (hi : pinOf i = none) :
    t.channels = s.channels := by
  cases i with
  | synInit => rcases execSynInit_eq_next h with ⟨_, rfl⟩ | ⟨_, _, rfl⟩ | ⟨_, _, _, rfl⟩ <;> rfl
  | synGen n => rcases execSynGen_eq_next h with ⟨_, rfl⟩ | ⟨_, rfl⟩ <;> rfl
  | synWreg r v => rcases execSynWreg_eq_next h with rfl | ⟨_, _, _, _, rfl⟩ <;> rfl
  | synRreg r => rcases execSynRreg_eq_next h with rfl | ⟨_, _, rfl⟩ <;> rfl
  | chCreate q b => cases hi
  | chWrite q n p => cases hi
  | chClosep q => cases hi
  | chRead q n => cases hi
  | chClosec q => cases hi
  | cqOpen => rw [execCqOpen_eq_next.mp h]; rfl
  | cqClose => rcases execCqClose_eq_next h with ⟨_, rfl⟩ | ⟨_, rfl⟩ <;> rfl
  | cqInfo n => rcases query_eq_next h with ⟨_, rfl⟩ | ⟨_, _, rfl⟩ <;> rfl
  | cqStatus n => rcases query_eq_next h with ⟨_, rfl⟩ | ⟨_, _, rfl⟩ <;> rfl
  | cqMute m => rw [execCqMute_eq_next.mp h]; rfl

/-- A CH.WRITE leaves the channel of a pin where a write waits as it is: its own is another, or it is held. -/
theorem execChWrite_channel {q pin : BitVec 8} {len : BitVec 32} {p : List Byte} {s t : State}
    (h : execChWrite q len p s = .next t) (hw : (s.channel pin).pend ≠ none) : t.channel pin = s.channel pin := by
  obtain ⟨-, h⟩ := execChWrite_eq_next h
  have other : (s.channel q).pend = none → q ≠ pin := by rintro hn rfl; exact hw hn
  rcases h with ⟨_, rfl⟩ | ⟨_, ⟨_, rfl⟩ | ⟨_, _, rfl⟩ | ⟨hn, _, ⟨_, rfl⟩ | ⟨_, _, rfl⟩ | ⟨_, _, _, rfl⟩ | ⟨_, _, _, rfl⟩⟩⟩
  · rfl
  · rfl
  · rfl
  · rfl
  · exact State.channel_of_set_ne (other hn) rfl
  · rfl
  · exact State.channel_of_set_ne (other hn) rfl

/-! ### One event -/

/-- The write waits on: its count and the bytes left add up as before, an enabled progress step enqueues at least one of them, no
other event lengthens the buffer, and a CH.READ of at least one byte leaves it below its capacity. -/
structure StillWaits (e : Event) (pin : BitVec 8) (w : Pending) (s t : State) : Prop where
  pending : ∃ w', (t.channel pin).pend = some w' ∧ w'.done + w'.rest.length = w.done + w.rest.length ∧ w.done ≤ w'.done
    ∧ (e = .progress pin → s.progressEnabled pin = true → w.done < w'.done)
  buffer : e ≠ .progress pin → (t.channel pin).buf.length ≤ (s.channel pin).buf.length
  read : ∀ len, len ≠ 0 → e = .command (encode (.chRead pin len)) → (t.channel pin).buf.length < t.cfg.fifoCapacity

/-- The wait ends with the response of R163: (a) all bytes are in, or (b) a close came. -/
def WaitEnds (pin : BitVec 8) (w : Pending) (s t : State) : Prop :=
  (t.channel pin).pend = none
    ∧ (waiterReply pin 0 (BitVec.ofNat 64 (w.done + w.rest.length)) ∈ newResponses s t
      ∨ waiterReply pin 5 (BitVec.ofNat 64 w.done) ∈ newResponses s t)

/-- An event that leaves the channel as it is, and is neither an enabled progress step nor a CH.READ of the pin. -/
theorem StillWaits.of_channel_eq {e : Event} {pin : BitVec 8} {w : Pending} {s t : State} (hw : (s.channel pin).pend = some w)
    (h : t.channel pin = s.channel pin) (hp : e = .progress pin → s.progressEnabled pin = true → False)
    (hr : ∀ len, e ≠ .command (encode (.chRead pin len))) : StillWaits e pin w s t where
  pending := ⟨w, by rw [h, hw], rfl, le_rfl, fun h1 h2 => (hp h1 h2).elim⟩
  buffer _ := by rw [h]
  read len _ he := absurd he (hr len)

/-- What a CH command does to a write that waits on a pin. -/
theorem waiting_exec {s t : State} {tr : Transaction} {i : Instr} {pin : BitVec 8} {w : Pending} (hi : s.Inv)
    (hd : decode tr = .command i) (h : exec i s = .next t) (hw : (s.channel pin).pend = some w) :
    StillWaits (.command tr) pin w s t ∨ WaitEnds pin w s t := by
  have hp := State.lt_numPins_of_pend hw
  have hc := (hi.channel pin).2.2.2
  rw [hw] at hc
  simp only [Option.all_some, decide_eq_true_eq] at hc
  have same : t.channel pin = s.channel pin → (∀ len, i ≠ .chRead pin len) → StillWaits (.command tr) pin w s t := by
    refine fun h1 h2 => .of_channel_eq hw h1 (fun h => by cases h) fun len he => ?_
    rw [Event.command.inj he, decode_encode_chRead] at hd
    exact h2 len (Decoded.command.inj hd).symm
  by_cases hn : pinOf i = none
  · exact .inl (same (by unfold State.channel; rw [exec_channels_of_pinOf_none h hn]) (by rintro len rfl; cases hn))
  cases i with
  | synInit => exact absurd rfl hn
  | synGen n => exact absurd rfl hn
  | synWreg r v => exact absurd rfl hn
  | synRreg r => exact absurd rfl hn
  | chCreate q b =>
    rcases execChCreate_eq_next h with ⟨_, rfl⟩ | ⟨_, _, rfl⟩ | ⟨_, hs, rfl⟩
    · exact .inl (same rfl (by simp))
    · exact .inl (same rfl (by simp))
    · refine .inl (same (State.channel_of_set_ne ?_ rfl) (by simp))
      rintro rfl
      rw [hs] at hc
      cases hc.1
  | chWrite q n p => exact .inl (same (execChWrite_channel h (by rw [hw]; simp)) (by simp))
  | chClosep q =>
    rcases execChClosep_eq_next h with ⟨_, rfl⟩ | ⟨_, _, rfl⟩ | ⟨_, _, rfl⟩
    · exact .inl (same rfl (by simp))
    · exact .inl (same rfl (by simp))
    · by_cases e : q = pin
      · subst e
        refine .inr ⟨by rw [State.channel_of_set hp rfl]; rfl, .inr ?_⟩
        simp [hw, newResponses, waiterReply, Status.rsp, Status.code]
      · exact .inl (same (State.channel_of_set_ne e rfl) (by simp))
  | chRead q n =>
    rcases execChRead_eq_next h with ⟨hq, rfl⟩ | ⟨_, ho, rfl⟩ | ⟨_, _, rfl⟩
    · exact .inl (same rfl (by rintro len ⟨⟩; omega))
    · exact .inl (same rfl (by rintro len ⟨⟩; exact ho hc.1))
    · by_cases e : q = pin
      · subst e
        refine .inl ⟨⟨w, ?_, rfl, le_rfl, fun h => by cases h⟩, fun _ => ?_, fun len hl he => ?_⟩ <;>
          rw [State.channel_of_set hp rfl]
        · exact hw
        · simp
        · rw [Event.command.inj he, decode_encode_chRead] at hd
          obtain ⟨-, rfl⟩ := Instr.chRead.inj (Decoded.command.inj hd)
          have h0 : len.toNat ≠ 0 := fun h => hl (BitVec.eq_of_toNat_eq h)
          have h1 : 1 ≤ s.cfg.fifoCapacity := hi.1.1
          have h2 := (hi.channel q).1
          simp only [List.length_drop, State.answer_cfg, State.setChannel_cfg]
          omega
      · exact .inl (same (State.channel_of_set_ne e rfl) (by rintro len ⟨⟩; exact e rfl))
  | chClosec q =>
    rcases execChClosec_eq_next h with ⟨_, rfl⟩ | ⟨_, _, rfl⟩ | ⟨_, _, rfl⟩
    · exact .inl (same rfl (by simp))
    · exact .inl (same rfl (by simp))
    · by_cases e : q = pin
      · subst e
        refine .inr ⟨by rw [State.channel_of_set hp rfl], .inr ?_⟩
        simp [hw, newResponses, waiterReply, Status.rsp, Status.code]
      · exact .inl (same (State.channel_of_set_ne e rfl) (by simp))
  | cqOpen => exact absurd rfl hn
  | cqClose => exact absurd rfl hn
  | cqInfo n => exact absurd rfl hn
  | cqStatus n => exact absurd rfl hn
  | cqMute m => exact absurd rfl hn

/-- What an event that is no reset does to a write that waits: it waits on, or the event ends the wait. -/
theorem waiting_event {s t : State} {e : Event} {pin : BitVec 8} {w : Pending} (hi : s.Inv) (h : runEvent e s = .next t)
    (hne : ∀ spk mic, e ≠ .reset spk mic) (hw : (s.channel pin).pend = some w) : StillWaits e pin w s t ∨ WaitEnds pin w s t := by
  have hp := State.lt_numPins_of_pend hw
  have hw' : (s.channel pin).pend ≠ none := by rw [hw]; simp
  rcases runEvent_cases h with ⟨tr, i, rfl, hd, h⟩ | ⟨tr, c, rfl, hd, rfl⟩ | ⟨q, rfl, h⟩ | ⟨k, v, rfl, _, _, h⟩ |
    ⟨k, rfl, rfl, _⟩ | ⟨spk, mic, rfl, rfl⟩ | ⟨spk, mic, rfl, _⟩
  · exact waiting_exec hi hd h hw
  · refine .inl (.of_channel_eq hw rfl (fun h => by cases h) fun len he => ?_)
    rw [Event.command.inj he, decode_encode_chRead] at hd
    cases hd
  · have nr : ∀ len, Event.progress q ≠ .command (encode (.chRead pin len)) := fun _ h => by cases h
    by_cases e : q = pin
    · subst e
      rcases runProgress_eq_next h with ⟨hno, rfl⟩ | ⟨v, he, hv, hcase⟩
      · exact .inl (.of_channel_eq hw rfl (fun _ h2 => by rw [hno] at h2; cases h2) nr)
      obtain rfl : w = v := Option.some.inj (hw.symm.trans hv)
      rcases hcase with ⟨_, rfl⟩ | ⟨hf, rfl⟩
      · refine .inr ⟨by rw [State.answer_channel, State.channel_setChannel_same hp], .inl ?_⟩
        simp [newResponses, waiterReply, Status.rsp, Status.code]
      · refine .inl ⟨⟨_, by rw [State.channel_setChannel_same hp], ?_, Nat.le_add_right _ _, fun _ _ => ?_⟩,
          fun h => absurd rfl h, fun len _ h => absurd h (nr len)⟩
        · simp only [List.length_drop]; omega
        · simp only [State.progressEnabled, Bool.and_eq_true, decide_eq_true_eq] at he
          have := he.2
          simp only [State.free]; omega
    · refine .inl (.of_channel_eq hw ?_ (fun h => absurd (Event.progress.inj h) e) nr)
      rcases runProgress_eq_next h with ⟨_, rfl⟩ | ⟨v, _, _, ⟨_, rfl⟩ | ⟨_, rfl⟩⟩
      · rfl
      · exact State.channel_of_set_ne e rfl
      · exact State.channel_of_set_ne e rfl
  · exact .inl (.of_channel_eq hw (execChWrite_channel (s := { s with held := s.held.eraseIdx k }) h hw')
      (fun h => by cases h) fun _ h => by cases h)
  · exact .inl (.of_channel_eq hw rfl (fun h => by cases h) fun _ h => by cases h)
  · exact .inl (.of_channel_eq hw rfl (fun h => by cases h) fun _ h => by cases h)
  · exact absurd rfl (hne spk mic)

end Sys2Proof.Machine
end

