-- ==== Sys2Proof/Machine/Asm.lean ====
section
/-! DEFINITION. Machine/Asm.lean: the assembler's command lines (30_encoding.md R99), read into commands. It is a notation for
the agents' programs; no step depends on it. What R99 does not fix (white space, upper case only, the forms of a decimal) is in
notes/assumptions/20.md. -/

namespace Sys2Proof.Machine

/-- A text as its characters. -/
abbrev Text := List Char

/-- The names of R95. -/
def mnemonic : Opcode → String
  | .synInit => "SYN.INIT"
  | .synGen => "SYN.GEN"
  | .synWreg => "SYN.WREG"
  | .synRreg => "SYN.RREG"
  | .chCreate => "CH.CREATE"
  | .chWrite => "CH.WRITE"
  | .chClosep => "CH.CLOSEP"
  | .chRead => "CH.READ"
  | .chClosec => "CH.CLOSEC"
  | .cqOpen => "CQ.OPEN"
  | .cqClose => "CQ.CLOSE"
  | .cqInfo => "CQ.INFO"
  | .cqStatus => "CQ.STATUS"
  | .cqMute => "CQ.MUTE"

/-- The register names of 10_state.md R40. -/
def registerName : SynReg → String
  | .stgChannels => "STG_CHANNELS"
  | .stgBits => "STG_BITS"
  | .stgRate => "STG_RATE"
  | .stgFreq => "STG_FREQ"
  | .stgAmpl => "STG_AMPL"
  | .stgDcoff => "STG_DCOFF"
  | .stgPhase => "STG_PHASE"
  | .actFormat => "ACT_FORMAT"
  | .actFrame => "ACT_FRAME"
  | .synState => "SYN_STATE"
  | .theta => "THETA"
  | .inc => "INC"
  | .carryCount => "CARRY_COUNT"
  | .actAmpl => "ACT_AMPL"
  | .actDcoff => "ACT_DCOFF"

/-! ### Text -/

/-- White space inside a line. -/
def isBlank (c : Char) : Bool := c == ' ' || c == '\t'

/-- A text without the white space at its ends. -/
def trim (t : Text) : Text := ((t.dropWhile isBlank).reverse.dropWhile isBlank).reverse

/-- The pieces of a text between the characters that `sep` picks out. -/
def splitAt (sep : Char → Bool) : Text → List Text
  | [] => [[]]
  | c :: rest =>
    match splitAt sep rest with
    | [] => [[c]]
    | piece :: more => if sep c then [] :: piece :: more else (c :: piece) :: more

/-- The words of a text. -/
def words (t : Text) : List Text := (splitAt isBlank t).filter fun w => !w.isEmpty

/-! ### Numbers -/

/-- A digit of a base up to 16. -/
def digit? (base : Nat) (c : Char) : Option Nat :=
  let n := c.toNat
  let d :=
    if 48 ≤ n ∧ n ≤ 57 then n - 48
    else if 65 ≤ n ∧ n ≤ 70 then n - 55
    else if 97 ≤ n ∧ n ≤ 102 then n - 87
    else 16
  if d < base then some d else none

/-- Digits of a base, after a number already read. -/
def digitsFrom? (base : Nat) : Nat → Text → Option Nat
  | n, [] => some n
  | n, c :: rest =>
    match digit? base c with
    | none => none
    | some d => digitsFrom? base (n * base + d) rest

/-- One or more digits of a base. -/
def digits? (base : Nat) (t : Text) : Option Nat := if t.isEmpty then none else digitsFrom? base 0 t

/-- An integer, decimal or hexadecimal with `0x` (R99). -/
def integer? (t : Text) : Option Nat :=
  match t with
  | '0' :: 'x' :: hex => digits? 16 hex
  | _ => digits? 10 t

/-- An integer that fits a number of bits. -/
def integerOf? (width : Nat) (t : Text) : Option (BitVec width) :=
  match integer? t with
  | none => none
  | some n => if n < 2 ^ width then some (BitVec.ofNat width n) else none

/-- A sign and what follows it. -/
def signed (t : Text) : Bool × Text :=
  match t with
  | '-' :: rest => (true, rest)
  | _ => (false, t)

/-- The F64 pattern of the decimal `± m·10^(e - frac)`, rounded to nearest (R99). -/
def decimal (neg : Bool) (m frac : Nat) (eNeg : Bool) (e : Nat) : F64 :=
  let up := if eNeg then 0 else e
  let down := frac + (if eNeg then e else 0)
  F64.round neg (m * 10 ^ up * F64.unitsPerOne) (10 ^ down)

/-- A decimal: an optional sign, digits with an optional point, an optional exponent. -/
def decimal? (t : Text) : Option F64 :=
  let (neg, body) := signed t
  let parts := splitAt (fun c => c == 'e') body
  let expo : Option (Bool × Nat) :=
    match parts with
    | [_] => some (false, 0)
    | [_, x] =>
      let (eNeg, ds) := signed x
      (digits? 10 ds).map fun e => (eNeg, e)
    | _ => none
  match expo, splitAt (fun c => c == '.') (parts.headD []) with
  | some (eNeg, e), [whole] => (digits? 10 whole).map fun m => decimal neg m 0 eNeg e
  | some (eNeg, e), [whole, part] =>
    if whole.isEmpty then none
    else (digits? 10 (whole ++ part)).map fun m => decimal neg m part.length eNeg e
  | _, _ => none

/-- A `value` (R99): an integer, or `f64(d)`. -/
def value? (t : Text) : Option (BitVec 64) :=
  match t with
  | 'f' :: '6' :: '4' :: '(' :: rest =>
    match rest.reverse with
    | ')' :: d => decimal? (trim d.reverse)
    | _ => none
  | _ => integerOf? 64 t

/-- A `reg` (R99): a register name or a number. -/
def register? (t : Text) : Option (BitVec 8) :=
  match SynReg.all.find? fun r => (registerName r).toList == t with
  | some r => some r.number
  | none => integerOf? 8 t

/-- One payload byte: two hex digits (R99). -/
def hexByte? (t : Text) : Option Byte :=
  match t with
  | [_, _] => (digits? 16 t).map (BitVec.ofNat 8)
  | _ => none

/-- A list of bytes in brackets (R99). -/
def bytes? (t : Text) : Option (List Byte) :=
  match t with
  | '[' :: rest =>
    match rest.reverse with
    | ']' :: inside => (words inside.reverse).mapM hexByte?
    | _ => none
  | _ => none

/-! ### Lines -/

/-- The command of an opcode and its operands (R99). -/
def assemble (op : Opcode) (args : List Text) : Option Instr :=
  match op, args with
  | .synInit, [] => some .synInit
  | .synGen, [n] => (integerOf? 32 n).map .synGen
  | .synWreg, [r, v] => do return .synWreg (← register? r) (← value? v)
  | .synRreg, [r] => (register? r).map .synRreg
  | .chCreate, [p] => (integerOf? 8 p).map fun pin => .chCreate pin false
  | .chCreate, [p, b] => if b = "BLOCK".toList then (integerOf? 8 p).map fun pin => .chCreate pin true else none
  | .chWrite, [p, bs] => do
    let bytes ← bytes? bs
    if bytes.length < 2 ^ 32 then return .chWrite (← integerOf? 8 p) (BitVec.ofNat 32 bytes.length) bytes else none
  | .chClosep, [p] => (integerOf? 8 p).map .chClosep
  | .chRead, [p, n] => do return .chRead (← integerOf? 8 p) (← integerOf? 32 n)
  | .chClosec, [p] => (integerOf? 8 p).map .chClosec
  | .cqOpen, [] => some .cqOpen
  | .cqClose, [] => some .cqClose
  | .cqInfo, [n] => (integerOf? 32 n).map .cqInfo
  | .cqStatus, [n] => (integerOf? 32 n).map .cqStatus
  | .cqMute, [m] => if m = "0".toList then some (.cqMute false) else if m = "1".toList then some (.cqMute true) else none
  | _, _ => none

/-- A pseudo-instruction line (R100). -/
def pseudo? (name : Text) (args : List Text) : Option Pseudo :=
  if name = "SYN.CONFIG".toList then
    match args with
    | [ch, bits, rate, freq, ampl, dc, phase] => do
      return .synConfig (← integerOf? 64 ch) (← integerOf? 64 bits) (← integerOf? 64 rate)
        (← decimal? freq) (← decimal? ampl) (← decimal? dc) (← decimal? phase)
    | _ => none
  else if name = "CH.DRAIN".toList then
    match args with
    | [p] => (integerOf? 8 p).map .chDrain
    | _ => none
  else if name = "SYN.THETA".toList then if args.isEmpty then some .synTheta else none
  else if name = "CQ.UNMUTE".toList then if args.isEmpty then some .cqUnmute else none
  else none

/-- The commands of a line without its comment and agent; an empty line has none. -/
def commands? (cfg : Config) (t : Text) : Option (List Instr) :=
  let name := t.takeWhile fun c => !isBlank c
  let operands := trim (t.dropWhile fun c => !isBlank c)
  let args := if operands.isEmpty then [] else (splitAt (fun c => c == ',') operands).map trim
  if t.isEmpty then some []
  else
    match Opcode.all.find? fun op => (mnemonic op).toList == name with
    | some op => (assemble op args).map fun i => [i]
    | none => (pseudo? name args).bind (Pseudo.expand cfg)

/-- A command line (R99): an optional `@agent:`, one command or pseudo-instruction, a comment from `;` on. The answer is the
agent's name, if any, and the commands; `none` where the line is not of that form. The name is a label: the block knows no agent
(60_exceptions.md R231). -/
def line? (cfg : Config) (line : String) : Option (Option Text × List Instr) :=
  let t := trim (line.toList.takeWhile fun c => c != ';')
  match t with
  | '@' :: rest =>
    let agent := rest.takeWhile fun c => c != ':'
    match rest.dropWhile fun c => c != ':' with
    | _ :: body => (commands? cfg (trim body)).map fun is => (some agent, is)
    | [] => none
  | _ => (commands? cfg t).map fun is => (none, is)

end Sys2Proof.Machine
end

