-- ==== Sys2Proof/Tests/Slice0.lean ====
section
/-! SUPPORT. Tests/Slice0.lean: small tests and the witnesses of the obligations' hypotheses. An expected value is from
spec/95_test_vectors.md (its vector is named) or worked out by hand from a rule, never taken from the model. -/

namespace Sys2Proof.Tests

open Sys2Proof.Machine

/-! ### Helpers -/

/-- The state a result has, where it has one. -/
def stateOf : Result → State
  | .next s => s
  | .fault _ => State.reset
  | .refused _ => State.reset

/-- A result is a next state. -/
def isNext : Result → Bool
  | .next _ => true
  | .fault _ => false
  | .refused _ => false

/-- A result is the refusal of a malformed transaction. -/
def isMalformed : Result → Bool
  | .next _ => false
  | .fault _ => false
  | .refused r => r == .notWellShaped

/-- What some commands leave. -/
def after (is : List Instr) (s : State) : State := stateOf (execAll is s)

/-- What some commands answer. -/
def answers (is : List Instr) (s : State) : List Response := newResponses s (after is s)

/-- The state with an event waiting. -/
def given (e : Event) (s : State) : State := { s with inbox := [e] }

/-- `cfg(ch, b, r, f, A, dc, P)` of 95_test_vectors.md. -/
def configured (ch bits rate : BitVec 64) (freq ampl dc phase : F64) : State :=
  after
    [.synWreg 0 ch, .synWreg 1 bits, .synWreg 2 rate, .synWreg 3 freq, .synWreg 4 ampl, .synWreg 5 dc, .synWreg 6 phase, .synInit]
    State.reset

/-- `cfg(1, 16, 8000, 440, 16000, 0, 0)`. -/
def playing : State := configured 1 16 8000 0x407B800000000000 0x40CF400000000000 0 0

/-- `cfg(1, 16, 8000, 0, 16000, 0, 0)`. -/
def still : State := configured 1 16 8000 0 0x40CF400000000000 0 0

/-- A non-blocking channel on pin 0. -/
def opened : State := after [.chCreate 0 false] State.reset

/-- A blocking channel on pin 0 with eight of ten bytes queued (W4). -/
def waiting : State := after [.chCreate 0 true, .chWrite 0 10 [0, 1, 2, 3, 4, 5, 6, 7, 8, 9]] State.reset

/-- The same after one byte is read: one of the two bytes left fits. -/
def roomForOne : State := after [.chRead 0 1] waiting

/-- The same after two bytes are read: both fit. -/
def roomForTwo : State := after [.chRead 0 2] waiting

/-- A channel that its consumer has closed. -/
def broken : State := after [.chClosec 0] opened

/-- A CH.WRITE held behind the waiting one. -/
def holding : State := after [.chWrite 0 1 [7]] waiting

/-- The control handle is open. -/
def handled : State := after [.cqOpen] State.reset

/-! ### WellFormed -/

/-- 30_encoding.md R92: a CH.WRITE whose payload is shorter than LEN is not well-formed. -/
theorem test_wellFormed_refuses_short_payload : ¬ Instr.WellFormed (.chWrite 0 3 [1, 2]) := by decide

/-- One whose payload is longer is not well-formed either. -/
theorem test_wellFormed_refuses_long_payload : ¬ Instr.WellFormed (.chWrite 0 0 [1]) := by decide

theorem test_wellFormed_accepts : Instr.WellFormed (.chWrite 0 2 [1, 2]) := by decide

/-- V-E14: the ill-shaped transaction is refused and nothing else. -/
theorem test_malformed_is_refused :
    isMalformed (step (given (.command ⟨.prod, 0x00000021, [.u32 3], [0xA0, 0xA1]⟩) opened)) = true := by decide

/-! ### Decoding: words written out from R90 and R95 -/

theorem test_decode_synInit : decode ⟨.syn, 0x00000010, [], []⟩ = .command (.synInit) := by decide
theorem test_decode_synGen : decode ⟨.syn, 0x00000011, [.u32 5], []⟩ = .command (.synGen 5) := by decide
theorem test_decode_synWreg : decode ⟨.syn, 0x00000612, [.u64 0x400921FB54442D18], []⟩ = .command (.synWreg 0x06 0x400921FB54442D18) := by
  decide
theorem test_decode_synRreg : decode ⟨.syn, 0x00001713, [], []⟩ = .command (.synRreg 0x17) := by decide
theorem test_decode_chCreate : decode ⟨.prod, 0x0001FF20, [], []⟩ = .command (.chCreate 0xFF true) := by decide
theorem test_decode_chCreate_nonblocking : decode ⟨.prod, 0x00000120, [], []⟩ = .command (.chCreate 1 false) := by decide
theorem test_decode_chWrite : decode ⟨.prod, 0x00000121, [.u32 1], [0x5A]⟩ = .command (.chWrite 1 1 [0x5A]) := by decide
theorem test_decode_chClosep : decode ⟨.prod, 0x00000022, [], []⟩ = .command (.chClosep 0) := by decide
theorem test_decode_chRead : decode ⟨.cons, 0x00008028, [.u32 0xFFFFFFFF], []⟩ = .command (.chRead 0x80 0xFFFFFFFF) := by decide
theorem test_decode_chClosec : decode ⟨.cons, 0x00000129, [], []⟩ = .command (.chClosec 1) := by decide
theorem test_decode_cqOpen : decode ⟨.cq, 0x00000030, [], []⟩ = .command (.cqOpen) := by decide
theorem test_decode_cqClose : decode ⟨.cq, 0x00000031, [], []⟩ = .command (.cqClose) := by decide
theorem test_decode_cqInfo : decode ⟨.cq, 0x00000032, [.u32 31], []⟩ = .command (.cqInfo 31) := by decide
theorem test_decode_cqStatus : decode ⟨.cq, 0x00000033, [.u32 36], []⟩ = .command (.cqStatus 36) := by decide
theorem test_decode_cqMute : decode ⟨.cq, 0x00000034, [], []⟩ = .command (.cqMute false) := by decide

/-- V-E1, V-E3, V-E5, V-E7, V-E8: each decode check answers ILLEGAL_COMMAND. -/
theorem test_decode_checks :
    decode ⟨.syn, 0x00000015, [], []⟩ = .illegal .opcode ∧ decode ⟨.cq, 0x00000010, [], []⟩ = .illegal .interface
      ∧ decode ⟨.syn, 0x00020010, [], []⟩ = .illegal .reserved ∧ decode ⟨.syn, 0x00000110, [], []⟩ = .illegal .sel
      ∧ decode ⟨.syn, 0x00010010, [], []⟩ = .illegal .flag := by decide

/-- The host's word of a row, with its operand word of zeros. -/
theorem test_decodeTableWord :
    decodeTableWord 32 0x00000011 = some (.synGen 0) ∧ decodeTableWord 32 0x00010120 = some (.chCreate 1 true)
      ∧ decodeTableWord 32 0x00000021 = some (.chWrite 0 0 []) ∧ decodeTableWord 32 0x00000515 = none := by decide

/-- A table word put where the step finds it runs as the first command. -/
theorem test_withFetchWord_runs :
    newResponses State.reset (stateOf (step (State.reset.withFetchWord 32 0x00001213))) = [reply 0 0 []] := by decide

/-- R99, R100: a line of each kind. -/
theorem test_assembler :
    line? Config.vectors "@prod0: CH.WRITE 0, [00 A1] ; two bytes" = some (some "prod0".toList, [.chWrite 0 2 [0x00, 0xA1]])
      ∧ line? Config.vectors "SYN.WREG STG_FREQ, f64(440.0)" = some (none, [.synWreg 3 0x407B800000000000])
      ∧ line? Config.vectors "CH.DRAIN 1" = some (none, [.chRead 1 8]) := by decide +kernel

/-! ### Numbers -/

/-- V-W1, V-W2, V-W7. -/
theorem test_wrap :
    F64.wrap 0xBFF0000000000000 = 0x401521FB54442D18 ∧ F64.wrap 0x401C000000000000 = 0x3FE6F0255DDE9740
      ∧ F64.wrap 0x8000000000000001 = 0 := by decide +kernel

/-- R119's examples. -/
theorem test_increment :
    F64.increment 0x407B800000000000 44100 = 0x3FB00C6938F15E29
      ∧ F64.increment 0x407B800000000000 8000 = 0x3FD61DE768DFD5C4 := by decide +kernel

/-- V-S17: half away from zero, on the exact value. -/
theorem test_roundHA :
    F64.roundHA 0x3FE0000000000000 = .int 1 ∧ F64.roundHA 0xBFE0000000000000 = .int (-1)
      ∧ F64.roundHA 0x4004000000000000 = .int 3 ∧ F64.roundHA 0x3FDFFFFFFFFFFFFF = .int 0 := by decide +kernel

/-- V-S8, V-S10: enc_b. -/
theorem test_encSample :
    encSample .offsetBinary 24 2121320 = [0x68, 0x5E, 0x20] ∧ encSample .offsetBinary 8 (-71) = [0x39]
      ∧ encSample .signed 8 (-71) = [0xB9] ∧ encSample .offsetBinary 16 (-11314) = [0xCE, 0xD3] := by decide

/-- The sine at pi/2 and at pi: the binary64 values nearest 1 and 1.2246467991473532e-16. -/
theorem test_sine :
    sinReference 0x3FF921FB54442D18 = 0x3FF0000000000000 ∧ sinReference 0x400921FB54442D18 = 0x3CA1A62633145C07 := by
  decide +kernel

/-- The sine past the first turn, at 10.0 and at the largest finite value; expected from a C library and, with 4000 fraction bits, by
hand calculation outside Lean. -/
theorem test_sine_large :
    sinReference 0x4024000000000000 = 0xBFE1689EF5F34F52 ∧ sinReference 0x7FEFFFFFFFFFFFFF = 0x3F7452FC98B34E97 := by
  decide +kernel

/-- R71, R93: the words of a response as bytes. -/
theorem test_response_bytes :
    (reply 5 0x0102 [7]).bytes = [5, 0, 0, 0, 0x02, 0x01, 0, 0, 0, 0, 0, 0, 7] := by decide

/-! ### SYN -/

/-- V-I1. -/
theorem test_synInit_starts_instance :
    playing.syn.ready = true ∧ playing.syn.frame = 2 ∧ playing.syn.inc = 0x3FD61DE768DFD5C4 ∧ playing.syn.theta = 0 := by
  decide +kernel

/-- V-I2, V-I12: the format is checked first, and the instance ends. -/
theorem test_synInit_bad_format_ends_instance :
    let s := after [.synWreg 0 0, .synWreg 3 0x7FF8000000000000, .synInit] playing
    s.out.getLast? = some (reply 1 0 []) ∧ s.syn.ready = false ∧ s.syn.inc = 0 ∧ s.syn.stgRate = 8000 := by decide +kernel

/-- W2. -/
theorem test_synGen_three_then_one :
    answers [.synGen 3, .synGen 1] playing = [reply 0 0 [0x00, 0x00, 0x2C], reply 0 0 [0x15]] := by decide +kernel

/-- V-S19: a carried byte keeps its value over a change of mute. -/
theorem test_synGen_mute_keeps_carry :
    let s := configured 1 16 8000 0x408F400000000000 0x40CF400000000000 0 0
    answers [.synGen 3, .cqMute true, .synGen 3] s = [reply 0 0 [0x00, 0x00, 0x32], reply 0 0 [], reply 0 0 [0x2C, 0x00, 0x00]]
      ∧ (after [.synGen 3, .cqMute true, .synGen 3] s).syn.theta = 0x4002D97C7F3321D2 := by decide +kernel

/-- V-R2, V-R4, V-R6. -/
theorem test_synWreg :
    answers [.synWreg 2 0x1F40, .synWreg 0 0x10000, .synWreg 0x10 5] State.reset = [reply 0 0 [], reply 2 0 [], reply 2 0 []]
      ∧ (after [.synWreg 2 0x1F40] State.reset).syn.stgRate = 8000 := by decide

/-- V-R13, V-R9. -/
theorem test_synRreg :
    answers [.synRreg 0x10, .synRreg 0x18] playing = [reply 0 0x00001F4000100001 [], reply 2 0 []] := by decide +kernel

/-! ### CH -/

/-- R152's example, and ALREADY_OPEN after it. -/
theorem test_chCreate :
    answers [.chCreate 0 true, .chCreate 0 false] State.reset = [reply 0 0 [], reply 3 0 []]
      ∧ (after [.chCreate 0 true] State.reset).channel 0 = Channel.newSession true := by decide

/-- R155's example: all or nothing. -/
theorem test_chWrite_nonblocking :
    answers [.chWrite 0 6 [1, 2, 3, 4, 5, 6], .chWrite 0 2 [1, 2], .chWrite 0 1 [3]] opened =
      [reply 0 6 [], reply 0 2 [], reply 4 0 []] := by decide

/-- W4: eight of ten bytes go in and the write waits. -/
theorem test_chWrite_blocking_waits :
    (waiting.channel 0).pend = some { rest := [8, 9], done := 8 } ∧ waiting.out.length = 1 := by decide

/-- W4: a CH.CLOSEP completes the waiting write with its count. -/
theorem test_chClosep_completes_waiting_write :
    answers [.chClosep 0] waiting = [waiterReply 0 5 8, reply 0 0 []] ∧ (after [.chClosep 0] waiting).channel 0 = Channel.reset := by
  decide

/-- R168's example. -/
theorem test_chRead :
    answers [.chWrite 0 3 [1, 2, 3], .chRead 0 2, .chRead 0 4] opened =
      [reply 0 3 [], reply 0 2 [1, 2], reply 0 1 [3]] := by decide

/-- R172's example. -/
theorem test_chClosec_completes_waiting_write :
    answers [.chClosec 0] waiting = [waiterReply 0 5 8, reply 0 0 []]
      ∧ ((after [.chClosec 0] waiting).channel 0).state = .broken := by decide

/-- R164: the progress step fills the buffer, and completes the write once its last byte is in. -/
theorem test_progress :
    ((stateOf (runEvent (.progress 0) roomForOne)).channel 0).pend = some { rest := [9], done := 9 }
      ∧ newResponses roomForTwo (stateOf (runEvent (.progress 0) roomForTwo)) = [waiterReply 0 0 10] := by decide

/-- R165: a held write runs as a new command once no write waits on its pin. -/
theorem test_hold_and_resume :
    holding.held.length = 1 ∧ holding.out = waiting.out
      ∧ newResponses holding (stateOf (runAll [.resume 0, .command (encode (.chRead 0 4)), .progress 0, .resume 0] holding)) =
        [reply 0 4 [0, 1, 2, 3], waiterReply 0 0 10, reply 0 1 []] := by decide

/-! ### CQ -/

theorem test_cqOpen_sets_handle : handled.handle = true ∧ answers [.cqOpen] handled = [reply 0 0 []] := by decide

/-- R192's example. -/
theorem test_cqClose :
    answers [.cqClose, .cqInfo 32, .cqClose] handled = [reply 0 0 [], reply 2 0 [], reply 2 0 []] := by decide

/-- W8, and a buffer one byte too small. -/
theorem test_cqInfo :
    answers [.cqInfo 32, .cqInfo 31] handled =
      [reply 0 0 ([1, 0, 0, 0, 1, 0, 0, 0, 1, 0, 0, 0] ++ List.replicate 20 0), reply 2 0 []] := by decide

/-- R195's example. -/
theorem test_cqStatus :
    let s := stateOf (runInputChange false true (configured 2 16 44100 0x407B800000000000 0x40CF400000000000 0 0))
    answers [.cqOpen, .cqStatus 36] s =
      [reply 0 0 [], reply 0 0 ([0x00, 0x01, 0x00, 0x00, 0x44, 0xAC, 0x00, 0x00] ++ List.replicate 28 0)] := by decide +kernel

/-- R200's example, and V-R18. -/
theorem test_cqMute :
    answers [.cqMute true, .synRreg 0x12, .cqMute false, .synRreg 0x12] State.reset =
      [reply 0 0 [], reply 0 2 [], reply 0 0 [], reply 0 0 []] := by decide

/-! ### Events -/

/-- R251: a reset answers no waiting write and marks it. -/
theorem test_reset_abandons :
    let s := stateOf (runReset true false holding)
    s.out = holding.out ∧ s.abandoned = [.waiting 0 8, .held { pin := 0, len := 1, payload := [7] }]
      ∧ s.env = { spk := true, mic := false } ∧ s.channel 0 = Channel.reset := by decide

/-! ### Witnesses: states and operands that meet the hypotheses of the obligations -/

/-- What the witnesses about a playing instance share, evaluated once. -/
theorem playing_facts :
    playing.Inv ∧ playing.syn.ready = true ∧ playing.syn.mute = false ∧ playing.syn.carry = [] ∧ playing.syn.frame = 2 := by
  decide +kernel

theorem waiting_inv : waiting.Inv := by decide

/-- The legal numbers of pins run from 1 to 256. -/
theorem witness_ResetMeetsInvariant :
    Config.vectors.Legal ∧ 1 ≤ 1 ∧ 256 ≤ 256 := by decide

theorem witness_StepKeepsInvariant :
    (given (.command (encode (.synGen 3))) playing).Inv
      ∧ isNext (step (given (.command (encode (.synGen 3))) playing)) = true := by decide +kernel

theorem witness_StepKeepsInvariant_with_a_waiting_write :
    (given (.progress 0) roomForOne).Inv ∧ isNext (step (given (.progress 0) roomForOne)) = true := by decide

theorem witness_StepRunsDecodedCommand :
    (given (.command (encode (.chRead 0 1))) opened).inbox = .command (encode (.chRead 0 1)) :: []
      ∧ decode (encode (.chRead 0 1)) = .command (.chRead 0 1) := by decide

theorem witness_OnlyMalformedTransactionsStop :
    (given (.command ⟨.prod, 0x21, [.u32 3], []⟩) opened).Inv
      ∧ isMalformed (step (given (.command ⟨.prod, 0x21, [.u32 3], []⟩) opened)) = true ∧ Instr.WellFormed (.chWrite 0 0 []) := by
  decide

theorem witness_ParametersNeverChange :
    isNext (step (given (.reset true true) waiting)) = true := by decide

/-- An opcode outside the table at either end of its gaps. -/
theorem witness_DecodeChecksAnswerIllegalCommand_opcode :
    (given (.command ⟨.cq, 0x00000035, [], []⟩) State.reset).inbox = .command ⟨.cq, 0x00000035, [], []⟩ :: []
      ∧ (0x00000035 : BitVec 32).extractLsb' 0 8 ∉ tableCodes ∧ (0x0000000F : BitVec 32).extractLsb' 0 8 ∉ tableCodes := by decide

/-- A well-shaped transaction with RSV at its smallest value that is not 0, and one on the wrong interface. -/
theorem witness_DecodeChecksAnswerIllegalCommand_field :
    (given (.command ⟨.syn, 0x00020010, [], []⟩) State.reset).inbox = .command ⟨.syn, 0x00020010, [], []⟩ :: []
      ∧ wellShaped ((0x00020010 : BitVec 32).extractLsb' 0 8) [] [] = true
      ∧ (0x00020010 : BitVec 32).extractLsb' 17 15 ≠ 0 ∧ tableIface 0x10 ≠ some .cq := by decide

/-- A transaction with no wrong field, F set where it carries a value. -/
theorem witness_DecodeChecksAnswerIllegalCommand_command :
    (given (.command ⟨.cq, 0x00010034, [], []⟩) State.reset).inbox = .command ⟨.cq, 0x00010034, [], []⟩ :: []
      ∧ (let opc := (0x00010034 : BitVec 32).extractLsb' 0 8
        opc ∈ tableCodes ∧ wellShaped opc [] [] = true
          ∧ ¬ (tableIface opc ≠ some .cq ∨ (0x00010034 : BitVec 32).extractLsb' 17 15 ≠ 0
            ∨ (opc ∈ selZeroCodes ∧ (0x00010034 : BitVec 32).extractLsb' 8 8 ≠ 0)
            ∨ (opc ∉ flagCodes ∧ (0x00010034 : BitVec 32).getLsbD 16 = true))) := by decide

/-- V-E14, and a reserved opcode. -/
theorem witness_MalformedTransactionsAreNotDelivered :
    (given (.command ⟨.prod, 0x00000021, [.u32 3], [0xA0, 0xA1]⟩) opened).inbox =
        .command ⟨.prod, 0x00000021, [.u32 3], [0xA0, 0xA1]⟩ :: []
      ∧ (0x00000021 : BitVec 32).extractLsb' 0 8 ∈ tableCodes
      ∧ wellShaped ((0x00000021 : BitVec 32).extractLsb' 0 8) [.u32 3] [0xA0, 0xA1] = false
      ∧ (0x00000023 : BitVec 32).extractLsb' 0 8 ∉ tableCodes := by decide

theorem witness_DecodeOfEncode :
    Instr.WellFormed (.chWrite 0xFF 1 [0xFF]) := by decide

theorem witness_BytesOfEncodeReadBack : Instr.WellFormed (.synWreg 0xFF 0xFFFFFFFFFFFFFFFF) := by decide

theorem witness_EncodeOfDecode :
    decode ⟨.cq, 0x00010034, [], []⟩ = .command (.cqMute true) := by decide

theorem witness_PseudoInstructionsExpand :
    (0xFFFF : BitVec 64).toNat < 2 ^ 16 ∧ (0xFFFFFFFF : BitVec 64).toNat < 2 ^ 32 ∧ Config.vectors.fifoCapacity < 2 ^ 32 := by
  decide

/-- The values at the ends of the legal ranges and just past them. -/
theorem witness_SynWregWritesStagingRegister :
    (0xFFFF : BitVec 64).toNat < 2 ^ 16 ∧ (0xFFFFFFFF : BitVec 64).toNat < 2 ^ 32 ∧ 6 < (7 : BitVec 8).toNat
      ∧ 2 ^ 16 ≤ (0x10000 : BitVec 64).toNat ∧ 2 ^ 32 ≤ (0x100000000 : BitVec 64).toNat := by decide

/-- The reserved numbers next to the two ranges, and an idle state. -/
theorem witness_SynRregReadsRegister :
    (¬ ((0x07 : BitVec 8).toNat ≤ 0x06 ∨ (0x10 ≤ (0x07 : BitVec 8).toNat ∧ (0x07 : BitVec 8).toNat ≤ 0x17)))
      ∧ (¬ ((0x18 : BitVec 8).toNat ≤ 0x06 ∨ (0x10 ≤ (0x18 : BitVec 8).toNat ∧ (0x18 : BitVec 8).toNat ≤ 0x17)))
      ∧ State.reset.Inv ∧ State.reset.syn.ready = false := by decide

theorem witness_WrittenRegisterReadsBack :
    newResponses State.reset (after [.synWreg 2 0xFFFFFFFF] State.reset) = [reply 0 0 []] := by decide

theorem witness_SynInitFollowsItsRule :
    (StagedFormatOk playing ∧ StagedParamsOk playing) ∧ ¬ StagedFormatOk State.reset
      ∧ (let s := after [.synWreg 3 0x7FF8000000000000] playing; StagedFormatOk s ∧ ¬ StagedParamsOk s) := by decide +kernel

theorem witness_SynGenNotReadyAndZeroLength :
    State.reset.syn.ready = false ∧ playing.syn.ready = true := ⟨rfl, playing_facts.2.1⟩

/-- Also of NumericClosure and, with the carry and the mute flag, of the stream statements. -/
theorem witness_SynGenEmitsExactlyLenBytes :
    playing.Inv ∧ playing.syn.ready = true := ⟨playing_facts.1, playing_facts.2.1⟩

/-- At the boundary: LEN equal to the carry length. -/
theorem witness_SynGenEmitsCarryFirst :
    let s := after [.synGen 3] playing; s.syn.ready = true ∧ s.syn.carry.length = 1 ∧ (1 : BitVec 32).toNat ≤ s.syn.carry.length := by
  decide +kernel

theorem witness_FillsAreSlicesOfOneStream :
    playing.Inv ∧ playing.syn.ready = true ∧ playing.syn.carry = [] :=
  ⟨playing_facts.1, playing_facts.2.1, playing_facts.2.2.2.1⟩

theorem witness_ChunkingInvariance :
    playing.Inv ∧ playing.syn.ready = true ∧ (([3, 1] : List (BitVec 32)).map BitVec.toNat).sum = (4 : BitVec 32).toNat
      ∧ playing.syn.carry = [] ∧ (4 : BitVec 32).toNat % playing.syn.frame.toNat = 0 :=
  ⟨playing_facts.1, playing_facts.2.1, by decide, playing_facts.2.2.2.1, by rw [playing_facts.2.2.2.2]; decide⟩

theorem witness_MutedSampleIsDcOffset :
    let s := after [.cqMute true] playing; s.syn.ready = true ∧ s.syn.Inv s.cfg ∧ s.syn.mute = true
      ∧ F64.mag (0 : F64) = 0 := by decide +kernel

theorem witness_MuteConsistency :
    playing.Inv ∧ playing.syn.ready = true ∧ playing.syn.mute = false :=
  ⟨playing_facts.1, playing_facts.2.1, playing_facts.2.2.1⟩

/-- Both clauses: before SYN.INIT runs again, and of the instance it has made. -/
theorem witness_ZeroIncrementRepeatsOneFrame :
    (StagedFormatOk still ∧ StagedParamsOk still ∧ still.syn.stgFreq = 0)
      ∧ still.Inv ∧ still.syn.ready = true ∧ F64.mag still.syn.inc = 0 :=
  ⟨by decide +kernel, by decide +kernel⟩

theorem witness_RoundingIsToNearestEven : 0 < 1 := by decide

theorem witness_FmodIsExact :
    F64.isFinite 0x401C000000000000 = true ∧ F64.isFinite F64.twoPi = true ∧ F64.mag F64.twoPi ≠ 0 := by decide +kernel

/-- 7.0 and TWO_PI itself are in the turn after [0, TWO_PI), and 0 is in it. -TWO_PI has the remainder 0 and -1.0 another one; -0.0
counts as not negative. -/
theorem witness_WrapTakesFiniteValuesIntoRange :
    F64.isFinite 0x401C000000000000 = true ∧ F64.units F64.twoPi ≤ F64.units 0x401C000000000000
      ∧ F64.units 0x401C000000000000 < 2 * F64.units F64.twoPi ∧ InPhaseRange 0 ∧ F64.units F64.twoPi ≤ F64.units F64.twoPi
      ∧ F64.isFinite 0xC01921FB54442D18 = true ∧ F64.units 0xC01921FB54442D18 < 0
      ∧ F64.mag 0xC01921FB54442D18 % F64.mag F64.twoPi = 0 ∧ F64.units 0xBFF0000000000000 < 0
      ∧ F64.mag 0xBFF0000000000000 % F64.mag F64.twoPi ≠ 0 ∧ 0 ≤ F64.units 0x8000000000000000 := by decide +kernel

theorem witness_NumericClosure :
    playing.syn.ready = true ∧ playing.syn.Inv playing.cfg := ⟨playing_facts.2.1, playing_facts.1.2.2.2.1⟩

/-- The ends of the 8-bit range and the values just past them. -/
theorem witness_SamplesAreClippedAndEncoded :
    -2 ^ (BitDepth.d8.bits - 1) ≤ (-128 : Int) ∧ (127 : Int) ≤ 2 ^ (BitDepth.d8.bits - 1) - 1
      ∧ (2 ^ (BitDepth.d8.bits - 1) - 1 : Int) < 128 ∧ (-129 : Int) < -2 ^ (BitDepth.d8.bits - 1) := by decide

/-- Pin 2 is the first that does not exist. -/
theorem witness_PinOutOfRangeIsInvalidArgument :
    Instr.WellFormed (.chClosep 2) ∧ pinOf (.chClosep 2) = some 2 ∧ State.reset.channels.length ≤ (2 : BitVec 8).toNat := by
  decide

/-- The last pin that exists and the first that does not. -/
theorem witness_ChCreateOpensIdleChannel :
    State.reset.channels[(1 : BitVec 8).toNat]? = some Channel.reset ∧ (opened.channels[0]?.map Channel.state) = some .opened
      ∧ State.reset.channels[(2 : BitVec 8).toNat]? = none := by decide

theorem witness_ChWriteOnClosedChannelAndZeroLength :
    ([7] : List Byte).length = (1 : BitVec 32).toNat ∧ State.reset.channels[0]? = some Channel.reset ∧ Channel.reset.pend = none
      ∧ opened.channels[0]? = some (Channel.newSession false) ∧ ([] : List Byte).length = (0 : BitVec 32).toNat := by decide

/-- A write of nine bytes and one of eight to the empty buffer of eight. -/
theorem witness_ChWriteNonBlockingIsAllOrNothing :
    opened.channels[(0 : BitVec 8).toNat]? = some (Channel.newSession false)
      ∧ (Channel.newSession false).pend = none ∧ (Channel.newSession false).state = .opened
      ∧ (Channel.newSession false).blocking = false
      ∧ (List.replicate 9 (7 : Byte)).length = (9 : BitVec 32).toNat
      ∧ opened.cfg.fifoCapacity - (Channel.newSession false).buf.length < (9 : BitVec 32).toNat
      ∧ (List.replicate 8 (7 : Byte)).length = (8 : BitVec 32).toNat
      ∧ (8 : BitVec 32).toNat ≤ opened.cfg.fifoCapacity - (Channel.newSession false).buf.length := by decide

/-- A write of eight bytes and one of nine to the empty buffer of eight. -/
theorem witness_ChWriteBlockingEnqueuesWhatFits :
    let s := after [.chCreate 0 true] State.reset
    s.channels[(0 : BitVec 8).toNat]? = some (Channel.newSession true)
      ∧ (Channel.newSession true).pend = none ∧ (Channel.newSession true).state = .opened
      ∧ (Channel.newSession true).blocking = true
      ∧ (List.replicate 8 (7 : Byte)).length = (8 : BitVec 32).toNat
      ∧ min (8 : BitVec 32).toNat (s.cfg.fifoCapacity - 0) = (8 : BitVec 32).toNat
      ∧ (List.replicate 9 (7 : Byte)).length = (9 : BitVec 32).toNat
      ∧ min (9 : BitVec 32).toNat (s.cfg.fifoCapacity - 0) < (9 : BitVec 32).toNat := by decide

theorem witness_ChWriteIsHeldBehindAWaitingWrite :
    (waiting.channel 0).pend ≠ none ∧ waiting.Inv ∧ (after [.chWrite 0 1 [7]] waiting).held ≠ waiting.held
      ∧ (given (.resume 0) holding).held[0]? = some { pin := 0, len := 1, payload := [7] }
      ∧ (let s := given (.resume 0) (after [.chClosec 0] holding); s.held.length = 1 ∧ (s.channel 0).pend = none) := by
  decide

/-- Both clauses, at one byte less and exactly the space needed. -/
theorem witness_WriteProgressEnqueuesAndCompletes :
    (roomForTwo.channels[0]?.bind Channel.pend) = some { rest := [8, 9], done := 8 }
      ∧ (roomForTwo.channel 0).buf.length < roomForTwo.cfg.fifoCapacity
      ∧ 2 ≤ roomForTwo.cfg.fifoCapacity - (roomForTwo.channel 0).buf.length
      ∧ (roomForOne.channels[0]?.bind Channel.pend) = some { rest := [8, 9], done := 8 }
      ∧ roomForOne.cfg.fifoCapacity - (roomForOne.channel 0).buf.length < 2 := by decide

theorem witness_ChClosepReleasesChannel :
    (State.reset.channels[0]?.map Channel.state) = some .idle ∧ (broken.channels[0]?.map Channel.state) = some .broken
      ∧ (broken.channel 0).pend = none ∧ (waiting.channel 0).pend = some { rest := [8, 9], done := 8 }
      ∧ State.reset.channels[(2 : BitVec 8).toNat]? = none := by decide

theorem witness_ChReadDrainsOldestBytes :
    (broken.channels[0]?.map Channel.state) = some .broken ∧ (waiting.channels[0]?.map Channel.state) = some .opened
      ∧ State.reset.channels[(2 : BitVec 8).toNat]? = none := by decide

theorem witness_ChClosecBreaksChannel :
    (broken.channels[0]?.map Channel.state) = some .broken ∧ opened.channels[0]? = some (Channel.newSession false)
      ∧ (waiting.channels[0]?.map Channel.state) = some .opened ∧ (waiting.channel 0).pend ≠ none := by decide

theorem witness_StatusByChannelState :
    State.reset.channels[0]? = some Channel.reset ∧ opened.channels[0]? = some (Channel.newSession false)
      ∧ broken.channels[0]? = some { state := .broken, buf := [], blocking := false, pend := none }
      ∧ ([7] : List Byte).length = (1 : BitVec 32).toNat := by decide

theorem witness_LeavingOpenCompletesTheWaitingWrite :
    waiting.Inv ∧ (waiting.channel 0).pend = some { rest := [8, 9], done := 8 }
      ∧ ((stateOf (runEvent (.command (encode (.chClosec 0))) waiting)).channel 0).state ≠ .opened := by decide

theorem witness_PendingWriteWaitsForSpaceOrProgress_at_issue :
    let s := after [.chCreate 0 true] State.reset
    s.Inv ∧ (s.channel 0).pend = none
      ∧ ((stateOf (runEvent (.command (encode (.chWrite 0 9 [0, 1, 2, 3, 4, 5, 6, 7, 8]))) s)).channel 0).pend ≠ none := by
  decide

theorem witness_PendingWriteWaitsForSpaceOrProgress_at_progress :
    roomForOne.Inv ∧ roomForOne.progressEnabled 0 = true
      ∧ ((stateOf (runEvent (.progress 0) roomForOne)).channel 0).pend ≠ none := by decide

theorem witness_PendingWriteWaitsForSpaceOrProgress_while_waiting :
    waiting.Inv ∧ (waiting.channel 0).pend ≠ none := ⟨waiting_inv, by decide⟩

theorem witness_CloseAndProgressRaceBothWays :
    (roomForTwo.channels[0]?.map Channel.state) = some .opened
      ∧ (roomForTwo.channel 0).pend = some { rest := [8, 9], done := 8 }
      ∧ (roomForTwo.channel 0).buf.length < roomForTwo.cfg.fifoCapacity
      ∧ 2 ≤ roomForTwo.cfg.fifoCapacity - (roomForTwo.channel 0).buf.length := by decide

/-- A run with a read, a progress step and a held write. -/
theorem witness_FifoKeepsEveryByteInOrder :
    let es : List Event := [.command (encode (.chRead 0 4)), .progress 0, .resume 0, .command (encode (.chRead 0 8))]
    isNext (runAll es holding) = true ∧ liveThroughout 0 es holding = true
      ∧ deliveredIn 0 es holding = [0, 1, 2, 3, 4, 5, 6, 7, 8, 9, 7] ∧ acceptedIn 0 es holding = [7] := by decide

theorem witness_ChannelsOfDifferentPinsShareNoState :
    isNext (exec (.chCreate 1 true) opened) = true ∧ pinOf (.chCreate 1 true) = some 1
      ∧ isNext (exec .cqOpen opened) = true ∧ pinOf .cqOpen = none ∧ (0 : Nat) ≠ (1 : BitVec 8).toNat := by decide

theorem witness_CqOpenAndCloseTheHandle :
    handled.handle = true ∧ State.reset.handle = false := by decide

theorem witness_CqInfoGivesTheRecord :
    handled.handle = true ∧ 32 ≤ (32 : BitVec 32).toNat ∧ (31 : BitVec 32).toNat < 32 := by decide

theorem witness_CqStatusGivesTheRecord :
    handled.handle = true ∧ 36 ≤ (36 : BitVec 32).toNat ∧ (35 : BitVec 32).toNat < 36 := by decide

theorem witness_InfoIsIdempotentAcrossSteps :
    let record : List Byte := [1, 0, 0, 0, 1, 0, 0, 0, 1, 0, 0, 0] ++ List.replicate 20 0
    let u := after [.cqInfo 32] handled
    let es : List Event := [.command (encode (.cqMute true)), .inputChange true true]
    let t := stateOf (runAll es u)
    newResponses handled u = [reply 0 0 record] ∧ isNext (runAll es u) = true
      ∧ newResponses t (after [.cqInfo 64] t) = [reply 0 0 record] := by decide

theorem witness_OnlyTheInputChangeWritesEnv :
    (given (.inputChange true false) State.reset).inbox = [.inputChange true false]
      ∧ isNext (runEvent (.progress 0) roomForOne) = true := by decide

theorem witness_ErrorsArePrecise :
    isNext (exec (.chRead 0 1) State.reset) = true ∧ newResponses State.reset (after [.chRead 0 1] State.reset) = [reply 5 0 []]
      ∧ (reply 5 0 []).rsp ≠ 0 := by decide

theorem witness_ResponsesUseTheStatusTable :
    (reply 9 0 []) ∈ newResponses State.reset (stateOf (step (given (.command ⟨.syn, 0x15, [], []⟩) State.reset))) := by decide

theorem witness_FlagsHaveTheirWritersOnly :
    isNext (exec (.synGen 3) playing) = true := by decide +kernel

theorem witness_ResetAbandonsWaitingWrites :
    (given (.reset true false) holding).inbox = [.reset true false]
      ∧ (holding.channels[0]?.bind Channel.pend) = some { rest := [8, 9], done := 8 }
      ∧ holding.held = [{ pin := 0, len := 1, payload := [7] }] := by decide

/-- Two values whose sum is zero, and a divisor that is not; the largest u32. -/
theorem witness_ArithmeticRoundsTheExactResult :
    F64.isFinite 0x3FF0000000000000 = true ∧ F64.isFinite 0xBFF0000000000000 = true
      ∧ F64.units 0x3FF0000000000000 + F64.units 0xBFF0000000000000 = 0 ∧ F64.mag 0xBFF0000000000000 ≠ 0
      ∧ 0xFFFFFFFF < 2 ^ 32 := by decide +kernel

/-- The tie 0.5, and an infinity. -/
theorem witness_RoundHaRoundsTiesAwayFromZero :
    F64.isFinite 0x3FE0000000000000 = true ∧ F64.isInf 0xFFF0000000000000 = true := by decide

theorem witness_ReferenceSineIsNearest :
    F64.isFinite 0x7FEFFFFFFFFFFFFF = true ∧ F64.isFinite 0x3F7452FC98B34E97 = true := by decide

/-! ### A weakly fair run for the witness of WaitingWriteCompletesInFairRuns -/

/-- Pin 0 is read in every even turn; the odd turns offer the progress step of each pin in order, over and over. -/
def fairEvents (n : Nat) : Event :=
  if n % 2 = 0 then .command (encode (.chRead 0 1)) else .progress (BitVec.ofNat 8 (n / 2))

/-- The run these events make from the state with a waiting write. -/
def fairRun : Nat → State
  | 0 => waiting
  | n + 1 => stateOf (step { fairRun n with inbox := [fairEvents n] })

/-- Neither of the two kinds of event ever stops. -/
theorem fairEvents_next (n : Nat) (s : State) : ∃ t, step { s with inbox := [fairEvents n] } = .next t := by
  rw [step_cons (e := fairEvents n) (rest := []) rfl]
  unfold fairEvents
  split
  · have hd : decode (encode (.chRead 0 1)) = .command (.chRead 0 1) := by decide
    simp only [runEvent, runTransaction, hd, exec, execChRead, withPin]
    split
    · exact ⟨_, rfl⟩
    split
    · exact ⟨_, rfl⟩
    · exact ⟨_, rfl⟩
  · simp only [runEvent, runProgress]
    split
    · exact ⟨_, rfl⟩
    split
    · exact ⟨_, rfl⟩
    split
    · exact ⟨_, rfl⟩
    · exact ⟨_, rfl⟩

theorem fairRun_isRun : IsRun fairRun fairEvents := by
  intro n
  obtain ⟨t, h⟩ := fairEvents_next n (fairRun n)
  rw [fairRun, h]
  rfl

theorem fairEvents_weaklyFair : WeaklyFair fairRun fairEvents := by
  intro pin n _
  have hp := pin.isLt
  refine ⟨2 * (256 * n + pin.toNat) + 1, by omega, ?_⟩
  unfold fairEvents
  rw [if_neg (by omega), show (2 * (256 * n + pin.toNat) + 1) / 2 = 256 * n + pin.toNat by omega]
  congr 1
  apply BitVec.eq_of_toNat_eq
  rw [BitVec.toNat_ofNat]
  omega

theorem fairEvents_keepsReading : KeepsReading 0 fairEvents := fun n =>
  ⟨2 * n, 1, by omega, by decide, by unfold fairEvents; rw [if_pos (by omega)]⟩

theorem fairEvents_no_reset (n : Nat) (spk mic : Bool) : fairEvents n ≠ .reset spk mic := by
  unfold fairEvents
  split <;> exact Event.noConfusion

/-- Two of the ten bytes wait at turn 0. -/
theorem witness_WaitingWriteCompletesInFairRuns :
    IsRun fairRun fairEvents ∧ WeaklyFair fairRun fairEvents ∧ KeepsReading 0 fairEvents ∧ (fairRun 0).Inv
      ∧ (∀ m spk mic, fairEvents m ≠ .reset spk mic) ∧ ((fairRun 0).channel 0).pend = some { rest := [8, 9], done := 8 } :=
  ⟨fairRun_isRun, fairEvents_weaklyFair, fairEvents_keepsReading, waiting_inv, fairEvents_no_reset,
    by change (waiting.channel 0).pend = _; decide⟩

end Sys2Proof.Tests
end

section
/-! PROOFS. The machine of the family 00_scope.md: the reset state and the step, the bytes of a channel within a session (R16), and
the hold of a CH.WRITE (R14). -/

namespace Sys2Proof.Proofs

open Sys2Proof Sys2Proof.Machine

/-! ### Reset and the step -/

theorem Syn.reset_inv (cfg : Config) : Syn.Inv cfg Syn.reset :=
  ⟨fun h => absurd h (by decide), fun _ => by decide⟩

theorem Channel.reset_inv (cfg : Config) : Channel.Inv cfg Channel.reset :=
  ⟨Nat.zero_le _, fun _ => rfl, fun _ => rfl, rfl⟩

/-- No write waits or is held after reset, every channel is as after reset and SYN holds the zeros of 10_state.md R57. -/
theorem State.resetWith_inv {n : Nat} {cfg : Config} {spk mic : Bool} (hl : cfg.Legal) (h1 : 1 ≤ n) (h2 : n ≤ 256) :
    (State.resetWith n cfg spk mic).Inv := by
  have hn : (State.resetWith n cfg spk mic).numPins = n := by simp [State.numPins]
  refine ⟨hl, by rwa [hn], by rwa [hn], Syn.reset_inv cfg, fun c hc => ?_, fun w hw => ?_⟩
  · rw [State.resetWith_channels] at hc
    rw [List.eq_of_mem_replicate hc]
    exact Channel.reset_inv cfg
  · rw [State.resetWith_held] at hw
    cases hw

/-- Settles O2: the invariant of each part of the reset state; the model's own choice of the parameters is a legal one. -/
theorem resetMeetsInvariant : Obligations.ResetMeetsInvariant :=
  ⟨fun _ _ _ _ => State.resetWith_inv, State.resetWith_inv (by decide) (by decide) (by decide)⟩

/-- A transaction that decodes to a command is that command's meaning. -/
theorem runEvent_command {tr : Transaction} {i : Instr} (hd : decode tr = .command i) (s : State) :
    runEvent (.command tr) s = exec i s := by
  simp only [runEvent, runTransaction, hd]

/-- Settles O4: a step is its event, and the event is the decoded command. -/
theorem stepRunsDecodedCommand : Obligations.StepRunsDecodedCommand := by
  intro s tr rest i hin hd
  rw [step_cons hin, runEvent_command hd]

/-! ### The bytes of a channel -/

/-- An OPEN channel is one of a pin that exists: a pin past the last reads as after reset, IDLE. -/
theorem State.lt_numPins_of_opened {s : State} {pin : BitVec 8} (h : (s.channel pin).state = .opened) :
    pin.toNat < s.numPins := by
  by_contra hc
  rw [State.channel_of_numPins_le (not_lt.mp hc)] at h
  cases h

/-- After a reset every channel is IDLE, whatever the pin. -/
theorem runReset_channel {spk mic : Bool} {s t : State} (h : runReset spk mic s = .next t) (pin : BitVec 8) :
    t.channel pin = Channel.reset := by
  obtain rfl := Host.Outcome.next.inj h
  simp only [State.channel, State.resetWith_channels, List.getD_eq_getElem?_getD, List.getElem?_replicate]
  split <;> rfl

theorem State.queued_congr {s t : State} {pin : BitVec 8} (h : t.channel pin = s.channel pin) :
    t.queued pin = s.queued pin := by
  unfold State.queued
  rw [h]

/-- Where no write waits, the queued bytes are those in the buffer. -/
theorem State.queued_of_pend_none {s : State} {pin : BitVec 8} (h : (s.channel pin).pend = none) :
    s.queued pin = (s.channel pin).buf := by
  simp [State.queued, h]

/-- Where a write waits, the bytes it has left come after those in the buffer. -/
theorem State.queued_of_pend_some {s : State} {pin : BitVec 8} {w : Pending} (h : (s.channel pin).pend = some w) :
    s.queued pin = (s.channel pin).buf ++ w.rest := by
  simp [State.queued, h]

theorem accepted_of_no_write {pin : BitVec 8} {e : Event} {s t : State} (h : writeOf e s = none) :
    accepted pin e s t = [] := by
  simp [accepted, h]

theorem accepted_of_other_pin {pin q : BitVec 8} {payload : List Byte} {e : Event} {s t : State}
    (h : writeOf e s = some (q, payload)) (hq : q ≠ pin) : accepted pin e s t = [] := by
  simp [accepted, h, hq]

/-- A write that was held is not accepted. -/
theorem accepted_of_held {pin q : BitVec 8} {payload : List Byte} {e : Event} {s t : State}
    (h : writeOf e s = some (q, payload)) (hh : t.held.length ≠ heldAfter e s) : accepted pin e s t = [] := by
  simp [accepted, h, hh]

/-- A write answered with an error is not accepted. -/
theorem accepted_of_error {pin q : BitVec 8} {payload : List Byte} {e : Event} {s t : State} {r : Response}
    (h : writeOf e s = some (q, payload)) (hr : newResponses s t = [r]) (h0 : r.rsp ≠ 0) : accepted pin e s t = [] := by
  simp only [accepted, h]
  exact if_neg fun ⟨_, _, hall⟩ => h0 (hall r (by rw [hr]; exact List.mem_singleton_self r))

/-- A write that ran is accepted where none of its responses is an error: it was answered OK, or waits. -/
theorem accepted_of_ran {pin : BitVec 8} {payload : List Byte} {e : Event} {s t : State}
    (h : writeOf e s = some (pin, payload)) (hh : t.held.length = heldAfter e s)
    (hr : ∀ r ∈ newResponses s t, r.rsp = 0) : accepted pin e s t = payload := by
  simp only [accepted, h]
  exact if_pos ⟨trivial, hh, hr⟩

/-- A state with the responses of `s` and one more. -/
theorem newResponses_answer {s u : State} (h : u.out = s.out) (who : Recipient) (st : Status) (r : BitVec 64)
    (p : List Byte) :
    newResponses s (u.answer who st r p) = [{ recipient := who, rsp := st.rsp, result := r, payload := p }] := by
  rw [newResponses, State.answer_out, h, List.drop_left]

/-- A CH command changes no channel but that of its pin, and another command none (41_channel.md R150). -/
theorem exec_channel_of_other_pin {i : Instr} {s t : State} {pin : BitVec 8} (h : exec i s = .next t)
    (hi : pinOf i ≠ some pin) : t.channel pin = s.channel pin := by
  have ne : ∀ q, pinOf i = some q → q ≠ pin := by rintro q hq rfl; exact hi hq
  have none : pinOf i = none → t.channel pin = s.channel pin := fun hn => by
    unfold State.channel; rw [exec_channels_of_pinOf_none h hn]
  cases i with
  | synInit => exact none rfl
  | synGen _ => exact none rfl
  | synWreg _ _ => exact none rfl
  | synRreg _ => exact none rfl
  | chCreate q b =>
    rcases execChCreate_eq_next h with ⟨_, rfl⟩ | ⟨_, _, rfl⟩ | ⟨_, _, rfl⟩
    · rfl
    · rfl
    · exact State.channel_of_set_ne (ne q rfl) rfl
  | chWrite q n p =>
    rcases execChWrite_eq_next h with ⟨-, ⟨_, rfl⟩ | ⟨_, ⟨_, rfl⟩ | ⟨_, _, rfl⟩ |
      ⟨_, _, ⟨_, rfl⟩ | ⟨_, _, rfl⟩ | ⟨_, _, _, rfl⟩ | ⟨_, _, _, rfl⟩⟩⟩⟩
    · rfl
    · rfl
    · rfl
    · rfl
    · exact State.channel_of_set_ne (ne q rfl) rfl
    · rfl
    · exact State.channel_of_set_ne (ne q rfl) rfl
  | chClosep q =>
    rcases execChClosep_eq_next h with ⟨_, rfl⟩ | ⟨_, _, rfl⟩ | ⟨_, _, rfl⟩
    · rfl
    · rfl
    · exact State.channel_of_set_ne (ne q rfl) rfl
  | chRead q n =>
    rcases execChRead_eq_next h with ⟨_, rfl⟩ | ⟨_, _, rfl⟩ | ⟨_, _, rfl⟩
    · rfl
    · rfl
    · exact State.channel_of_set_ne (ne q rfl) rfl
  | chClosec q =>
    rcases execChClosec_eq_next h with ⟨_, rfl⟩ | ⟨_, _, rfl⟩ | ⟨_, _, rfl⟩
    · rfl
    · rfl
    · exact State.channel_of_set_ne (ne q rfl) rfl
  | cqOpen => exact none rfl
  | cqClose => exact none rfl
  | cqInfo _ => exact none rfl
  | cqStatus _ => exact none rfl
  | cqMute _ => exact none rfl

/-- One event keeps the bytes of a pin: those it delivers and those queued after it are those queued before it and those it
accepts. -/
def Conserves (pin : BitVec 8) (e : Event) (s t : State) : Prop :=
  delivered pin e s t ++ t.queued pin = s.queued pin ++ accepted pin e s t

/-- An event that leaves the queued bytes as they are, delivers none and accepts none. -/
theorem Conserves.of_queued_eq {pin : BitVec 8} {e : Event} {s t : State} (h : t.queued pin = s.queued pin)
    (hd : delivered pin e s t = []) (ha : accepted pin e s t = []) : Conserves pin e s t := by
  rw [Conserves, hd, ha, h, List.nil_append, List.append_nil]

/-- A CH.WRITE that the event `e` runs on an OPEN channel, in a state `u` that has the channels and the responses of `s`: what is
accepted of it comes after the bytes already queued. -/
theorem execChWrite_queued {e : Event} {pin : BitVec 8} {len : BitVec 32} {payload : List Byte} {s u t : State}
    (hw : writeOf e s = some (pin, payload)) (hch : u.channels = s.channels) (hout : u.out = s.out)
    (hheld : u.held.length = heldAfter e s) (ho : (s.channel pin).state = .opened)
    (h : execChWrite pin len payload u = .next t) : t.queued pin = s.queued pin ++ accepted pin e s t := by
  have hc : u.channel pin = s.channel pin := by unfold State.channel; rw [hch]
  rw [← State.queued_congr hc]
  rw [← hc] at ho
  have hp : pin.toNat < u.numPins := State.lt_numPins_of_opened ho
  have refused : t.channel pin = u.channel pin → accepted pin e s t = [] →
      t.queued pin = u.queued pin ++ accepted pin e s t := fun h1 h2 => by
    rw [h2, List.append_nil, State.queued_congr h1]
  have ran : t.held = u.held → (∀ r ∈ newResponses s t, r.rsp = 0) → t.queued pin = u.queued pin ++ payload →
      t.queued pin = u.queued pin ++ accepted pin e s t := fun h1 h2 h3 => by
    rw [h3, accepted_of_ran hw (by rw [h1, hheld]) h2]
  have ok : ∀ (v : State) (r : BitVec 64), v.out = s.out → ∀ x ∈ newResponses s (v.answer .issuer .ok r []), x.rsp = 0 :=
    fun v r hv x hx => by
      rw [newResponses_answer hv] at hx
      rw [List.mem_singleton.mp hx]; rfl
  obtain ⟨hlen, h⟩ := execChWrite_eq_next h
  rcases h with ⟨hle, -⟩ | ⟨-, ⟨-, rfl⟩ | ⟨-, hno, -⟩ | ⟨hn, -, h⟩⟩
  · exact absurd hle (not_le.mpr hp)
  · refine refused rfl (accepted_of_held hw ?_)
    rw [List.length_append, hheld]
    exact Nat.succ_ne_self _
  · exact absurd ho hno
  rw [State.queued_of_pend_none hn] at ran refused ⊢
  rcases h with ⟨rfl, rfl⟩ | ⟨-, -, rfl⟩ | ⟨-, -, -, rfl⟩ | ⟨-, -, -, rfl⟩
  · refine ran rfl (ok _ _ hout) ?_
    rw [List.length_eq_zero_iff.mp hlen, List.append_nil]
    exact State.queued_of_pend_none hn
  · refine ran rfl (ok _ _ hout) ?_
    rw [State.queued_of_pend_none] <;> rw [State.answer_channel, State.channel_setChannel_same hp]
    exact hn
  · exact refused rfl (accepted_of_error hw (newResponses_answer hout _ _ _ _) (by decide))
  · refine ran rfl (fun r hr => ?_) ?_
    · rw [newResponses, State.setChannel_out, hout, List.drop_length] at hr
      cases hr
    · rw [State.queued_of_pend_some (by rw [State.channel_setChannel_same hp]), State.channel_setChannel_same hp,
        List.append_assoc, List.take_append_drop]

/-- A CH.READ of an OPEN channel delivers the bytes it takes from the front of the queue. -/
theorem execChRead_queued {pin : BitVec 8} {len : BitVec 32} {s t : State} (ho : (s.channel pin).state = .opened)
    (h : execChRead pin len s = .next t) : payloads (newResponses s t) ++ t.queued pin = s.queued pin := by
  have hp := State.lt_numPins_of_opened ho
  rcases execChRead_eq_next h with ⟨hle, -⟩ | ⟨-, hno, -⟩ | ⟨-, -, rfl⟩
  · exact absurd hle (not_le.mpr hp)
  · exact absurd ho hno
  · rw [newResponses_answer (s.setChannel_out pin _), State.queued, State.queued, State.answer_channel,
      State.channel_setChannel_same hp]
    simp only [payloads, List.flatMap_cons, List.flatMap_nil, List.append_nil]
    rw [← List.append_assoc, List.take_append_drop]

/-- A write-progress step moves bytes of the waiting write into the buffer, after those already there. -/
theorem runProgress_queued {q pin : BitVec 8} {s t : State} (h : runProgress q s = .next t) :
    t.queued pin = s.queued pin := by
  rcases runProgress_eq_next h with ⟨-, rfl⟩ | ⟨w, -, hw, h⟩
  · rfl
  by_cases hq : q = pin
  · subst hq
    have hp := State.lt_numPins_of_pend hw
    rw [State.queued_of_pend_some hw]
    rcases h with ⟨-, rfl⟩ | ⟨-, rfl⟩
    · rw [State.queued_of_pend_none] <;> rw [State.answer_channel, State.channel_setChannel_same hp]
    · rw [State.queued_of_pend_some (by rw [State.channel_setChannel_same hp]), State.channel_setChannel_same hp,
        List.append_assoc, List.take_append_drop]
  · apply State.queued_congr
    rcases h with ⟨-, rfl⟩ | ⟨-, rfl⟩
    · exact State.channel_of_set_ne hq rfl
    · exact State.channel_of_set_ne hq rfl

/-- The only command that delivers bytes of a pin is a CH.READ of it. -/
theorem delivered_of_command {pin : BitVec 8} {tr : Transaction} {i : Instr} {s t : State} (hd : decode tr = .command i)
    (hi : ∀ len, i ≠ .chRead pin len) : delivered pin (.command tr) s t = [] := by
  simp only [delivered, hd]
  cases i
  case chRead q len => exact if_neg fun hq => hi len (by rw [hq])
  all_goals rfl

/-- The only command that bytes are accepted from on a pin is a CH.WRITE to it. -/
theorem accepted_of_command {pin : BitVec 8} {tr : Transaction} {i : Instr} {s t : State} (hd : decode tr = .command i)
    (hi : ∀ len payload, i ≠ .chWrite pin len payload) : accepted pin (.command tr) s t = [] := by
  cases i
  case chWrite q len payload =>
    exact accepted_of_other_pin (by simp only [writeOf, hd]; rfl) fun hq => hi len payload (by rw [hq])
  all_goals exact accepted_of_no_write (by simp only [writeOf, hd])

/-- Of the commands of its pin, those that leave an OPEN channel OPEN: CH.WRITE, CH.READ, and a CH.CREATE that fails. -/
theorem exec_opened {pin : BitVec 8} {i : Instr} {s t : State} (h : exec i s = .next t) (hi : pinOf i = some pin)
    (hs : (s.channel pin).state = .opened) (ht : (t.channel pin).state = .opened) :
    (∃ b, i = .chCreate pin b ∧ t.channel pin = s.channel pin) ∨ (∃ len payload, i = .chWrite pin len payload)
      ∨ ∃ len, i = .chRead pin len := by
  have hp := State.lt_numPins_of_opened hs
  cases i with
  | synInit => cases hi
  | synGen _ => cases hi
  | synWreg _ _ => cases hi
  | synRreg _ => cases hi
  | chCreate q b =>
    cases hi
    refine .inl ⟨b, rfl, ?_⟩
    rcases execChCreate_eq_next h with ⟨_, rfl⟩ | ⟨_, _, rfl⟩ | ⟨_, hidle, _⟩
    · rfl
    · rfl
    · rw [hs] at hidle; cases hidle
  | chWrite q n p => cases hi; exact .inr (.inl ⟨n, p, rfl⟩)
  | chClosep q =>
    cases hi
    rcases execChClosep_eq_next h with ⟨hle, _⟩ | ⟨_, hidle, _⟩ | ⟨_, _, rfl⟩
    · exact absurd hle (not_le.mpr hp)
    · rw [hs] at hidle; cases hidle
    · rw [State.channel_of_set hp rfl] at ht; cases ht
  | chRead q n => cases hi; exact .inr (.inr ⟨n, rfl⟩)
  | chClosec q =>
    cases hi
    rcases execChClosec_eq_next h with ⟨hle, _⟩ | ⟨_, hno, _⟩ | ⟨_, _, rfl⟩
    · exact absurd hle (not_le.mpr hp)
    · exact absurd hs hno
    · rw [State.channel_of_set hp rfl] at ht; cases ht
  | cqOpen => cases hi
  | cqClose => cases hi
  | cqInfo _ => cases hi
  | cqStatus _ => cases hi
  | cqMute _ => cases hi

/-- A command that leaves the channel OPEN keeps its bytes. -/
theorem Conserves.of_exec {pin : BitVec 8} {tr : Transaction} {i : Instr} {s t : State} (hd : decode tr = .command i)
    (h : exec i s = .next t) (hs : (s.channel pin).state = .opened) (ht : (t.channel pin).state = .opened) :
    Conserves pin (.command tr) s t := by
  by_cases hi : pinOf i = some pin
  · rcases exec_opened h hi hs ht with ⟨b, rfl, hc⟩ | ⟨len, payload, rfl⟩ | ⟨len, rfl⟩
    · exact .of_queued_eq (State.queued_congr hc) (delivered_of_command hd fun _ => Instr.noConfusion)
        (accepted_of_command hd fun _ _ => Instr.noConfusion)
    · rw [Conserves, delivered_of_command hd fun _ => Instr.noConfusion, List.nil_append]
      exact execChWrite_queued (by simp only [writeOf, hd]) rfl rfl rfl hs h
    · rw [Conserves, accepted_of_command hd fun _ _ => Instr.noConfusion, List.append_nil]
      simp only [delivered, hd, if_true]
      exact execChRead_queued hs h
  · refine .of_queued_eq (State.queued_congr (exec_channel_of_other_pin h hi)) (delivered_of_command hd ?_)
      (accepted_of_command hd ?_)
    · rintro len rfl; exact hi rfl
    · rintro len payload rfl; exact hi rfl

/-- A held CH.WRITE that runs keeps the bytes of every OPEN channel. -/
theorem Conserves.of_resume {pin : BitVec 8} {k : Nat} {w : HeldWrite} {s t : State} (hk : s.held[k]? = some w)
    (h : exec (.chWrite w.pin w.len w.payload) { s with held := s.held.eraseIdx k } = .next t)
    (hs : (s.channel pin).state = .opened) : Conserves pin (.resume k) s t := by
  have hw : writeOf (.resume k) s = some (w.pin, w.payload) := by simp only [writeOf, hk, Option.map_some]
  by_cases hp : w.pin = pin
  · subst hp
    have hheld : (s.held.eraseIdx k).length = s.held.length - 1 :=
      List.length_eraseIdx_of_lt (List.getElem?_eq_some_iff.mp hk).1
    exact execChWrite_queued (u := { s with held := s.held.eraseIdx k }) hw rfl rfl hheld hs h
  · have hc : t.channel pin = s.channel pin :=
      exec_channel_of_other_pin (s := { s with held := s.held.eraseIdx k }) h fun hc => hp (Option.some.inj hc)
    exact .of_queued_eq (State.queued_congr hc) rfl (accepted_of_other_pin hw hp)

/-- A held CH.WRITE that stays held is not accepted. -/
theorem accepted_of_resume_held {pin : BitVec 8} {k : Nat} {s : State} : accepted pin (.resume k) s s = [] := by
  cases hk : s.held[k]? with
  | none => exact accepted_of_no_write (by simp only [writeOf, hk, Option.map_none])
  | some w =>
    have hlt : k < s.held.length := (List.getElem?_eq_some_iff.mp hk).1
    refine accepted_of_held (q := w.pin) (payload := w.payload) (by simp only [writeOf, hk, Option.map_some]) ?_
    simp only [heldAfter]
    omega

/-- Every event of a session keeps the bytes of its channel. -/
theorem conserves_event {pin : BitVec 8} {e : Event} {s t : State} (h : runEvent e s = .next t)
    (hs : (s.channel pin).state = .opened) (ht : (t.channel pin).state = .opened) : Conserves pin e s t := by
  rcases runEvent_cases h with ⟨tr, i, rfl, hd, h⟩ | ⟨tr, c, rfl, hd, rfl⟩ | ⟨q, rfl, h⟩ | ⟨k, w, rfl, hk, -, h⟩ |
    ⟨k, rfl, rfl, -⟩ | ⟨spk, mic, rfl, rfl⟩ | ⟨spk, mic, rfl, h⟩
  · exact .of_exec hd h hs ht
  · exact .of_queued_eq rfl (by simp only [delivered, hd]) (accepted_of_no_write (by simp only [writeOf, hd]))
  · exact .of_queued_eq (runProgress_queued h) rfl rfl
  · exact .of_resume hk h hs
  · exact .of_queued_eq rfl rfl accepted_of_resume_held
  · exact .of_queued_eq rfl rfl rfl
  · rw [runReset_channel h] at ht; cases ht

theorem liveThroughout_opened {pin : BitVec 8} {es : List Event} {s : State} (h : liveThroughout pin es s = true) :
    (s.channel pin).state = .opened := by
  cases es with
  | nil => simpa [liveThroughout] using h
  | cons e rest => exact of_decide_eq_true (Bool.and_eq_true_iff.mp h).1

/-- A run of one event more that lies within a session: the event, and a run within the session from the state after it. -/
theorem liveThroughout_cons {pin : BitVec 8} {e : Event} {rest : List Event} {s : State}
    (h : liveThroughout pin (e :: rest) s = true) : ∃ u, runEvent e s = .next u ∧ liveThroughout pin rest u = true := by
  have h2 := (Bool.and_eq_true_iff.mp h).2
  cases hu : runEvent e s with
  | next u => rw [hu] at h2; exact ⟨u, rfl, h2⟩
  | fault r => rw [hu] at h2; cases h2
  | refused r => rw [hu] at h2; cases h2

/-- Settles O45, by induction on the events of the run: each one keeps the bytes of the channel. -/
theorem fifoKeepsEveryByteInOrder : Obligations.FifoKeepsEveryByteInOrder := by
  intro s t es pin hrun hlive
  induction es generalizing s with
  | nil =>
    obtain rfl := Host.Outcome.next.inj hrun
    simp [deliveredIn, acceptedIn]
  | cons e rest ih =>
    obtain ⟨u, hu, hrest⟩ := liveThroughout_cons hlive
    simp only [runAll, hu] at hrun
    have hstep : Conserves pin e s u := conserves_event hu (liveThroughout_opened hlive) (liveThroughout_opened hrest)
    simp only [deliveredIn, acceptedIn, hu]
    calc delivered pin e s u ++ deliveredIn pin rest u ++ t.queued pin
        = delivered pin e s u ++ (u.queued pin ++ acceptedIn pin rest u) := by rw [List.append_assoc, ih u hrun hrest]
      _ = s.queued pin ++ (accepted pin e s u ++ acceptedIn pin rest u) := by
        rw [← List.append_assoc, hstep, List.append_assoc]

/-! ### The hold of a CH.WRITE -/

/-- A CH.WRITE of the right shape on a pin where a write waits is held. -/
theorem execChWrite_of_pend {pin : BitVec 8} {len : BitVec 32} {payload : List Byte} {s : State}
    (hlen : payload.length = len.toNat) (hp : pin.toNat < s.numPins) (hw : (s.channel pin).pend ≠ none) :
    execChWrite pin len payload s = .next { s with held := s.held ++ [{ pin := pin, len := len, payload := payload }] } := by
  unfold execChWrite
  rw [if_neg (not_not.mpr hlen), withPin_of_lt hp, if_pos (Option.isSome_iff_ne_none.mpr hw)]
  rfl

/-- A CH.CREATE of a channel that is not IDLE. -/
theorem execChCreate_of_ne_idle {pin : BitVec 8} {b : Bool} {s : State} (hp : pin.toNat < s.numPins)
    (hs : (s.channel pin).state ≠ .idle) : execChCreate pin b s = .next (s.answer .issuer .alreadyOpen 0 []) := by
  unfold execChCreate
  rw [withPin_of_lt hp, if_pos hs]
  rfl

/-- Only a CH.WRITE on a pin where a write waits changes the held writes. -/
theorem exec_held {i : Instr} {s t : State} (h : exec i s = .next t) :
    t.held = s.held ∨ ∃ pin len payload, i = .chWrite pin len payload ∧ (s.channel pin).pend ≠ none := by
  cases i with
  | synInit => left; rcases execSynInit_eq_next h with ⟨_, rfl⟩ | ⟨_, _, rfl⟩ | ⟨_, _, _, rfl⟩ <;> rfl
  | synGen n => left; rcases execSynGen_eq_next h with ⟨_, rfl⟩ | ⟨_, rfl⟩ <;> rfl
  | synWreg r v => left; rcases execSynWreg_eq_next h with rfl | ⟨_, _, _, _, rfl⟩ <;> rfl
  | synRreg r => left; rcases execSynRreg_eq_next h with rfl | ⟨_, _, rfl⟩ <;> rfl
  | chCreate q b => left; rcases execChCreate_eq_next h with ⟨_, rfl⟩ | ⟨_, _, rfl⟩ | ⟨_, _, rfl⟩ <;> rfl
  | chWrite q n p =>
    rcases execChWrite_eq_next h with ⟨-, ⟨_, rfl⟩ | ⟨_, ⟨hw, _⟩ | ⟨_, _, rfl⟩ |
      ⟨_, _, ⟨_, rfl⟩ | ⟨_, _, rfl⟩ | ⟨_, _, _, rfl⟩ | ⟨_, _, _, rfl⟩⟩⟩⟩
    · exact .inl rfl
    · exact .inr ⟨q, n, p, rfl, hw⟩
    all_goals exact .inl rfl
  | chClosep q => left; rcases execChClosep_eq_next h with ⟨_, rfl⟩ | ⟨_, _, rfl⟩ | ⟨_, _, rfl⟩ <;> rfl
  | chRead q n => left; rcases execChRead_eq_next h with ⟨_, rfl⟩ | ⟨_, _, rfl⟩ | ⟨_, _, rfl⟩ <;> rfl
  | chClosec q => left; rcases execChClosec_eq_next h with ⟨_, rfl⟩ | ⟨_, _, rfl⟩ | ⟨_, _, rfl⟩ <;> rfl
  | cqOpen => left; rw [execCqOpen_eq_next.mp h]; rfl
  | cqClose => left; rcases execCqClose_eq_next h with ⟨_, rfl⟩ | ⟨_, rfl⟩ <;> rfl
  | cqInfo n => left; rcases query_eq_next h with ⟨_, rfl⟩ | ⟨_, _, rfl⟩ <;> rfl
  | cqStatus n => left; rcases query_eq_next h with ⟨_, rfl⟩ | ⟨_, _, rfl⟩ <;> rfl
  | cqMute m => left; rw [execCqMute_eq_next.mp h]; rfl

/-- A held write whose pin has no waiting write runs as a new command. -/
theorem runResume_of_pend_none {k : Nat} {w : HeldWrite} {s : State} (hk : s.held[k]? = some w)
    (hw : (s.channel w.pin).pend = none) :
    runResume k s = exec (.chWrite w.pin w.len w.payload) { s with held := s.held.eraseIdx k } := by
  simp [runResume, hk, HeldWrite.released, hw]

/-- A held write whose pin has a waiting write stays held. -/
theorem runResume_of_pend {k : Nat} {w : HeldWrite} {s : State} (hk : s.held[k]? = some w)
    (hw : (s.channel w.pin).pend ≠ none) : runResume k s = .next s := by
  simp [runResume, hk, HeldWrite.released, Option.isSome_iff_ne_none.mpr hw]

/-- A write waits on OPEN channels only (10_state.md R49). -/
theorem State.Inv.opened_of_pend {s : State} {pin : BitVec 8} {w : Pending} (hi : s.Inv)
    (hw : (s.channel pin).pend = some w) : (s.channel pin).state = .opened := by
  obtain ⟨-, -, -, hpend⟩ := State.Inv.channel hi pin
  rw [hw, Option.all_some, decide_eq_true_eq] at hpend
  exact hpend.1

/-- Settles O36: what CH.WRITE and CH.CREATE answer on the pin of a waiting write, which command changes the held writes, and what
a held write does when its turn comes. -/
theorem chWriteIsHeldBehindAWaitingWrite : Obligations.ChWriteIsHeldBehindAWaitingWrite := by
  refine ⟨fun s pin len payload c hlen hc hw => ?_, fun s t i h hne => ?_, fun s pin b c hi hc hw => ?_,
    fun s k rest w hin hk => ⟨fun hw => ?_, fun hw => ?_⟩⟩
  · exact execChWrite_of_pend hlen (List.getElem?_eq_some_iff.mp hc).1 (by rwa [State.channel_of_getElem? hc])
  · exact (exec_held h).resolve_left hne
  · obtain ⟨w, hw⟩ := Option.ne_none_iff_exists'.mp hw
    rw [← State.channel_of_getElem? hc] at hw
    have ho : (s.channel pin).state = .opened := State.Inv.opened_of_pend hi hw
    exact execChCreate_of_ne_idle (List.getElem?_eq_some_iff.mp hc).1 (by rw [ho]; exact ChannelState.noConfusion)
  · rw [step_cons hin]
    exact runResume_of_pend_none hk hw
  · rw [step_cons hin]
    exact runResume_of_pend hk hw

end Sys2Proof.Proofs
end

section
/-! PROOFS. The arithmetic of the family 00_scope.md: rounding, fmod, sum, product and quotient of binary64 (R13), and the
reference sine (40_synth.md R133). -/

namespace Sys2Proof.Proofs

open Sys2Proof

/-! ### Rounding -/

/-- Rounding gives an infinity from half a step past the largest finite value on. -/
theorem F64.isInf_round {neg : Bool} {num den : Nat} (h : 0 < den) :
    F64.isInf (F64.round neg num den) = true ↔ (2 ^ 54 - 1) * 2 ^ 2044 * den ≤ num := by
  constructor
  · intro hi
    by_contra hc
    rw [F64.not_isInf_of_isFinite (F64.round_spec h (not_le.mp hc)).1] at hi
    cases hi
  · intro hle
    rw [F64.round_overflow h hle]
    exact F64.isInf_pack_infMag

/-- A number by its sign and its magnitude. -/
def signed (neg : Bool) (n : Nat) : Int := if neg then -(n : Int) else n

theorem F64.units_eq_signed (x : F64) : F64.units x = signed (F64.sign x) (F64.mag x) := rfl

theorem natAbs_signed (neg : Bool) (n : Nat) : (signed neg n).natAbs = n := by
  cases neg <;> simp [signed]

theorem signed_not (neg : Bool) (n : Nat) : signed (!neg) n = -signed neg n := by
  cases neg <;> simp [signed]

/-- A number is the one of its magnitude and its sign; zero has either. -/
theorem signed_natAbs {neg : Bool} {z : Int} (h : z ≠ 0 → neg = decide (z < 0)) : signed neg z.natAbs = z := by
  rcases eq_or_ne z 0 with rfl | h0
  · cases neg <;> rfl
  · rw [h h0, signed]
    rcases lt_or_ge z 0 with hz | hz
    · rw [decide_eq_true hz, if_pos rfl]; omega
    · rw [decide_eq_false (not_lt.mpr hz), if_neg Bool.false_ne_true]; omega

theorem signed_mul (a b : Bool) (m n : Nat) : signed a m * signed b n = signed (a != b) (m * n) := by
  cases a <;> cases b <;> simp [signed]

theorem signed_eq_mul (neg : Bool) (n : Nat) : signed neg n = signed neg 1 * n := by
  cases neg <;> simp [signed]

/-- Two numbers of the same sign are as far apart as their magnitudes. -/
theorem abs_signed_sub_signed (neg : Bool) (m den n : Nat) :
    |signed neg m * den - signed neg n| = |(m : Int) * den - n| := by
  cases neg with
  | false => rfl
  | true =>
    simp only [signed, if_true]
    rw [← abs_neg]
    congr 1
    ring

/-- No two numbers are nearer than their magnitudes. -/
theorem abs_natAbs_sub_le (neg : Bool) (u : Int) (den n : Nat) :
    |(u.natAbs : Int) * den - n| ≤ |u * den - signed neg n| := by
  have h := abs_abs_sub_abs_le (u * den) (signed neg n)
  rwa [abs_mul, Nat.abs_cast, Int.abs_eq_natAbs u, Int.abs_eq_natAbs (signed neg n), natAbs_signed] at h

/-- Opposite numbers are equally far from another one only where that is zero or they are. -/
theorem eq_zero_of_abs_sub_eq {a b : Int} (h : |a - b| = |-a - b|) : a = 0 ∨ b = 0 := by
  rcases abs_eq_abs.mp h with h | h
  · left; omega
  · right; omega

/-- A rounding of zero is zero. -/
theorem F64.mag_round_zero {neg : Bool} {den : Nat} (h : 0 < den) : F64.mag (F64.round neg 0 den) = 0 := by
  have hle := (F64.mag_round_le (neg := neg) h F64.zero_isFinite (Nat.zero_le _)).2
  rw [F64.zero_mag] at hle
  exact Nat.le_zero.mp hle

/-- No finite value is nearer to the exact one than a finite rounding, and another one as near makes its last bit even. The other
one has another magnitude: the opposite of the rounding is as near only where the exact value is zero, and there it is equal. -/
theorem F64.round_nearest {neg : Bool} {num den : Nat} (h : 0 < den)
    (hf : F64.isFinite (F64.round neg num den) = true) {z : F64} (hz : F64.isFinite z = true) :
    |F64.units (F64.round neg num den) * den - signed neg num| ≤ |F64.units z * den - signed neg num|
      ∧ (|F64.units (F64.round neg num den) * den - signed neg num| = |F64.units z * den - signed neg num| →
          F64.units z ≠ F64.units (F64.round neg num den) → F64.fracField (F64.round neg num den) % 2 = 0) := by
  have hlt : num < (2 ^ 54 - 1) * 2 ^ 2044 * den := by
    rw [← not_le, ← F64.isInf_round h (neg := neg), F64.not_isInf_of_isFinite hf]
    exact Bool.false_ne_true
  obtain ⟨-, hs, hm, hlast⟩ := F64.round_spec (neg := neg) h hlt
  obtain ⟨near, tie⟩ := F64.kept_nearest (num := num) h hz
  have hr : |F64.units (F64.round neg num den) * den - signed neg num|
      = |((F64.kept num den * 2 ^ F64.dropped num den : Nat) : Int) * den - num| := by
    rw [F64.units_eq_signed, hs, hm, abs_signed_sub_signed]
  have hzd := abs_natAbs_sub_le neg (F64.units z) den num
  rw [F64.natAbs_units] at hzd
  refine ⟨hr.trans_le (near.trans hzd), fun heq hne => ?_⟩
  rw [hlast]
  refine tie (le_antisymm near (by rw [← hr, heq]; exact hzd)) fun hzm => hne ?_
  have hopp : F64.units z = -F64.units (F64.round neg num den) := by
    refine (Int.natAbs_eq_natAbs_iff.mp ?_).resolve_left hne
    rw [F64.natAbs_units, F64.natAbs_units, hzm, hm]
  have h0 : F64.units (F64.round neg num den) = 0 := by
    rw [hopp, neg_mul] at heq
    rcases eq_zero_of_abs_sub_eq heq with h0 | h0
    · exact (mul_eq_zero.mp h0).resolve_right (by exact_mod_cast h.ne')
    · rw [← Int.natAbs_eq_zero, natAbs_signed] at h0
      rw [← Int.natAbs_eq_zero, F64.natAbs_units, h0]
      exact F64.mag_round_zero h
  rw [hopp, h0, neg_zero]

/-- R13's rounding by its sign and its exact value. -/
theorem F64.roundsTo_round {neg : Bool} {num den : Nat} (h : 0 < den) :
    Machine.RoundsTo (signed neg num) den (F64.round neg num den) := by
  refine ⟨F64.not_isNaN_round h, fun h0 => ?_, ?_, fun hf z hz => F64.round_nearest h hf hz⟩
  · rw [F64.sign_round]
    cases neg with
    | false => exact (decide_eq_false (not_lt.mpr (Int.natCast_nonneg num))).symm
    | true => simp only [signed, if_true] at h0 ⊢; exact (decide_eq_true (by omega)).symm
  · rw [natAbs_signed]
    exact F64.isInf_round h

/-- Settles O26: sign, overflow and the nearest finite value of a rounding. -/
theorem roundingIsToNearestEven : Obligations.RoundingIsToNearestEven :=
  fun _ _ _ h => ⟨F64.roundsTo_round h, F64.sign_round⟩

/-- Settles O27: the remainder of two significands with powers of two is one, which rounding keeps. -/
theorem fmodIsExact : Obligations.FmodIsExact := by
  intro x y hx hy h0
  obtain ⟨m, j, hmod, hm, hj⟩ := F64.mod_form hx hy h0
  rw [F64.fmod_of_isFinite hx hy h0, hmod]
  exact F64.mag_round_of_form hm hj

/-! ### Sum, product and quotient -/

/-- A zero of either sign is the rounding of zero. -/
theorem F64.round_zero (neg : Bool) : F64.round neg 0 1 = F64.pack neg 0 := by
  have hp : (0 : Nat) < 2 ^ 63 := by norm_num
  refine F64.eq_of_sign_mag ?_ ?_
  · rw [F64.sign_round, F64.sign_pack hp]
  · rw [F64.mag_round_zero Nat.one_pos, F64.mag_pack hp]
    decide

theorem F64.roundsTo_add {x y : F64} (hx : F64.isFinite x = true) (hy : F64.isFinite y = true) :
    Machine.RoundsTo (F64.units x + F64.units y) 1 (F64.add x y) := by
  rw [F64.add_of_isFinite hx hy]
  generalize F64.units x + F64.units y = z
  have rounds : ∀ neg, (z ≠ 0 → neg = decide (z < 0)) → Machine.RoundsTo z 1 (F64.round neg z.natAbs 1) := fun neg h => by
    have hr := F64.roundsTo_round (neg := neg) (num := z.natAbs) Nat.one_pos
    rwa [signed_natAbs h] at hr
  split
  · subst z
    rw [← F64.round_zero]
    exact rounds _ fun h => absurd rfl h
  · exact rounds _ fun _ => rfl

/-- The sign of an exact zero sum. -/
theorem F64.sign_add_of_units_zero {x y : F64} (hx : F64.isFinite x = true) (hy : F64.isFinite y = true)
    (h0 : F64.units x + F64.units y = 0) : F64.sign (F64.add x y) = (F64.sign x && F64.sign y) := by
  rw [F64.add_of_isFinite hx hy, if_pos h0, F64.sign_pack (by norm_num)]

theorem F64.mul_of_isFinite {x y : F64} (hx : F64.isFinite x = true) (hy : F64.isFinite y = true) :
    F64.mul x y = F64.round (F64.sign x != F64.sign y) (F64.mag x * F64.mag y) F64.unitsPerOne := by
  simp [F64.mul, hx, hy]

theorem F64.div_of_isFinite {x y : F64} (hx : F64.isFinite x = true) (hy : F64.isFinite y = true) (h0 : F64.mag y ≠ 0) :
    F64.div x y = F64.round (F64.sign x != F64.sign y) (F64.mag x * F64.unitsPerOne) (F64.mag y) := by
  simp [F64.div, F64.not_isNaN_of_isFinite hx, F64.not_isNaN_of_isFinite hy, F64.not_isInf_of_isFinite hx,
    F64.not_isInf_of_isFinite hy, h0]

theorem F64.unitsPerOne_pos : 0 < F64.unitsPerOne := Nat.pow_pos Nat.two_pos

theorem F64.roundsTo_mul {x y : F64} (hx : F64.isFinite x = true) (hy : F64.isFinite y = true) :
    Machine.RoundsTo (F64.units x * F64.units y) F64.unitsPerOne (F64.mul x y) := by
  rw [F64.mul_of_isFinite hx hy, F64.units_eq_signed, F64.units_eq_signed, signed_mul]
  exact F64.roundsTo_round F64.unitsPerOne_pos

theorem F64.roundsTo_div {x y : F64} (hx : F64.isFinite x = true) (hy : F64.isFinite y = true) (h0 : F64.mag y ≠ 0) :
    Machine.RoundsTo (F64.units x * F64.unitsPerOne * (if F64.sign y then -1 else 1)) (F64.mag y) (F64.div x y) := by
  have e : F64.units x * F64.unitsPerOne * (if F64.sign y then -1 else 1)
      = signed (F64.sign x != F64.sign y) (F64.mag x * F64.unitsPerOne) := by
    have hy1 : (if F64.sign y then -1 else 1) = signed (F64.sign y) 1 := rfl
    have hU : (F64.unitsPerOne : Int) = signed false F64.unitsPerOne := rfl
    rw [hy1, hU, F64.units_eq_signed, signed_mul, signed_mul, Bool.bne_false, Nat.mul_one]
  rw [F64.div_of_isFinite hx hy h0, e]
  exact F64.roundsTo_round (Nat.pos_of_ne_zero h0)

/-- A number below 2^53 is a value of binary64. -/
theorem F64.ofNat_exact {n : Nat} (h : n < 2 ^ 53) :
    F64.isFinite (F64.ofNat n) = true ∧ F64.units (F64.ofNat n) = n * F64.unitsPerOne := by
  have hround : F64.isFinite (F64.ofNat n) = true ∧ F64.sign (F64.ofNat n) = false
      ∧ F64.mag (F64.ofNat n) = n * F64.unitsPerOne := by
    unfold F64.ofNat F64.unitsPerOne
    exact F64.mag_round_of_form h (by decide)
  obtain ⟨hf, hs, hm⟩ := hround
  refine ⟨hf, ?_⟩
  rw [F64.units_of_not_sign hs, hm, Nat.cast_mul]

/-- Settles O57: each operation on finite values rounds the exact result once. -/
theorem arithmeticRoundsTheExactResult : Obligations.ArithmeticRoundsTheExactResult := by
  refine ⟨fun x y hx hy => ⟨⟨F64.roundsTo_add hx hy, F64.sign_add_of_units_zero hx hy⟩, ⟨F64.roundsTo_mul hx hy, ?_⟩,
    fun h0 => ⟨F64.roundsTo_div hx hy h0, ?_⟩⟩, fun n hn => F64.ofNat_exact (by omega)⟩
  · rw [F64.mul_of_isFinite hx hy, F64.sign_round]
  · rw [F64.div_of_isFinite hx hy h0, F64.sign_round]

/-! ### The reference sine -/

theorem F64.mag_one : F64.mag F64.one = F64.unitsPerOne := by
  rw [F64.mag_eq_patternMag, Nat.mod_eq_of_lt (by decide), F64.one_pattern]

/-- The opposite of a finite value is one. -/
theorem F64.exists_neg {z : F64} (hz : F64.isFinite z = true) :
    ∃ w : F64, F64.isFinite w = true ∧ F64.units w = -F64.units z := by
  have hp : z.toNat % 2 ^ 63 < 2 ^ 63 := Nat.mod_lt _ (by norm_num)
  refine ⟨F64.pack (!F64.sign z) (z.toNat % 2 ^ 63), ?_, ?_⟩
  · rw [← F64.pack_sign_mod z] at hz
    unfold F64.isFinite at hz ⊢
    rwa [F64.expField_pack hp] at hz ⊢
  · rw [F64.units_eq_signed, F64.sign_pack hp, F64.mag_pack hp, signed_not, F64.units_eq_signed z, F64.mag_eq_patternMag z]

/-- A rounding held to [-1, 1] is the rounding itself, or 1 with its sign where the exact value is past 1. -/
theorem F64.pack_unitMag_magBits (neg : Bool) (n : Nat) :
    F64.pack neg (unitMag (F64.magBits n 1)) = F64.round neg n 1
      ∨ (F64.unitsPerOne < n ∧ F64.units (F64.pack neg (unitMag (F64.magBits n 1))) = signed neg F64.unitsPerOne) := by
  rcases le_or_gt (F64.magBits n 1) F64.one.toNat with hle | hgt
  · left
    rw [unitMag, min_eq_left hle]
    rfl
  · right
    constructor
    · by_contra hc
      have hmag := (F64.mag_round_le (neg := neg) (z := F64.one) (num := n) Nat.one_pos (by decide)
        (by rw [F64.mag_one]; omega)).2
      rw [F64.round, F64.mag_pack (F64.magBits_lt n 1), F64.mag_one, ← F64.one_pattern,
        F64.patternMag_strictMono.le_iff_le] at hmag
      omega
    · have h1 : F64.one.toNat < 2 ^ 63 := by decide
      rw [unitMag, min_eq_right hgt.le, F64.units_eq_signed, F64.sign_pack h1, F64.mag_pack h1, F64.one_pattern]

theorem F64.unitsPerOne_cast_pos : (0 : ℝ) < F64.unitsPerOne := Nat.cast_pos.mpr F64.unitsPerOne_pos

theorem signed_cast (neg : Bool) (n : Nat) : ((signed neg n : Int) : ℝ) = if neg then -(n : ℝ) else n := by
  cases neg with
  | false => exact Int.cast_natCast n
  | true => exact (Int.cast_neg _).trans (congrArg _ (Int.cast_natCast n))

/-- A number past 1 and near one of [-1, 1] is as near to 1 with its sign. -/
theorem abs_sign_sub_le {neg : Bool} {u n s ε : ℝ} (hu : 0 < u) (hn : u < n) (hs : |s| ≤ 1)
    (h : |(if neg then -n else n) / u - s| ≤ ε) : |(if neg then -u else u) / u - s| ≤ ε := by
  have h1 : 1 < n / u := (one_lt_div hu).mpr hn
  rw [abs_le] at hs h ⊢
  cases neg with
  | false =>
    simp only [Bool.false_eq_true, if_false, div_self hu.ne'] at h ⊢
    constructor <;> linarith
  | true =>
    simp only [if_true, neg_div, div_self hu.ne'] at h ⊢
    constructor <;> linarith

/-- The value nearest to a point near `s`, held to [-1, 1], is the nearest to `s` but for twice the distance of the two points. -/
theorem F64.unitMag_magBits_near {neg : Bool} {n : Nat} {s ε : ℝ} (hs : |s| ≤ 1)
    (h : |(signed neg n : ℝ) / F64.unitsPerOne - s| ≤ ε) {z : F64} (hz : F64.isFinite z = true) :
    |(F64.units (F64.pack neg (unitMag (F64.magBits n 1))) : ℝ) / F64.unitsPerOne - s|
      ≤ |(F64.units z : ℝ) / F64.unitsPerOne - s| + 2 * ε := by
  have hu := F64.unitsPerOne_cast_pos
  rcases F64.pack_unitMag_magBits neg n with hr | ⟨hn, hr⟩
  · have hf : F64.isFinite (F64.round neg n 1) = true := by rw [← hr]; exact F64.pack_unitMag.1
    rw [hr]
    have near := (F64.round_nearest Nat.one_pos hf hz).1
    rw [Nat.cast_one, mul_one, mul_one] at near
    generalize F64.units (F64.round neg n 1) = r at *
    generalize F64.units z = w at *
    generalize signed neg n = y at *
    have near' : |(r : ℝ) / F64.unitsPerOne - y / F64.unitsPerOne| ≤ |(w : ℝ) / F64.unitsPerOne - y / F64.unitsPerOne| := by
      rw [← sub_div, ← sub_div, abs_div, abs_div]
      exact div_le_div_of_nonneg_right (by exact_mod_cast near) (abs_nonneg _)
    have h1 := abs_sub_le ((r : ℝ) / F64.unitsPerOne) (y / F64.unitsPerOne) s
    have h2 := abs_sub_le ((w : ℝ) / F64.unitsPerOne) s (y / F64.unitsPerOne)
    rw [abs_sub_comm s] at h2
    linarith
  · rw [hr]
    have hn' : (F64.unitsPerOne : ℝ) < n := by exact_mod_cast hn
    have hε : 0 ≤ ε := (abs_nonneg _).trans h
    rw [signed_cast] at h ⊢
    have key := abs_sign_sub_le hu hn' hs h
    have hz0 := abs_nonneg ((F64.units z : ℝ) / F64.unitsPerOne - s)
    linarith

/-- The fixed-point sum of the reference sine, in units of 2^-320. -/
def sinFixed (mag : Nat) : Int := sinSeries (sinArgument mag * sinArgument mag) 70 1 (sinArgument mag)

theorem sinReference_of_small {x : F64} (hx : F64.isFinite x = true) (h : F64.mag x < 2 ^ (1074 - 26)) :
    sinReference x = x := by
  rw [sinReference, if_neg (by rw [hx]; exact Bool.noConfusion), if_pos h]

theorem sinReference_of_large {x : F64} (hx : F64.isFinite x = true) (h : 2 ^ (1074 - 26) ≤ F64.mag x) :
    sinReference x = F64.pack (F64.sign x != decide (sinFixed (F64.mag x) < 0))
      (unitMag (F64.magBits (2 ^ (1074 - sinScale) * (sinFixed (F64.mag x)).natAbs) 1)) := by
  rw [sinReference, if_neg (by rw [hx]; exact Bool.noConfusion), if_neg (not_lt.mpr h), Nat.mul_comm]
  rfl

/-- The sine of a value has the sign of the value, by the sine of its magnitude. -/
theorem sin_units (x : F64) :
    Real.sin ((F64.units x : ℝ) / F64.unitsPerOne)
      = (signed (F64.sign x) 1 : ℝ) * Real.sin ((F64.mag x : ℝ) / F64.unitsPerOne) := by
  rw [F64.units_eq_signed, signed_cast, signed_cast]
  cases F64.sign x with
  | false => simp only [Bool.false_eq_true, if_false, Nat.cast_one, one_mul]
  | true => simp only [if_true, Nat.cast_one, neg_one_mul, neg_div, Real.sin_neg]

/-- Below 2^-26 the value itself is the nearest to its sine. -/
theorem sinReference_near_of_small {x z : F64} (hx : F64.isFinite x = true) (hz : F64.isFinite z = true)
    (h : F64.mag x < 2 ^ (1074 - 26)) :
    |(F64.units (sinReference x) : ℝ) / F64.unitsPerOne - Real.sin ((F64.units x : ℝ) / F64.unitsPerOne)|
      ≤ |(F64.units z : ℝ) / F64.unitsPerOne - Real.sin ((F64.units x : ℝ) / F64.unitsPerOne)| := by
  rw [sinReference_of_small hx h]
  cases hs : F64.sign x with
  | false =>
    rw [F64.units_of_not_sign hs, Int.cast_natCast]
    exact sin_of_small hx hz h
  | true =>
    obtain ⟨w, hw, hwz⟩ := F64.exists_neg hz
    have key := sin_of_small hx hw h
    rw [hwz, Int.cast_neg, neg_div, ← neg_add', abs_neg, ← sub_neg_eq_add] at key
    rwa [F64.units_of_sign hs, Int.cast_neg, Int.cast_natCast, neg_div, Real.sin_neg, neg_sub_neg, abs_sub_comm]

/-- From 2^-26 on the exact value that is rounded is the sine to within 1026 units of 2^-320. -/
theorem sinFixed_units_near {x : F64} (hx : F64.isFinite x = true) (h : 2 ^ (1074 - 26) ≤ F64.mag x) :
    |(signed (F64.sign x != decide (sinFixed (F64.mag x) < 0)) (2 ^ (1074 - sinScale) * (sinFixed (F64.mag x)).natAbs) : ℝ)
        / F64.unitsPerOne - Real.sin ((F64.units x : ℝ) / F64.unitsPerOne)| ≤ 1026 / 2 ^ sinScale := by
  have near : |(sinFixed (F64.mag x) : ℝ) / 2 ^ sinScale - Real.sin (F64.mag x / F64.unitsPerOne)| ≤ 1026 / 2 ^ sinScale :=
    sinFixed_near hx h
  rw [sin_units, ← signed_mul, signed_natAbs fun _ => rfl, Int.cast_mul]
  generalize Real.sin ((F64.mag x : ℝ) / F64.unitsPerOne) = σ at *
  generalize (sinFixed (F64.mag x) : ℝ) = v at *
  have hU : (F64.unitsPerOne : ℝ) = 2 ^ sinScale * 2 ^ (1074 - sinScale) := by
    rw [← pow_add, F64.unitsPerOne, Nat.cast_pow, Nat.cast_ofNat]
    rfl
  have hsplit : ((signed (F64.sign x) (2 ^ (1074 - sinScale)) : Int) : ℝ) * v / F64.unitsPerOne - signed (F64.sign x) 1 * σ
      = signed (F64.sign x) 1 * (v / 2 ^ sinScale - σ) := by
    rw [signed_eq_mul, Int.cast_mul, Int.cast_natCast, Nat.cast_pow, Nat.cast_ofNat, hU, mul_right_comm,
      mul_div_mul_right _ _ (by positivity), mul_sub, mul_div_assoc]
  have h1 : |((signed (F64.sign x) 1 : Int) : ℝ)| = 1 := by
    rw [← Int.cast_abs, Int.abs_eq_natAbs, natAbs_signed]
    norm_num
  rw [hsplit, abs_mul, h1, one_mul]
  exact near

/-- The reference sine is the nearest to within 2^-300. -/
theorem sinReference_near {x z : F64} (hx : F64.isFinite x = true) (hz : F64.isFinite z = true) :
    |(F64.units (sinReference x) : ℝ) / F64.unitsPerOne - Real.sin ((F64.units x : ℝ) / F64.unitsPerOne)|
      ≤ |(F64.units z : ℝ) / F64.unitsPerOne - Real.sin ((F64.units x : ℝ) / F64.unitsPerOne)| + 1 / 2 ^ 300 := by
  rcases lt_or_ge (F64.mag x) (2 ^ (1074 - 26)) with h | h
  · have h300 : (0 : ℝ) ≤ 1 / 2 ^ 300 := by positivity
    exact (sinReference_near_of_small hx hz h).trans (le_add_of_nonneg_right h300)
  · have hε : 2 * ((1026 : ℝ) / 2 ^ sinScale) ≤ 1 / 2 ^ 300 := by
      have e : (2 : ℝ) ^ sinScale = 2 ^ 20 * 2 ^ 300 := by rw [← pow_add]; rfl
      rw [e, ← mul_div_assoc, div_mul_eq_div_div]
      exact div_le_div_of_nonneg_right (by norm_num) (by positivity)
    rw [sinReference_of_large hx h]
    exact (F64.unitMag_magBits_near (Real.abs_sin_le_one _) (sinFixed_units_near hx h) hz).trans (add_le_add le_rfl hε)

/-- Settles O59: the range of every SIN_IMPL, and how near the reference one is. -/
theorem referenceSineIsNearest : Obligations.ReferenceSineIsNearest :=
  ⟨fun _ _ => sinImpl_unit, fun _ _ hx hz => sinReference_near hx hz⟩

end Sys2Proof.Proofs
end

section
/-! PROOFS. The state of the family 10_state.md: what a command can do to SYN and to the channel of its pin, what every event leaves
as it was, and from these the invariant of the machine (R36 to R49), the wait of a pending write (R50), the flags and their writers
(R54) and the constancy of the parameters (R30). -/

namespace Sys2Proof.Proofs

open Sys2Proof Sys2Proof.Machine

/-! ### What a command does -/

/-- What no command and no write-progress step touches: the parameters, the number of channels, ENV and the responses already
given. -/
structure Framed (s t : State) : Prop where
  cfg : t.cfg = s.cfg
  numPins : t.numPins = s.numPins
  env : t.env = s.env
  out : s.out <+: t.out

/-- What a command can do to SYN (40_synth.md, 42_control.md R200). -/
inductive SynMove (cfg : Config) : Instr → Syn → Syn → Prop
  | keep {i : Instr} {y : Syn} : SynMove cfg i y y
  | fail {y : Syn} : SynMove cfg .synInit y y.failInit
  | start {y : Syn} (hformat : formatOk cfg y.stgChannels y.stgBits y.stgRate = true) (hparams : paramsFinite y = true)
      (hinc : F64.isFinite (F64.increment y.stgFreq y.stgRate) = true) :
      SynMove cfg .synInit y (y.startInstance (F64.increment y.stgFreq y.stgRate))
  | fill {y : Syn} {len : BitVec 32} (hready : y.ready = true) : SynMove cfg (.synGen len) y (y.generate cfg len.toNat).2
  | write {y y' : Syn} {reg : BitVec 8} {val : BitVec 64} {r : SynReg} (hw : r.write? val y = some y') :
      SynMove cfg (.synWreg reg val) y y'
  | mute {y : Syn} {m : Bool} : SynMove cfg (.cqMute m) y (y.setMute m)

/-- What a command can do to the channel of its pin, whose buffer holds at most `cap` bytes (41_channel.md). -/
inductive ChannelMove (cap : Nat) : Instr → Channel → Channel → Prop
  | keep {i : Instr} {c : Channel} : ChannelMove cap i c c
  | create {pin : BitVec 8} {b : Bool} {c : Channel} (hs : c.state = .idle) :
      ChannelMove cap (.chCreate pin b) c (Channel.newSession b)
  | enqueue {pin : BitVec 8} {len : BitVec 32} {bytes : List Byte} {c : Channel} (hs : c.state = .opened) (hn : c.pend = none)
      (hfit : bytes.length ≤ cap - c.buf.length) :
      ChannelMove cap (.chWrite pin len bytes) c { c with buf := c.buf ++ bytes }
  | wait {pin : BitVec 8} {len : BitVec 32} {bytes : List Byte} {c : Channel} (hs : c.state = .opened) (hn : c.pend = none)
      (hb : c.blocking = true) (hlen : bytes.length = len.toNat) (hfull : cap - c.buf.length < bytes.length) :
      ChannelMove cap (.chWrite pin len bytes) c
        { c with
          buf := c.buf ++ bytes.take (cap - c.buf.length)
          pend := some { rest := bytes.drop (cap - c.buf.length), done := cap - c.buf.length } }
  | release {pin : BitVec 8} {c : Channel} (hs : c.state ≠ .idle) : ChannelMove cap (.chClosep pin) c Channel.reset
  | read {pin : BitVec 8} {len : BitVec 32} {c : Channel} (hs : c.state = .opened) :
      ChannelMove cap (.chRead pin len) c { c with buf := c.buf.drop (min len.toNat c.buf.length) }
  | breakOff {pin : BitVec 8} {c : Channel} (hs : c.state = .opened) :
      ChannelMove cap (.chClosec pin) c { c with state := .broken, buf := [], pend := none }

/-- The effect of a SYN or CQ command: a move of SYN, and the handle where the command is one of its two. -/
structure SynEffect (i : Instr) (s t : State) : Prop extends Framed s t where
  move : SynMove s.cfg i s.syn t.syn
  handle : i ≠ .cqOpen → i ≠ .cqClose → t.handle = s.handle
  channels : t.channels = s.channels
  held : t.held = s.held

/-- The effect of a CH command: a move of the channel of its pin, and at most a well-shaped write held. -/
structure ChannelEffect (i : Instr) (pin : BitVec 8) (s t : State) : Prop extends Framed s t where
  move : ∃ c, ChannelMove s.cfg.fifoCapacity i (s.channel pin) c ∧ t.channels = s.channels.set pin.toNat c
  held : ∀ w ∈ t.held, w ∈ s.held ∨ w.Inv s.numPins
  syn : t.syn = s.syn
  handle : t.handle = s.handle

/-- Writing back the channel read changes nothing, also for a pin past the last. -/
theorem State.set_channel_self (s : State) (pin : BitVec 8) : s.channels.set pin.toNat (s.channel pin) = s.channels := by
  rcases lt_or_ge pin.toNat s.channels.length with h | h
  · simp [State.channel, h]
  · exact List.set_eq_of_length_le h

/-- A command that answers and touches at most SYN and the handle. -/
theorem SynEffect.of_answer {i : Instr} {s : State} {y : Syn} {b : Bool} {st : Status} {r : BitVec 64} {p : List Byte}
    (hm : SynMove s.cfg i s.syn y) (hb : i ≠ .cqOpen → i ≠ .cqClose → b = s.handle) :
    SynEffect i s (State.answer { s with syn := y, handle := b } .issuer st r p) where
  cfg := rfl
  numPins := rfl
  env := rfl
  out := List.prefix_append _ _
  move := hm
  handle := hb
  channels := rfl
  held := rfl

/-- A command that writes the channel of its pin and gives the responses `rs`. -/
theorem ChannelEffect.of_move {i : Instr} {pin : BitVec 8} {s t : State} {c : Channel}
    (hm : ChannelMove s.cfg.fifoCapacity i (s.channel pin) c) (rs : List Response)
    (ht : t = { s with channels := s.channels.set pin.toNat c, out := s.out ++ rs }) : ChannelEffect i pin s t where
  cfg := by rw [ht]
  numPins := by rw [ht]; exact List.length_set
  env := by rw [ht]
  out := by rw [ht]; exact List.prefix_append _ _
  move := ⟨c, hm, by rw [ht]⟩
  held := by rw [ht]; exact fun _ => .inl
  syn := by rw [ht]
  handle := by rw [ht]

/-- A CH command that only answers. -/
theorem ChannelEffect.of_answer {i : Instr} {pin : BitVec 8} {s : State} {st : Status} {r : BitVec 64} {p : List Byte} :
    ChannelEffect i pin s (s.answer .issuer st r p) :=
  .of_move .keep _ (by rw [State.set_channel_self]; rfl)

/-- A CH.WRITE of the right shape on a pin that exists, held. -/
theorem ChannelEffect.of_hold {pin : BitVec 8} {len : BitVec 32} {payload : List Byte} {s : State}
    (hp : pin.toNat < s.numPins) (hlen : payload.length = len.toNat) :
    ChannelEffect (.chWrite pin len payload) pin s
      { s with held := s.held ++ [{ pin := pin, len := len, payload := payload }] } where
  cfg := rfl
  numPins := rfl
  env := rfl
  out := List.prefix_rfl
  move := ⟨_, .keep, (State.set_channel_self s pin).symm⟩
  held w hw := (List.mem_append.mp hw).imp_right fun h => by rw [List.mem_singleton.mp h]; exact ⟨hlen, hp⟩
  syn := rfl
  handle := rfl

theorem execChWrite_effect {pin : BitVec 8} {len : BitVec 32} {payload : List Byte} {s t : State}
    (h : execChWrite pin len payload s = .next t) : ChannelEffect (.chWrite pin len payload) pin s t := by
  obtain ⟨hlen, ⟨-, rfl⟩ | ⟨hp, ⟨-, rfl⟩ | ⟨-, -, rfl⟩ | ⟨hn, ho, h⟩⟩⟩ := execChWrite_eq_next h
  · exact .of_answer
  · exact .of_hold hp hlen
  · exact .of_answer
  rcases h with ⟨-, rfl⟩ | ⟨-, hfit, rfl⟩ | ⟨-, -, -, rfl⟩ | ⟨-, hfull, hb, rfl⟩
  · exact .of_answer
  · exact .of_move (.enqueue ho hn hfit) _ rfl
  · exact .of_answer
  · exact .of_move (.wait ho hn hb hlen hfull) [] (by rw [List.append_nil]; rfl)

/-- What a command does: it moves SYN or the handle, or it moves the channel of its pin. -/
theorem exec_effect {i : Instr} {s t : State} (h : exec i s = .next t) :
    (pinOf i = none ∧ SynEffect i s t) ∨ ∃ pin, pinOf i = some pin ∧ ChannelEffect i pin s t := by
  cases i with
  | synInit =>
    refine .inl ⟨rfl, ?_⟩
    rcases execSynInit_eq_next h with ⟨-, rfl⟩ | ⟨-, -, rfl⟩ | ⟨hf, hp, hi, rfl⟩
    · exact .of_answer .fail fun _ _ => rfl
    · exact .of_answer .fail fun _ _ => rfl
    · exact .of_answer (.start hf hp hi) fun _ _ => rfl
  | synGen n =>
    refine .inl ⟨rfl, ?_⟩
    rcases execSynGen_eq_next h with ⟨-, rfl⟩ | ⟨hr, rfl⟩
    · exact .of_answer .keep fun _ _ => rfl
    · exact .of_answer (.fill hr) fun _ _ => rfl
  | synWreg r v =>
    refine .inl ⟨rfl, ?_⟩
    rcases execSynWreg_eq_next h with rfl | ⟨_, _, -, hw, rfl⟩
    · exact .of_answer .keep fun _ _ => rfl
    · exact .of_answer (.write hw) fun _ _ => rfl
  | synRreg r =>
    refine .inl ⟨rfl, ?_⟩
    rcases execSynRreg_eq_next h with rfl | ⟨_, -, rfl⟩
    · exact .of_answer .keep fun _ _ => rfl
    · exact .of_answer .keep fun _ _ => rfl
  | chCreate q b =>
    refine .inr ⟨q, rfl, ?_⟩
    rcases execChCreate_eq_next h with ⟨-, rfl⟩ | ⟨-, -, rfl⟩ | ⟨-, hs, rfl⟩
    · exact .of_answer
    · exact .of_answer
    · exact .of_move (.create hs) _ rfl
  | chWrite q n p => exact .inr ⟨q, rfl, execChWrite_effect h⟩
  | chClosep q =>
    refine .inr ⟨q, rfl, ?_⟩
    rcases execChClosep_eq_next h with ⟨-, rfl⟩ | ⟨-, -, rfl⟩ | ⟨-, hs, rfl⟩
    · exact .of_answer
    · exact .of_answer
    · exact .of_move (.release hs) (_ ++ [_]) (by rw [← List.append_assoc]; rfl)
  | chRead q n =>
    refine .inr ⟨q, rfl, ?_⟩
    rcases execChRead_eq_next h with ⟨-, rfl⟩ | ⟨-, -, rfl⟩ | ⟨-, hs, rfl⟩
    · exact .of_answer
    · exact .of_answer
    · exact .of_move (.read hs) _ rfl
  | chClosec q =>
    refine .inr ⟨q, rfl, ?_⟩
    rcases execChClosec_eq_next h with ⟨-, rfl⟩ | ⟨-, -, rfl⟩ | ⟨-, hs, rfl⟩
    · exact .of_answer
    · exact .of_answer
    · exact .of_move (.breakOff hs) (_ ++ [_]) (by rw [← List.append_assoc]; rfl)
  | cqOpen =>
    rw [execCqOpen_eq_next.mp h]
    exact .inl ⟨rfl, .of_answer .keep fun hne _ => absurd rfl hne⟩
  | cqClose =>
    refine .inl ⟨rfl, ?_⟩
    rcases execCqClose_eq_next h with ⟨-, rfl⟩ | ⟨-, rfl⟩
    · exact .of_answer .keep fun _ _ => rfl
    · exact .of_answer .keep fun _ hne => absurd rfl hne
  | cqInfo n =>
    refine .inl ⟨rfl, ?_⟩
    rcases query_eq_next h with ⟨-, rfl⟩ | ⟨-, -, rfl⟩
    · exact .of_answer .keep fun _ _ => rfl
    · exact .of_answer .keep fun _ _ => rfl
  | cqStatus n =>
    refine .inl ⟨rfl, ?_⟩
    rcases query_eq_next h with ⟨-, rfl⟩ | ⟨-, -, rfl⟩
    · exact .of_answer .keep fun _ _ => rfl
    · exact .of_answer .keep fun _ _ => rfl
  | cqMute m =>
    rw [execCqMute_eq_next.mp h]
    exact .inl ⟨rfl, .of_answer .mute fun _ _ => rfl⟩

theorem exec_framed {i : Instr} {s t : State} (h : exec i s = .next t) : Framed s t := by
  rcases exec_effect h with ⟨-, he⟩ | ⟨_, -, he⟩
  · exact he.toFramed
  · exact he.toFramed

/-! ### What an event leaves as it was -/

theorem Framed.refl (s : State) : Framed s s := ⟨rfl, rfl, rfl, List.prefix_rfl⟩

theorem runProgress_framed {pin : BitVec 8} {s t : State} (h : runProgress pin s = .next t) : Framed s t := by
  rcases runProgress_eq_next h with ⟨-, rfl⟩ | ⟨w, -, -, ⟨-, rfl⟩ | ⟨-, rfl⟩⟩
  · exact .refl _
  · exact ⟨rfl, State.setChannel_numPins _ _ _, rfl, List.prefix_append _ _⟩
  · exact ⟨rfl, State.setChannel_numPins _ _ _, rfl, List.prefix_rfl⟩

/-- An event that is neither the input change nor a reset. -/
theorem runEvent_framed {e : Event} {s t : State} (h : runEvent e s = .next t) (hin : ∀ spk mic, e ≠ .inputChange spk mic)
    (hre : ∀ spk mic, e ≠ .reset spk mic) : Framed s t := by
  rcases runEvent_cases h with ⟨_, i, rfl, -, h⟩ | ⟨_, _, rfl, -, rfl⟩ | ⟨pin, rfl, h⟩ | ⟨k, w, rfl, -, -, h⟩ |
    ⟨k, rfl, rfl, -⟩ | ⟨spk, mic, rfl, -⟩ | ⟨spk, mic, rfl, -⟩
  · exact exec_framed h
  · exact ⟨rfl, rfl, rfl, List.prefix_append _ _⟩
  · exact runProgress_framed h
  · obtain ⟨hcfg, hpins, henv, hout⟩ := exec_framed h
    exact ⟨hcfg, hpins, henv, hout⟩
  · exact .refl _
  · exact absurd rfl (hin spk mic)
  · exact absurd rfl (hre spk mic)

/-- A reset keeps the parameters, the number of channels and the log. -/
theorem runReset_keeps {spk mic : Bool} {s t : State} (h : runReset spk mic s = .next t) :
    t.cfg = s.cfg ∧ t.numPins = s.numPins ∧ t.out = s.out := by
  obtain rfl := Host.Outcome.next.inj h
  exact ⟨rfl, List.length_replicate, rfl⟩

theorem runEvent_keeps_parameters {e : Event} {s t : State} (h : runEvent e s = .next t) :
    t.cfg = s.cfg ∧ t.numPins = s.numPins ∧ s.out <+: t.out := by
  have framed : Framed s t → t.cfg = s.cfg ∧ t.numPins = s.numPins ∧ s.out <+: t.out := fun hf =>
    ⟨hf.cfg, hf.numPins, hf.out⟩
  cases e with
  | command tr => exact framed (runEvent_framed h (by simp) (by simp))
  | progress pin => exact framed (runEvent_framed h (by simp) (by simp))
  | resume k => exact framed (runEvent_framed h (by simp) (by simp))
  | inputChange spk mic =>
    obtain rfl := Host.Outcome.next.inj h
    exact ⟨rfl, rfl, List.prefix_rfl⟩
  | reset spk mic =>
    obtain ⟨hcfg, hpins, hout⟩ := runReset_keeps h
    exact ⟨hcfg, hpins, by rw [hout]⟩

/-- A step with an empty inbox does nothing; any other is its event, in the state without it. -/
theorem step_eq_next {s t : State} (h : step s = .next t) :
    t = s ∨ ∃ e rest, s.inbox = e :: rest ∧ runEvent e { s with inbox := rest } = .next t := by
  cases hin : s.inbox with
  | nil =>
    rw [step_nil hin] at h
    exact .inl (Host.Outcome.next.inj h).symm
  | cons e rest =>
    rw [step_cons hin] at h
    exact .inr ⟨e, rest, rfl, h⟩

/-- Settles O6: a step is its event, and no event touches the parameters or takes back a response. -/
theorem parametersNeverChange : Obligations.ParametersNeverChange := by
  intro s t h
  rcases step_eq_next h with rfl | ⟨e, rest, -, h⟩
  · exact ⟨rfl, rfl, List.prefix_rfl⟩
  · exact runEvent_keeps_parameters (s := { s with inbox := rest }) h

/-- Settles O52: the input change by its definition, every other event by its frame. -/
theorem onlyTheInputChangeWritesEnv : Obligations.OnlyTheInputChangeWritesEnv :=
  ⟨fun _ _ _ _ hin => step_cons hin, fun _ _ _ h hin hre => (runEvent_framed h hin hre).env⟩

/-- Settles O46: a CH command moves the channel of its pin only. -/
theorem channelsOfDifferentPinsShareNoState : Obligations.ChannelsOfDifferentPinsShareNoState := by
  refine fun s t i h => ⟨fun pin hp => ?_, exec_channels_of_pinOf_none h⟩
  rcases exec_effect h with ⟨hn, -⟩ | ⟨p, hp', he⟩
  · rw [hn] at hp; cases hp
  · obtain rfl : p = pin := Option.some.inj (hp'.symm.trans hp)
    obtain ⟨c, -, hc⟩ := he.move
    exact ⟨he.syn, he.handle, he.env, fun q hq => by rw [hc, List.getElem?_set_ne hq.symm]⟩

/-! ### SYN under a command -/

/-- The phase stays in its range along the frames: each next one is a wrap of a finite sum (10_state.md R38). -/
theorem Syn.thetaAt_inPhaseRange {y : Syn} (hθ : InPhaseRange y.theta) (hinc : F64.isFinite y.inc = true) (n : Nat) :
    InPhaseRange (y.thetaAt n) := by
  induction n with
  | zero => exact hθ
  | succ n ih =>
    obtain ⟨hfin, -, hlt⟩ := inPhaseRange_iff.mp ih
    exact inPhaseRange_iff.mpr (F64.wrap_range (F64.add_below_twoPi hfin hlt hinc))

/-- A fill leaves everything of SYN but theta and the carry. -/
theorem Syn.generate_snd_eq (cfg : Config) (len : Nat) (y : Syn) :
    ∃ theta carry, (y.generate cfg len).2 = { y with theta := theta, carry := carry } := by
  simp only [Syn.generate, Syn.computeFrames_eq]
  split
  · exact ⟨_, _, rfl⟩
  · exact ⟨_, _, rfl⟩

/-- The carry that a fill leaves is shorter than a frame (R44). -/
theorem length_drop_carry_lt {carry frames : List Byte} {f len : Nat} (hf : 0 < f)
    (hframes : frames.length = framesFor f (len - carry.length) * f) (hc : carry.length < f) :
    ((carry ++ frames).drop len).length < f := by
  rw [List.length_drop, List.length_append, hframes]
  rcases Nat.le_total len carry.length with hle | hle
  · have hnone : framesFor f (len - carry.length) = 0 := by
      rw [Nat.sub_eq_zero_of_le hle]
      exact Nat.div_eq_of_lt (by omega)
    rw [hnone]
    omega
  · obtain ⟨-, hupper⟩ := framesFor_spec (n := len - carry.length) hf
    omega

/-- A fill by a ready synthesizer keeps its invariant. -/
theorem Syn.ReadyInv.generate {cfg : Config} {y : Syn} (h : y.ReadyInv cfg) (len : Nat) :
    ((y.generate cfg len).2).ReadyInv cfg := by
  obtain ⟨hformat, hframe, hampl, hdc, hinc, hθ, hcarry⟩ := h
  have hf : 0 < y.frame.toNat := Nat.zero_lt_of_lt hcarry
  rw [Syn.generate_eq len hf hframe]
  refine ⟨hformat, hframe, hampl, hdc, hinc, Syn.thetaAt_inPhaseRange hθ hinc _, ?_⟩
  exact length_drop_carry_lt hf (by rw [Syn.stream_length, hframe]) hcarry

/-- A good format has at least one channel and a depth of at least one byte (40_synth.md R114). -/
theorem formatOk_pos {cfg : Config} {ch bits : BitVec 16} {rate : BitVec 32} (h : formatOk cfg ch bits rate = true) :
    0 < ch.toNat ∧ 0 < bits.toNat / 8 := by
  simp only [formatOk, Bool.and_eq_true, decide_eq_true_eq] at h
  obtain ⟨⟨⟨⟨hch, -⟩, -⟩, hsup⟩, -⟩ := h
  obtain ⟨d, -, hd⟩ := List.any_eq_true.mp hsup
  rw [← eq_of_beq hd]
  exact ⟨hch, by cases d <;> decide⟩

/-- The frame size of any format is a u32 (10_state.md R36). -/
theorem frame_toNat (ch bits : BitVec 16) :
    (BitVec.ofNat 32 (ch.toNat * (bits.toNat / 8))).toNat = ch.toNat * (bits.toNat / 8) := by
  have hb : bits.toNat / 8 < 2 ^ 16 := lt_of_le_of_lt (Nat.div_le_self _ _) bits.isLt
  have hlt : ch.toNat * (bits.toNat / 8) < 2 ^ 16 * 2 ^ 16 := Nat.mul_lt_mul'' ch.isLt hb
  exact Nat.mod_eq_of_lt hlt

/-- A successful SYN.INIT leaves a synthesizer that meets the invariant of a ready one. -/
theorem Syn.ReadyInv.startInstance {cfg : Config} {y : Syn} {inc : F64}
    (hformat : formatOk cfg y.stgChannels y.stgBits y.stgRate = true) (hparams : paramsFinite y = true)
    (hinc : F64.isFinite inc = true) : (y.startInstance inc).ReadyInv cfg := by
  simp only [paramsFinite, Bool.and_eq_true] at hparams
  obtain ⟨⟨⟨-, hampl⟩, hdc⟩, hphase⟩ := hparams
  obtain ⟨hch, hb⟩ := formatOk_pos hformat
  refine ⟨hformat, frame_toNat _ _, hampl, hdc, hinc, inPhaseRange_iff.mpr (F64.wrap_range hphase), ?_⟩
  rw [Syn.startInstance_frame, frame_toNat]
  exact Nat.mul_pos hch hb

/-- Every move of SYN keeps its invariant. -/
theorem SynMove.inv {cfg : Config} {i : Instr} {y y' : Syn} (h : SynMove cfg i y y') (hi : y.Inv cfg) : y'.Inv cfg := by
  cases h with
  | keep => exact hi
  | fail => exact ⟨fun h => Bool.noConfusion h, fun _ => ⟨rfl, rfl, rfl, rfl, rfl, rfl, rfl, rfl, rfl⟩⟩
  | start hformat hparams hinc =>
    exact ⟨fun _ => Syn.ReadyInv.startInstance hformat hparams hinc, fun h => Bool.noConfusion h⟩
  | @fill _ len hready =>
    have hr : ((y.generate cfg len.toNat).2).ready = true := by
      obtain ⟨θ, carry, he⟩ := Syn.generate_snd_eq cfg len.toNat y
      rw [he]; exact hready
    refine ⟨fun _ => Syn.ReadyInv.generate (hi.1 hready) len.toNat, fun h => ?_⟩
    rw [hr] at h; cases h
  | write hw =>
    obtain ⟨_, _, _, _, _, _, _, rfl⟩ := SynReg.write?_frame hw
    exact hi
  | mute => exact hi

/-! ### A channel under a command -/

/-- A buffer that takes the first bytes of more than fit is full. -/
theorem length_append_take_free {cap : Nat} {buf bytes : List Byte} (hbuf : buf.length ≤ cap)
    (hfull : cap - buf.length < bytes.length) : (buf ++ bytes.take (cap - buf.length)).length = cap := by
  rw [List.length_append, List.length_take]
  omega

/-- A write that waits on with bytes left, after as many as fit went into the buffer. -/
theorem Channel.Inv.fill {cfg : Config} {c : Channel} {bytes : List Byte} {done : Nat} (hi : c.Inv cfg)
    (hs : c.state = .opened) (hb : c.blocking = true) (hfull : cfg.fifoCapacity - c.buf.length < bytes.length)
    (hd : done + (bytes.drop (cfg.fifoCapacity - c.buf.length)).length < 2 ^ 32) :
    Channel.Inv cfg
      { c with
        buf := c.buf ++ bytes.take (cfg.fifoCapacity - c.buf.length)
        pend := some { rest := bytes.drop (cfg.fifoCapacity - c.buf.length), done := done } } := by
  obtain ⟨hbuf, -, hidle, -⟩ := hi
  have hrest : bytes.drop (cfg.fifoCapacity - c.buf.length) ≠ [] := by
    rw [Ne, List.drop_eq_nil_iff, not_le]; exact hfull
  refine ⟨(length_append_take_free hbuf hfull).le, fun hne => absurd hs hne, hidle, ?_⟩
  rw [Option.all_some, decide_eq_true_eq]
  exact ⟨hs, hb, hrest, hd⟩

/-- Bytes that fit go into the buffer of an OPEN channel, and the write that waited, if any, is kept or completed. -/
theorem Channel.Inv.append {cfg : Config} {c : Channel} {bytes : List Byte} {pend : Option Pending} (hi : c.Inv cfg)
    (hs : c.state = .opened) (hfit : bytes.length ≤ cfg.fifoCapacity - c.buf.length) (hp : pend = c.pend ∨ pend = none) :
    Channel.Inv cfg { c with buf := c.buf ++ bytes, pend := pend } := by
  obtain ⟨hbuf, -, hidle, hpend⟩ := hi
  refine ⟨?_, fun hne => absurd hs hne, hidle, ?_⟩
  · rw [List.length_append]; omega
  · rcases hp with rfl | rfl
    · exact hpend
    · rfl

/-- Every move of a channel keeps its invariant. -/
theorem ChannelMove.inv {cfg : Config} {i : Instr} {c c' : Channel} (h : ChannelMove cfg.fifoCapacity i c c')
    (hi : c.Inv cfg) : c'.Inv cfg := by
  cases h with
  | keep => exact hi
  | create hs => exact ⟨Nat.zero_le _, fun _ => rfl, fun h => ChannelState.noConfusion h, rfl⟩
  | enqueue hs hn hfit => exact Channel.Inv.append hi hs hfit (.inl rfl)
  | @wait _ len bytes _ hs hn hb hlen hfull =>
    refine Channel.Inv.fill hi hs hb hfull ?_
    have hlt := len.isLt
    rw [List.length_drop]
    omega
  | release hs => exact Channel.reset_inv cfg
  | read hs =>
    obtain ⟨hbuf, -, hidle, hpend⟩ := hi
    refine ⟨?_, fun hne => absurd hs hne, hidle, hpend⟩
    rw [List.length_drop]
    omega
  | breakOff hs => exact ⟨Nat.zero_le _, fun _ => rfl, fun h => ChannelState.noConfusion h, rfl⟩

/-! ### The invariant of the machine -/

/-- The parts of a state after a step that keeps the parameters and the number of channels. -/
theorem State.Inv.of_parts {s t : State} (hi : s.Inv) (hcfg : t.cfg = s.cfg) (hpins : t.numPins = s.numPins)
    (hsyn : t.syn.Inv s.cfg) (hch : ∀ c ∈ t.channels, c.Inv s.cfg) (hheld : ∀ w ∈ t.held, w.Inv s.numPins) : t.Inv := by
  obtain ⟨hl, h1, h2, -⟩ := hi
  unfold State.Inv
  rw [hcfg, hpins]
  exact ⟨hl, h1, h2, hsyn, hch, hheld⟩

/-- Channels that meet the invariant, with one of them replaced by one that meets it. -/
theorem inv_of_mem_set {cfg : Config} {cs : List Channel} {n : Nat} {c : Channel} (hcs : ∀ d ∈ cs, d.Inv cfg)
    (hc : c.Inv cfg) : ∀ d ∈ cs.set n c, d.Inv cfg := by
  intro d hd
  rcases List.mem_or_eq_of_mem_set hd with hd | rfl
  · exact hcs d hd
  · exact hc

/-- Every command keeps the invariant of the machine. -/
theorem exec_inv {i : Instr} {s t : State} (hi : s.Inv) (h : exec i s = .next t) : t.Inv := by
  have hchannel := State.Inv.channel hi
  have ⟨_, _, _, hsyn, hch, hheld⟩ := hi
  rcases exec_effect h with ⟨-, he⟩ | ⟨pin, -, he⟩
  · exact State.Inv.of_parts hi he.cfg he.numPins (he.move.inv hsyn) (by rwa [he.channels]) (by rwa [he.held])
  · obtain ⟨c, hm, hc⟩ := he.move
    refine State.Inv.of_parts hi he.cfg he.numPins (by rwa [he.syn]) ?_ fun w hw => (he.held w hw).elim (hheld w) id
    rw [hc]
    exact inv_of_mem_set hch (hm.inv (hchannel pin))

/-- The write-progress step keeps the invariant of the machine. -/
theorem runProgress_inv {pin : BitVec 8} {s t : State} (hi : s.Inv) (h : runProgress pin s = .next t) : t.Inv := by
  have hframe : Framed s t := runProgress_framed h
  have hc : (s.channel pin).Inv s.cfg := State.Inv.channel hi pin
  have ⟨_, _, _, hsyn, hch, hheld⟩ := hi
  rcases runProgress_eq_next h with ⟨-, rfl⟩ | ⟨w, -, hw, h⟩
  · exact hi
  have ⟨_, _, _, hpend⟩ := hc
  rw [hw, Option.all_some, decide_eq_true_eq] at hpend
  obtain ⟨hs, hb, -, hcount⟩ := hpend
  rcases h with ⟨hfit, rfl⟩ | ⟨hfull, rfl⟩
  · exact State.Inv.of_parts hi hframe.cfg hframe.numPins hsyn
      (inv_of_mem_set hch (Channel.Inv.append hc hs hfit (.inr rfl))) hheld
  · refine State.Inv.of_parts hi hframe.cfg hframe.numPins hsyn
      (inv_of_mem_set hch (Channel.Inv.fill hc hs hb hfull ?_)) hheld
    simp only [State.free] at hfull ⊢
    rw [List.length_drop]
    omega

/-- Every event keeps the invariant of the machine. -/
theorem runEvent_inv {e : Event} {s t : State} (hi : s.Inv) (h : runEvent e s = .next t) : t.Inv := by
  rcases runEvent_cases h with ⟨_, i, rfl, -, h⟩ | ⟨_, _, rfl, -, rfl⟩ | ⟨pin, rfl, h⟩ | ⟨k, w, rfl, -, -, h⟩ |
    ⟨k, rfl, rfl, -⟩ | ⟨spk, mic, rfl, rfl⟩ | ⟨spk, mic, rfl, h⟩
  · exact exec_inv hi h
  · exact hi
  · exact runProgress_inv hi h
  · refine exec_inv ?_ h
    obtain ⟨hl, h1, h2, hsyn, hch, hheld⟩ := hi
    exact ⟨hl, h1, h2, hsyn, hch, fun v hv => hheld v (List.mem_of_mem_eraseIdx hv)⟩
  · exact hi
  · exact hi
  · obtain rfl := Host.Outcome.next.inj h
    obtain ⟨hl, h1, h2, -⟩ := hi
    exact State.resetWith_inv (spk := spk) (mic := mic) hl h1 h2

/-- Settles O3: a step is its event, and every event keeps the invariant. -/
theorem stepKeepsInvariant : Obligations.StepKeepsInvariant := by
  intro s t hi h
  rcases step_eq_next h with rfl | ⟨e, rest, -, h⟩
  · exact hi
  · exact runEvent_inv (s := { s with inbox := rest }) hi h

/-! ### The wait of a pending write -/

/-- The one move after which a write newly waits fills the buffer. -/
theorem ChannelMove.buf_full_of_pend {cap : Nat} {i : Instr} {c c' : Channel} (h : ChannelMove cap i c c')
    (hbuf : c.buf.length ≤ cap) (hn : c.pend = none) (hp : c'.pend ≠ none) : c'.buf.length = cap := by
  cases h with
  | keep => exact absurd hn hp
  | create _ => exact absurd rfl hp
  | enqueue _ _ _ => exact absurd hn hp
  | wait _ _ _ _ hfull => exact length_append_take_free hbuf hfull
  | release _ => exact absurd rfl hp
  | read _ => exact absurd hn hp
  | breakOff _ => exact absurd rfl hp

/-- A command after which a write newly waits on a pin leaves the buffer there full. -/
theorem exec_buf_full_of_pend {i : Instr} {s t : State} {pin : BitVec 8} (h : exec i s = .next t)
    (hbuf : (s.channel pin).buf.length ≤ s.cfg.fifoCapacity) (hn : (s.channel pin).pend = none)
    (hp : (t.channel pin).pend ≠ none) : (t.channel pin).buf.length = t.cfg.fifoCapacity := by
  by_cases hi : pinOf i = some pin
  · rcases exec_effect h with ⟨hnone, -⟩ | ⟨p, hp', he⟩
    · rw [hnone] at hi; cases hi
    · obtain rfl : p = pin := Option.some.inj (hp'.symm.trans hi)
      obtain ⟨c, hm, hc⟩ := he.move
      obtain ⟨w, hw⟩ := Option.ne_none_iff_exists'.mp hp
      have hlt : p.toNat < s.numPins := he.numPins ▸ State.lt_numPins_of_pend hw
      rw [State.channel_of_set hlt hc] at hp ⊢
      rw [he.cfg]
      exact hm.buf_full_of_pend hbuf hn hp
  · rw [exec_channel_of_other_pin h hi] at hp
    exact absurd hn hp

/-- A write-progress step leaves a channel alone where no write waits, whatever its own pin. -/
theorem runProgress_channel_of_pend_none {q pin : BitVec 8} {s t : State} (h : runProgress q s = .next t)
    (hn : (s.channel pin).pend = none) : t.channel pin = s.channel pin := by
  rcases runProgress_eq_next h with ⟨-, rfl⟩ | ⟨w, -, hw, h⟩
  · rfl
  have hq : q ≠ pin := by
    rintro rfl
    rw [hn] at hw
    cases hw
  rcases h with ⟨-, rfl⟩ | ⟨-, rfl⟩
  · exact State.channel_of_set_ne hq rfl
  · exact State.channel_of_set_ne hq rfl

/-- An enabled write-progress step after which a write still waits leaves the buffer full. -/
theorem runProgress_buf_full_of_pend {pin : BitVec 8} {s t : State} (h : runProgress pin s = .next t)
    (hbuf : (s.channel pin).buf.length ≤ s.cfg.fifoCapacity) (he : s.progressEnabled pin = true)
    (hp : (t.channel pin).pend ≠ none) : (t.channel pin).buf.length = t.cfg.fifoCapacity := by
  rcases runProgress_eq_next h with ⟨hno, -⟩ | ⟨w, -, hw, h⟩
  · rw [he] at hno; cases hno
  have hlt := State.lt_numPins_of_pend hw
  rcases h with ⟨-, rfl⟩ | ⟨hfull, rfl⟩
  · rw [State.answer_channel, State.channel_setChannel_same hlt] at hp
    exact absurd rfl hp
  · rw [State.channel_setChannel_same hlt]
    exact length_append_take_free hbuf hfull

/-- Where a write waits and the buffer is not full, its write-progress step is enabled. -/
theorem progressEnabled_of_pend {s : State} {pin : BitVec 8} (hp : (s.channel pin).pend ≠ none)
    (hlt : (s.channel pin).buf.length < s.cfg.fifoCapacity) : s.progressEnabled pin = true := by
  obtain ⟨w, hw⟩ := Option.ne_none_iff_exists'.mp hp
  simp [State.progressEnabled, State.lt_numPins_of_pend hw, hw, hlt]

/-- An issue step or an enabled progress step that leaves a write waiting leaves the buffer full. -/
theorem runEvent_buf_full_of_pend {e : Event} {s t : State} {pin : BitVec 8} (h : runEvent e s = .next t)
    (hbuf : (s.channel pin).buf.length ≤ s.cfg.fifoCapacity)
    (hbefore : (s.channel pin).pend = none ∨ (e = .progress pin ∧ s.progressEnabled pin = true))
    (hp : (t.channel pin).pend ≠ none) : (t.channel pin).buf.length = t.cfg.fifoCapacity := by
  by_cases he : e = .progress pin ∧ s.progressEnabled pin = true
  · obtain ⟨rfl, hen⟩ := he
    exact runProgress_buf_full_of_pend h hbuf hen hp
  have hn : (s.channel pin).pend = none := hbefore.resolve_right he
  rcases runEvent_cases h with ⟨_, i, rfl, -, h⟩ | ⟨_, _, rfl, -, rfl⟩ | ⟨q, rfl, h⟩ | ⟨k, w, rfl, -, -, h⟩ |
    ⟨k, rfl, rfl, -⟩ | ⟨spk, mic, rfl, rfl⟩ | ⟨spk, mic, rfl, h⟩
  · exact exec_buf_full_of_pend h hbuf hn hp
  · exact absurd hn hp
  · rw [runProgress_channel_of_pend_none h hn] at hp
    exact absurd hn hp
  · exact exec_buf_full_of_pend (s := { s with held := s.held.eraseIdx k }) h hbuf hn hp
  · exact absurd hn hp
  · exact absurd hn hp
  · rw [runReset_channel h] at hp
    exact absurd rfl hp

/-- Settles O43: the buffer bound of the invariant, and what an event and an enabled progress step do to a waiting write. -/
theorem pendingWriteWaitsForSpaceOrProgress : Obligations.PendingWriteWaitsForSpaceOrProgress := by
  have bound : ∀ (s : State) (pin : BitVec 8), s.Inv → (s.channel pin).buf.length ≤ s.cfg.fifoCapacity := fun s pin hi =>
    (State.Inv.channel hi pin).1
  exact ⟨fun s t e pin hi h => runEvent_buf_full_of_pend h (bound s pin hi),
    fun s pin hi hp => (bound s pin hi).eq_or_lt.imp_right (progressEnabled_of_pend hp)⟩

/-! ### The staging registers -/

/-- A register that takes a value reads it back (10_state.md R41.5): a narrow one takes only values that fit. -/
theorem SynReg.read_of_write? {r : SynReg} {v : BitVec 64} {y y' : Syn} (h : r.write? v y = some y') : r.read y' = v := by
  have narrow : ∀ w, v.toNat < 2 ^ w → (v.setWidth w).setWidth 64 = v := fun w hv =>
    BitVec.eq_of_toNat_eq (by
      rw [BitVec.toNat_setWidth, BitVec.toNat_setWidth, Nat.mod_eq_of_lt hv, Nat.mod_eq_of_lt v.isLt])
  cases r <;> simp only [SynReg.write?, Option.ite_none_right_eq_some, Option.some.injEq, reduceCtorEq] at h
  case stgChannels => obtain ⟨hv, rfl⟩ := h; exact narrow 16 hv
  case stgBits => obtain ⟨hv, rfl⟩ := h; exact narrow 16 hv
  case stgRate => obtain ⟨hv, rfl⟩ := h; exact narrow 32 hv
  all_goals rw [← h]; rfl

/-- Settles O16: an OK write is one of a register that takes the value. -/
theorem writtenRegisterReadsBack : Obligations.WrittenRegisterReadsBack := by
  intro s t n v h hr
  rcases execSynWreg_eq_next h with rfl | ⟨r, y, hreg, hw, rfl⟩
  · rw [newResponses_answer rfl] at hr
    exact absurd (congrArg Response.rsp (List.singleton_inj.mp hr)) (by decide)
  · simp only [exec, execSynRreg, hreg, State.answer_syn, SynReg.read_of_write? hw]
    rfl

/-! ### The flags and their writers -/

/-- Only SYN.INIT writes `ready` and the active format and parameters. -/
theorem SynMove.active_eq {cfg : Config} {i : Instr} {y y' : Syn} (h : SynMove cfg i y y') (hi : i ≠ .synInit) :
    y'.ready = y.ready ∧ y'.actChannels = y.actChannels ∧ y'.actBits = y.actBits ∧ y'.actRate = y.actRate
      ∧ y'.frame = y.frame ∧ y'.ampl = y.ampl ∧ y'.dc = y.dc ∧ y'.inc = y.inc := by
  cases h with
  | keep => simp
  | fail => exact absurd rfl hi
  | start => exact absurd rfl hi
  | @fill _ len hready =>
    obtain ⟨θ, carry, he⟩ := Syn.generate_snd_eq cfg len.toNat y
    simp [he]
  | write hw =>
    obtain ⟨_, _, _, _, _, _, _, rfl⟩ := SynReg.write?_frame hw
    simp
  | mute => simp

/-- Only SYN.INIT and CQ.MUTE write `mute`. -/
theorem SynMove.mute_eq {cfg : Config} {i : Instr} {y y' : Syn} (h : SynMove cfg i y y') (hi : i ≠ .synInit)
    (hm : ∀ m, i ≠ .cqMute m) : y'.mute = y.mute := by
  cases h with
  | keep => rfl
  | fail => exact absurd rfl hi
  | start => exact absurd rfl hi
  | @fill _ len hready =>
    obtain ⟨θ, carry, he⟩ := Syn.generate_snd_eq cfg len.toNat y
    rw [he]
  | write hw =>
    obtain ⟨_, _, _, _, _, _, _, rfl⟩ := SynReg.write?_frame hw
    rfl
  | @mute _ m => exact absurd rfl (hm m)

/-- Only SYN.WREG writes the staging registers. -/
theorem SynMove.staging_eq {cfg : Config} {i : Instr} {y y' : Syn} (h : SynMove cfg i y y') (hi : ∀ n v, i ≠ .synWreg n v) :
    y'.stgChannels = y.stgChannels ∧ y'.stgBits = y.stgBits ∧ y'.stgRate = y.stgRate ∧ y'.stgFreq = y.stgFreq
      ∧ y'.stgAmpl = y.stgAmpl ∧ y'.stgDc = y.stgDc ∧ y'.stgPhase = y.stgPhase := by
  cases h with
  | keep => simp
  | fail => simp
  | start => simp
  | @fill _ len hready =>
    obtain ⟨θ, carry, he⟩ := Syn.generate_snd_eq cfg len.toNat y
    simp [he]
  | @write _ _ reg val _ _ => exact absurd rfl (hi reg val)
  | mute => simp

/-- Only CH.CREATE, CH.CLOSEP and CH.CLOSEC write the state of a channel. -/
theorem ChannelMove.state_eq {cap : Nat} {i : Instr} {c c' : Channel} (h : ChannelMove cap i c c')
    (h1 : ∀ pin b, i ≠ .chCreate pin b) (h2 : ∀ pin, i ≠ .chClosep pin) (h3 : ∀ pin, i ≠ .chClosec pin) :
    c'.state = c.state := by
  cases h with
  | keep => rfl
  | @create pin b => exact absurd rfl (h1 pin b)
  | enqueue => rfl
  | wait => rfl
  | @release pin => exact absurd rfl (h2 pin)
  | read => rfl
  | @breakOff pin => exact absurd rfl (h3 pin)

/-- Only CH.CREATE and CH.CLOSEP write the blocking flag of a channel. -/
theorem ChannelMove.blocking_eq {cap : Nat} {i : Instr} {c c' : Channel} (h : ChannelMove cap i c c')
    (h1 : ∀ pin b, i ≠ .chCreate pin b) (h2 : ∀ pin, i ≠ .chClosep pin) : c'.blocking = c.blocking := by
  cases h with
  | keep => rfl
  | @create pin b => exact absurd rfl (h1 pin b)
  | enqueue => rfl
  | wait => rfl
  | @release pin => exact absurd rfl (h2 pin)
  | read => rfl
  | breakOff => rfl

/-- A write of the channel of a pin that leaves one field of it as it was leaves that field of every channel as it was. -/
theorem State.map_set_channel {α : Type} {s : State} {pin : BitVec 8} {c : Channel} {f : Channel → α}
    (h : f c = f (s.channel pin)) : (s.channels.set pin.toNat c).map f = s.channels.map f := by
  rw [List.map_set, h, ← List.map_set, State.set_channel_self]

/-- Every command is a move of SYN; that of a CH command changes nothing. -/
theorem exec_synMove {i : Instr} {s t : State} (h : exec i s = .next t) : SynMove s.cfg i s.syn t.syn := by
  rcases exec_effect h with ⟨-, he⟩ | ⟨_, -, he⟩
  · exact he.move
  · rw [he.syn]; exact .keep

theorem exec_handle_eq {i : Instr} {s t : State} (h : exec i s = .next t) (ho : i ≠ .cqOpen) (hc : i ≠ .cqClose) :
    t.handle = s.handle := by
  rcases exec_effect h with ⟨-, he⟩ | ⟨_, -, he⟩
  · exact he.handle ho hc
  · exact he.handle

/-- A field that every move of a channel under the command leaves as it was, the command leaves as it was in every channel. -/
theorem exec_map_channels_eq {α : Type} {i : Instr} {s t : State} {f : Channel → α} (h : exec i s = .next t)
    (hf : ∀ c c', ChannelMove s.cfg.fifoCapacity i c c' → f c' = f c) : t.channels.map f = s.channels.map f := by
  rcases exec_effect h with ⟨-, he⟩ | ⟨pin, -, he⟩
  · rw [he.channels]
  · obtain ⟨c, hm, hc⟩ := he.move
    rw [hc, State.map_set_channel (hf _ _ hm)]

/-- Settles O55: which moves of SYN and of a channel write which flag. -/
theorem flagsHaveTheirWritersOnly : Obligations.FlagsHaveTheirWritersOnly := fun _ _ _ h =>
  ⟨(exec_synMove h).active_eq, (exec_synMove h).mute_eq, exec_handle_eq h,
    fun h1 h2 h3 => exec_map_channels_eq h fun _ _ hm => hm.state_eq h1 h2 h3,
    fun h1 h2 => exec_map_channels_eq h fun _ _ hm => hm.blocking_eq h1 h2, (exec_synMove h).staging_eq⟩

/-! ### Reset -/

/-- Settles O1: every channel is one of `n` copies of a channel after reset, and the rest is written out in the reset state. -/
theorem resetLeavesStatedValues : Obligations.ResetLeavesStatedValues := by
  intro n cfg spk mic
  have hlen : (State.resetWith n cfg spk mic).channels.length = n := List.length_replicate
  have hch : ∀ c ∈ (State.resetWith n cfg spk mic).channels, c = Channel.reset := fun c hc => List.eq_of_mem_replicate hc
  refine ⟨rfl, rfl, rfl, rfl, rfl, rfl, rfl, rfl, rfl, rfl, rfl, rfl, rfl, rfl, rfl, rfl, rfl, rfl, hlen, fun c hc => ?_, rfl,
    rfl, rfl⟩
  rw [hch c hc]
  exact ⟨rfl, rfl, rfl, rfl⟩

end Sys2Proof.Proofs
end

section
/-! PROOFS. The memory of the family 20_memory.md: the byte forms of commands and responses (R71), the samples and their bytes
(R73), the bytes and the carry of a fill (R76), and the codes and payloads of all responses (R76, 30_encoding.md R93). -/

namespace Sys2Proof.Proofs

open Sys2Proof Sys2Proof.Machine

/-! ### Words carried as bytes -/

/-- A word of `n` bytes reads back from its little-endian form. -/
theorem ofLeBytes_leBytes_toNat {n w : Nat} (hw : w = 8 * n) (v : BitVec w) : ofLeBytes (leBytes n v.toNat) = v.toNat := by
  have hpow : 256 ^ n = 2 ^ w := by rw [hw, pow_mul]; norm_num
  exact ofLeBytes_leBytes_of_lt (by rw [hpow]; exact v.isLt)

/-- The operand words of an opcode that takes `n` operand bytes (30_encoding.md R91): none, a LEN or a VAL. -/
inductive OperandsFit : Nat → List Operand → Prop
  | none : OperandsFit 0 []
  | len (v : BitVec 32) : OperandsFit 4 [.u32 v]
  | val (v : BitVec 64) : OperandsFit 8 [.u64 v]

theorem OperandsFit.length_bytes {n : Nat} {ops : List Operand} (h : OperandsFit n ops) :
    (ops.flatMap Operand.bytes).length = n := by
  cases h with
  | none => rfl
  | len v => simp [Operand.bytes]
  | val v => simp [Operand.bytes]

/-- The operand words read back, whatever bytes follow them. -/
theorem OperandsFit.operandsOfBytes_bytes {n : Nat} {ops : List Operand} (h : OperandsFit n ops) (rest : List Byte) :
    operandsOfBytes n (ops.flatMap Operand.bytes ++ rest) = ops := by
  cases h with
  | none => rfl
  | len v => simp [operandsOfBytes, Operand.bytes, List.take_left', ofLeBytes_leBytes_toNat]
  | val v => simp [operandsOfBytes, Operand.bytes, List.take_left', ofLeBytes_leBytes_toNat]

/-- A transaction whose operand words are those of its opcode reads back from its bytes. -/
theorem ofBytes_bytes {t : Transaction} {op : Opcode} (hop : opcField t.cw = op.code)
    (hfit : OperandsFit op.operandBytes t.operands) : Transaction.ofBytes t.iface t.bytes = some t := by
  have hcw : BitVec.ofNat 32 (ofLeBytes (t.bytes.take 4)) = t.cw := by
    rw [Transaction.bytes, List.take_left' (length_leBytes _ _), ofLeBytes_leBytes_toNat rfl, BitVec.ofNat_toNat,
      BitVec.setWidth_eq]
  have hrest : t.bytes.drop 4 = t.operands.flatMap Operand.bytes ++ t.payload := List.drop_left' (length_leBytes _ _)
  have hlen : ¬ t.bytes.length < 4 + op.operandBytes := by
    rw [Transaction.bytes, List.length_append, List.length_append, length_leBytes, hfit.length_bytes]
    omega
  simp only [Transaction.ofBytes, hcw, hop, Opcode.ofCode?_code, Option.map_some, Option.getD_some, if_neg hlen, hrest,
    hfit.operandsOfBytes_bytes, List.drop_left' hfit.length_bytes]

/-- The encoding of a command has an opcode of the table and the operand words of that opcode. -/
theorem encode_operandsFit (i : Instr) :
    ∃ op : Opcode, opcField (encode i).cw = op.code ∧ OperandsFit op.operandBytes (encode i).operands := by
  cases i with
  | synInit => exact ⟨.synInit, opcField_commandWord _ _ _, .none⟩
  | synGen n => exact ⟨.synGen, opcField_commandWord _ _ _, .len n⟩
  | synWreg r v => exact ⟨.synWreg, opcField_commandWord _ _ _, .val v⟩
  | synRreg r => exact ⟨.synRreg, opcField_commandWord _ _ _, .none⟩
  | chCreate p b => exact ⟨.chCreate, opcField_commandWord _ _ _, .none⟩
  | chWrite p n bytes => exact ⟨.chWrite, opcField_commandWord _ _ _, .len n⟩
  | chClosep p => exact ⟨.chClosep, opcField_commandWord _ _ _, .none⟩
  | chRead p n => exact ⟨.chRead, opcField_commandWord _ _ _, .len n⟩
  | chClosec p => exact ⟨.chClosec, opcField_commandWord _ _ _, .none⟩
  | cqOpen => exact ⟨.cqOpen, opcField_commandWord _ _ _, .none⟩
  | cqClose => exact ⟨.cqClose, opcField_commandWord _ _ _, .none⟩
  | cqInfo n => exact ⟨.cqInfo, opcField_commandWord _ _ _, .len n⟩
  | cqStatus n => exact ⟨.cqStatus, opcField_commandWord _ _ _, .len n⟩
  | cqMute m => exact ⟨.cqMute, opcField_commandWord _ _ _, .none⟩

/-- The parts of a response's byte form: RSP, RESULT, the payload. -/
theorem response_bytes_parts (r : Response) :
    r.bytes.take 4 = leBytes 4 r.rsp.toNat ∧ (r.bytes.drop 4).take 8 = leBytes 8 r.result.toNat
      ∧ r.bytes.drop 12 = r.payload := by
  have hrest : r.bytes.drop 4 = leBytes 8 r.result.toNat ++ r.payload := List.drop_left' (length_leBytes _ _)
  refine ⟨List.take_left' (length_leBytes _ _), ?_, ?_⟩
  · rw [hrest, List.take_left' (length_leBytes _ _)]
  · rw [show 12 = 4 + 8 from rfl, ← List.drop_drop, hrest, List.drop_left' (length_leBytes _ _)]

/-- Settles O11: every part of a byte form has its own length, so taking and dropping gives the parts back. -/
theorem bytesOfEncodeReadBack : Obligations.BytesOfEncodeReadBack := by
  refine ⟨fun i _ => ?_, fun r => ?_⟩
  · obtain ⟨op, hop, hfit⟩ := encode_operandsFit i
    exact ofBytes_bytes hop hfit
  · obtain ⟨hrsp, hresult, hpayload⟩ := response_bytes_parts r
    refine ⟨?_, ?_, hpayload, ?_⟩
    · rw [hrsp, ofLeBytes_leBytes_toNat rfl]
    · rw [hresult, ofLeBytes_leBytes_toNat rfl]
    · rw [Response.bytes, List.length_append, List.length_append, length_leBytes, length_leBytes, ← Nat.add_assoc]

/-! ### Samples and their bytes -/

theorem clip_of_gt {b : Nat} {z : Int} (h : 2 ^ (b - 1) - 1 < z) : clip b (.int z) = 2 ^ (b - 1) - 1 := by
  have hpos : (0 : Int) < 2 ^ (b - 1) := by positivity
  rw [clip, min_eq_left h.le, max_eq_right (by omega)]

theorem clip_of_lt {b : Nat} {z : Int} (h : z < -2 ^ (b - 1)) : clip b (.int z) = -2 ^ (b - 1) := by
  have hpos : (0 : Int) < 2 ^ (b - 1) := by positivity
  rw [clip, min_eq_right (by omega), max_eq_left h.le]

theorem clip_of_mem_range {b : Nat} {z : Int} (hlo : -2 ^ (b - 1) ≤ z) (hhi : z ≤ 2 ^ (b - 1) - 1) : clip b (.int z) = z := by
  rw [clip, min_eq_right hhi, max_eq_right hlo]

/-- 8-bit offset binary moves the range to that of a byte. -/
theorem ofLeBytes_encSample_offsetBinary {z : Int} (hlo : -2 ^ (8 - 1) ≤ z) (hhi : z ≤ 2 ^ (8 - 1) - 1) :
    (ofLeBytes (encSample .offsetBinary 8 z) : Int) = z + 128 := by
  have hmod : (z + 128) % 2 ^ 8 = z + 128 := Int.emod_eq_of_lt (by omega) (by omega)
  rw [encSample, if_pos ⟨rfl, rfl⟩, ofLeBytes, ofLeBytes, Nat.mul_zero, Nat.add_zero, BitVec.toNat_ofInt]
  omega

/-- Every other encoding is two's complement, for each depth of whole bytes. -/
theorem ofLeBytes_encSample_twosComplement {enc : Pcm8Encoding} {b : Nat} {z : Int} (h : ¬ (b = 8 ∧ enc = .offsetBinary))
    (hb : 8 ∣ b) : (ofLeBytes (encSample enc b z) : Int) = z % 2 ^ b := by
  have hpow : 256 ^ (b / 8) = 2 ^ b := by
    rw [show 256 = 2 ^ 8 from rfl, ← pow_mul, Nat.mul_div_cancel' hb]
  have hpos : (0 : Int) < 2 ^ b := by positivity
  have hnonneg : 0 ≤ z % 2 ^ b := Int.emod_nonneg z hpos.ne'
  have hlt : (z % 2 ^ b).toNat < 256 ^ (b / 8) := by
    rw [hpow, Int.toNat_lt hnonneg]
    exact_mod_cast Int.emod_lt_of_pos z hpos
  rw [encSample, if_neg h, ofLeBytes_leBytes_of_lt hlt, Int.toNat_of_nonneg hnonneg]

theorem bits_eq_eight_iff {d : BitDepth} : d.bits = 8 ↔ d = .d8 := by
  cases d <;> decide

/-- Settles O30: clip by its three ranges, enc_b by its two encodings. -/
theorem samplesAreClippedAndEncoded : Obligations.SamplesAreClippedAndEncoded := by
  intro d enc
  refine ⟨⟨rfl, rfl⟩, fun _ => clip_of_gt, fun _ => clip_of_lt, fun _ => clip_of_mem_range,
    fun z hlo hhi => ⟨encSample_length enc d.bits z, ?_⟩⟩
  by_cases h : d = .d8 ∧ enc = .offsetBinary
  · rw [if_pos h]
    obtain ⟨rfl, rfl⟩ := h
    exact ofLeBytes_encSample_offsetBinary hlo hhi
  · rw [if_neg h]
    exact ofLeBytes_encSample_twosComplement (by rwa [bits_eq_eight_iff]) (by cases d <;> decide)

/-! ### The bytes and the carry of a fill -/

/-- What the least number of frames that hold `n` bytes has left over. -/
theorem framesFor_mul_sub {f : Nat} (hf : 0 < f) (n : Nat) : framesFor f n * f - n = (f - n % f) % f := by
  have hn : n / f * f + n % f = n := Nat.div_add_mod' n f
  have hlt : n % f < f := Nat.mod_lt n hf
  rcases Nat.eq_zero_or_pos (n % f) with h0 | hpos
  · have hwhole : framesFor f n = n / f := by
      rw [← framesFor_mul (q := n / f) hf]; congr 1; omega
    rw [hwhole, h0, Nat.sub_zero, Nat.mod_self]
    omega
  · have hmore : framesFor f n = n / f + 1 := by
      rw [← framesFor_mul_add (q := n / f) hpos hlt, hn]
    rw [hmore, Nat.add_mul, Nat.mod_eq_of_lt (by omega)]
    omega

theorem framesFor_zero {f : Nat} (hf : 0 < f) : framesFor f 0 = 0 := Nat.div_eq_of_lt (by omega)

/-- The carry that a fill leaves has the length R121 and R123 give. -/
theorem length_drop_carry {carry frames : List Byte} {f len : Nat} (hf : 0 < f)
    (hframes : frames.length = framesFor f (len - carry.length) * f) :
    ((carry ++ frames).drop len).length = carryAfter f carry.length len := by
  rw [List.length_drop, List.length_append, hframes, carryAfter]
  split
  · next hle =>
    rw [Nat.sub_eq_zero_of_le hle, framesFor_zero hf]
    omega
  · next hgt =>
    rw [← framesFor_mul_sub hf]
    omega

/-- A fill has all the bytes it was asked for: the frames computed hold what the carry does not. -/
theorem length_take_carry {carry frames : List Byte} {f len : Nat} (hf : 0 < f)
    (hframes : frames.length = framesFor f (len - carry.length) * f) : ((carry ++ frames).take len).length = len := by
  obtain ⟨hholds, -⟩ := framesFor_spec (n := len - carry.length) hf
  rw [List.length_take, List.length_append, hframes]
  omega

theorem exec_synGen_of_ready {s : State} {len : BitVec 32} (h : s.syn.ready = true) :
    exec (.synGen len) s =
      .next (State.answer { s with syn := (s.syn.generate s.cfg len.toNat).2 } .issuer .ok 0
        (s.syn.generate s.cfg len.toNat).1) := by
  simp [exec, execSynGen, h, respond]

/-- Settles O19: a fill cuts the carry and as many frames as are needed after LEN bytes. -/
theorem synGenEmitsExactlyLenBytes : Obligations.SynGenEmitsExactlyLenBytes := by
  intro s len hi hr
  obtain ⟨-, -, -, hsyn, -, -⟩ := hi
  obtain ⟨-, hframe, -, -, -, -, hcarry⟩ := hsyn.1 hr
  have hf : 0 < s.syn.frame.toNat := Nat.zero_lt_of_lt hcarry
  let m := framesFor s.syn.frame.toNat (len.toNat - s.syn.carry.length)
  have hframes : (s.syn.stream s.cfg m).length = m * s.syn.frame.toNat := by rw [Syn.stream_length, hframe]
  refine ⟨_, _, s.syn.thetaAt m, length_take_carry hf hframes, length_drop_carry hf hframes,
    length_drop_carry_lt hf hframes hcarry, ?_⟩
  rw [exec_synGen_of_ready hr, Syn.generate_eq len.toNat hf hframe]
  rfl

/-! ### The codes and payloads of responses -/

theorem Status.rsp_toNat_le (st : Status) : st.rsp.toNat ≤ 9 := by
  cases st <;> decide

theorem Status.rsp_eq_eight_iff {st : Status} : st.rsp = 8 ↔ st = .noResources := by
  cases st <;> decide

theorem Status.rsp_eq_zero_iff {st : Status} : st.rsp = 0 ↔ st = .ok := by
  cases st <;> decide

/-- A response as 60_exceptions.md R221 and R237 allow it: a code of the table but NO_RESOURCES, and with an error no payload. -/
def TableResponse (r : Response) : Prop := r.rsp.toNat ≤ 9 ∧ r.rsp ≠ 8 ∧ (r.rsp ≠ 0 → r.payload = [])

theorem tableResponse_of_status {who : Recipient} {st : Status} {result : BitVec 64} {p : List Byte} (hst : st ≠ .noResources)
    (hp : st = .ok ∨ p = []) : TableResponse { recipient := who, rsp := st.rsp, result := result, payload := p } :=
  ⟨Status.rsp_toNat_le st, fun h => hst (Status.rsp_eq_eight_iff.mp h),
    fun h => hp.resolve_left fun hok => h (Status.rsp_eq_zero_iff.mpr hok)⟩

/-- The log of `t` is that of `s` and table responses after it. -/
def GivesTableResponses (s t : State) : Prop := ∃ rs, t.out = s.out ++ rs ∧ ∀ r ∈ rs, TableResponse r

theorem GivesTableResponses.of_out_eq {s t : State} (h : t.out = s.out) : GivesTableResponses s t :=
  ⟨[], by rw [h, List.append_nil], fun _ hr => absurd hr List.not_mem_nil⟩

theorem GivesTableResponses.answer {s u : State} {who : Recipient} {st : Status} {result : BitVec 64} {p : List Byte}
    (h : GivesTableResponses s u) (hst : st ≠ .noResources) (hp : st = .ok ∨ p = []) :
    GivesTableResponses s (u.answer who st result p) := by
  obtain ⟨rs, hout, hrs⟩ := h
  refine ⟨rs ++ [_], by rw [State.answer_out, hout, List.append_assoc], fun r hr => ?_⟩
  rcases List.mem_append.mp hr with hr | hr
  · exact hrs r hr
  · rw [List.mem_singleton.mp hr]
    exact tableResponse_of_status hst hp

theorem GivesTableResponses.ok {s u : State} {who : Recipient} {result : BitVec 64} {p : List Byte} (h : u.out = s.out) :
    GivesTableResponses s (u.answer who .ok result p) :=
  (of_out_eq h).answer (by decide) (.inl rfl)

theorem GivesTableResponses.error {s u : State} {who : Recipient} {st : Status} {result : BitVec 64} (h : u.out = s.out)
    (hst : st ≠ .noResources) : GivesTableResponses s (u.answer who st result []) :=
  (of_out_eq h).answer hst (.inr rfl)

/-- A close answers OK after the CHANNEL_CLOSED of the write that waited. -/
theorem GivesTableResponses.close {s u : State} {pin : BitVec 8} {o : Option Pending}
    (h : u.out = s.out ++ (o.map fun w =>
      { recipient := .waiter pin, rsp := Status.channelClosed.rsp, result := BitVec.ofNat 64 w.done, payload := [] }).toList) :
    GivesTableResponses s (u.answer .issuer .ok 0 []) := by
  refine answer ⟨_, h, fun r hr => ?_⟩ (by decide) (.inl rfl)
  cases o with
  | none => cases hr
  | some w =>
    rw [List.mem_singleton.mp hr]
    exact tableResponse_of_status (by decide) (.inr rfl)

theorem exec_givesTableResponses {i : Instr} {s t : State} (h : exec i s = .next t) : GivesTableResponses s t := by
  cases i with
  | synInit =>
    rcases execSynInit_eq_next h with ⟨-, rfl⟩ | ⟨-, -, rfl⟩ | ⟨-, -, -, rfl⟩
    · exact .error rfl (by decide)
    · exact .error rfl (by decide)
    · exact .ok rfl
  | synGen n =>
    rcases execSynGen_eq_next h with ⟨-, rfl⟩ | ⟨-, rfl⟩
    · exact .error rfl (by decide)
    · exact .ok rfl
  | synWreg r v =>
    rcases execSynWreg_eq_next h with rfl | ⟨_, _, -, -, rfl⟩
    · exact .error rfl (by decide)
    · exact .ok rfl
  | synRreg r =>
    rcases execSynRreg_eq_next h with rfl | ⟨_, -, rfl⟩
    · exact .error rfl (by decide)
    · exact .ok rfl
  | chCreate q b =>
    rcases execChCreate_eq_next h with ⟨-, rfl⟩ | ⟨-, -, rfl⟩ | ⟨-, -, rfl⟩
    · exact .error rfl (by decide)
    · exact .error rfl (by decide)
    · exact .ok rfl
  | chWrite q n p =>
    obtain ⟨-, ⟨-, rfl⟩ | ⟨-, ⟨-, rfl⟩ | ⟨-, -, rfl⟩ | ⟨-, -, h⟩⟩⟩ := execChWrite_eq_next h
    · exact .error rfl (by decide)
    · exact .of_out_eq rfl
    · exact .error rfl (by decide)
    rcases h with ⟨-, rfl⟩ | ⟨-, -, rfl⟩ | ⟨-, -, -, rfl⟩ | ⟨-, -, -, rfl⟩
    · exact .ok rfl
    · exact .ok rfl
    · exact .error rfl (by decide)
    · exact .of_out_eq rfl
  | chClosep q =>
    rcases execChClosep_eq_next h with ⟨-, rfl⟩ | ⟨-, -, rfl⟩ | ⟨-, -, rfl⟩
    · exact .error rfl (by decide)
    · exact .error rfl (by decide)
    · exact .close rfl
  | chRead q n =>
    rcases execChRead_eq_next h with ⟨-, rfl⟩ | ⟨-, -, rfl⟩ | ⟨-, -, rfl⟩
    · exact .error rfl (by decide)
    · exact .error rfl (by decide)
    · exact .ok rfl
  | chClosec q =>
    rcases execChClosec_eq_next h with ⟨-, rfl⟩ | ⟨-, -, rfl⟩ | ⟨-, -, rfl⟩
    · exact .error rfl (by decide)
    · exact .error rfl (by decide)
    · exact .close rfl
  | cqOpen =>
    rw [execCqOpen_eq_next.mp h]
    exact .ok rfl
  | cqClose =>
    rcases execCqClose_eq_next h with ⟨-, rfl⟩ | ⟨-, rfl⟩
    · exact .error rfl (by decide)
    · exact .ok rfl
  | cqInfo n =>
    rcases query_eq_next h with ⟨-, rfl⟩ | ⟨-, -, rfl⟩
    · exact .error rfl (by decide)
    · exact .ok rfl
  | cqStatus n =>
    rcases query_eq_next h with ⟨-, rfl⟩ | ⟨-, -, rfl⟩
    · exact .error rfl (by decide)
    · exact .ok rfl
  | cqMute m =>
    rw [execCqMute_eq_next.mp h]
    exact .ok rfl

theorem runProgress_givesTableResponses {pin : BitVec 8} {s t : State} (h : runProgress pin s = .next t) :
    GivesTableResponses s t := by
  rcases runProgress_eq_next h with ⟨-, rfl⟩ | ⟨w, -, -, ⟨-, rfl⟩ | ⟨-, rfl⟩⟩
  · exact .of_out_eq rfl
  · exact .ok rfl
  · exact .of_out_eq rfl

theorem runEvent_givesTableResponses {e : Event} {s t : State} (h : runEvent e s = .next t) : GivesTableResponses s t := by
  rcases runEvent_cases h with ⟨_, i, -, -, h⟩ | ⟨_, _, -, -, rfl⟩ | ⟨pin, -, h⟩ | ⟨k, w, -, -, -, h⟩ |
    ⟨k, -, rfl, -⟩ | ⟨spk, mic, -, rfl⟩ | ⟨spk, mic, -, h⟩
  · exact exec_givesTableResponses h
  · exact .error rfl (by decide)
  · exact runProgress_givesTableResponses h
  · exact exec_givesTableResponses (s := { s with held := s.held.eraseIdx k }) h
  · exact .of_out_eq rfl
  · exact .of_out_eq rfl
  · obtain ⟨-, -, hout⟩ := runReset_keeps h
    exact .of_out_eq hout

/-- Settles O54: a step is its event, and every event gives table responses only. -/
theorem responsesUseTheStatusTable : Obligations.ResponsesUseTheStatusTable := by
  intro s t h
  have hgives : GivesTableResponses s t := by
    rcases step_eq_next h with rfl | ⟨e, rest, -, h⟩
    · exact .of_out_eq rfl
    · exact runEvent_givesTableResponses (s := { s with inbox := rest }) h
  obtain ⟨rs, hout, hrs⟩ := hgives
  rw [newResponses, hout, List.drop_left]
  exact hrs

end Sys2Proof.Proofs
end

section
/-! PROOFS. The encoding of the family 30_encoding.md: the decoder and the encoder are inverse to each other (R90, R91, R95), what
the decode checks answer (R92, R97), where a step stops (R92, R220), and the pseudo-instructions (R100). -/

namespace Sys2Proof.Proofs

open Sys2Proof Sys2Proof.Machine

/-! ### Decoding an encoding -/

/-- The row of R95 that a command belongs to. -/
def opcodeOf : Instr → Opcode
  | .synInit => .synInit
  | .synGen _ => .synGen
  | .synWreg _ _ => .synWreg
  | .synRreg _ => .synRreg
  | .chCreate _ _ => .chCreate
  | .chWrite _ _ _ => .chWrite
  | .chClosep _ => .chClosep
  | .chRead _ _ => .chRead
  | .chClosec _ => .chClosec
  | .cqOpen => .cqOpen
  | .cqClose => .cqClose
  | .cqInfo _ => .cqInfo
  | .cqStatus _ => .cqStatus
  | .cqMute _ => .cqMute

/-- An encoding is on the interface of its row, and its word has zeros in SEL and F where the row's columns are 0. -/
theorem encode_row (i : Instr) :
    (encode i).iface = (opcodeOf i).iface
      ∧ ∃ sel flag, (encode i).cw = commandWord (opcodeOf i) sel flag
          ∧ ((opcodeOf i).usesSel = false → sel = 0) ∧ ((opcodeOf i).usesFlag = false → flag = false) := by
  cases i with
  | synInit => exact ⟨rfl, 0, false, rfl, fun _ => rfl, fun _ => rfl⟩
  | synGen n => exact ⟨rfl, 0, false, rfl, fun _ => rfl, fun _ => rfl⟩
  | synWreg r v => exact ⟨rfl, r, false, rfl, nofun, fun _ => rfl⟩
  | synRreg r => exact ⟨rfl, r, false, rfl, nofun, fun _ => rfl⟩
  | chCreate p b => exact ⟨rfl, p, b, rfl, nofun, nofun⟩
  | chWrite p n bytes => exact ⟨rfl, p, false, rfl, nofun, fun _ => rfl⟩
  | chClosep p => exact ⟨rfl, p, false, rfl, nofun, fun _ => rfl⟩
  | chRead p n => exact ⟨rfl, p, false, rfl, nofun, fun _ => rfl⟩
  | chClosec p => exact ⟨rfl, p, false, rfl, nofun, fun _ => rfl⟩
  | cqOpen => exact ⟨rfl, 0, false, rfl, fun _ => rfl, fun _ => rfl⟩
  | cqClose => exact ⟨rfl, 0, false, rfl, fun _ => rfl, fun _ => rfl⟩
  | cqInfo n => exact ⟨rfl, 0, false, rfl, fun _ => rfl, fun _ => rfl⟩
  | cqStatus n => exact ⟨rfl, 0, false, rfl, fun _ => rfl, fun _ => rfl⟩
  | cqMute m => exact ⟨rfl, 0, m, rfl, fun _ => rfl, nofun⟩

/-- The decode checks of R97 let an encoding pass. -/
theorem checkFields_encode (i : Instr) : checkFields (opcodeOf i) (encode i) i = .command i := by
  obtain ⟨hiface, sel, flag, hcw, hsel, hflag⟩ := encode_row i
  rw [checkFields_eq_command, hcw, rsvField_commandWord, selField_commandWord, flagField_commandWord]
  exact ⟨rfl, hiface, rfl, hsel, hflag⟩

/-- The encoding of a well-formed command has the shape of its row and reads as the command (R91, R94). -/
theorem read_encode {i : Instr} (hw : i.WellFormed) : (opcodeOf i).read (encode i) = some i := by
  have hnone : ∀ {j}, (encode i).operands = [] → (encode i).payload = [] → i = j → shapeNone j (encode i) = some i :=
    fun ho hp hij => shapeNone_eq_some.mpr ⟨ho, hp, hij⟩
  have hlen : ∀ {k} n, (encode i).operands = [.u32 n] → (encode i).payload = [] → i = k n →
      shapeLen k (encode i) = some i := fun n ho hp hij => shapeLen_eq_some.mpr ⟨n, ho, hp, hij⟩
  have hsel : ∀ op sel flag, sel = selField (commandWord op sel flag) := fun op sel flag =>
    (selField_commandWord op sel flag).symm
  have hflag : ∀ op sel flag, flag = flagField (commandWord op sel flag) := fun op sel flag =>
    (flagField_commandWord op sel flag).symm
  cases i with
  | synInit => exact hnone rfl rfl rfl
  | synGen n => exact hlen n rfl rfl rfl
  | synWreg r v =>
    exact shapeVal_eq_some (t := encode (.synWreg r v)).mpr ⟨v, rfl, rfl,
      congrArg (Instr.synWreg · v) (hsel _ _ _)⟩
  | synRreg r => exact hnone rfl rfl (congrArg Instr.synRreg (hsel _ _ _))
  | chCreate p b => exact hnone rfl rfl (congrArg₂ Instr.chCreate (hsel _ _ _) (hflag _ _ _))
  | chWrite p n bytes =>
    exact shapeLenPayload_eq_some (t := encode (.chWrite p n bytes)).mpr ⟨n, rfl, eq_of_beq hw,
      congrArg (Instr.chWrite · n bytes) (hsel _ _ _)⟩
  | chClosep p => exact hnone rfl rfl (congrArg Instr.chClosep (hsel _ _ _))
  | chRead p n => exact hlen n rfl rfl (congrArg (Instr.chRead · n) (hsel _ _ _))
  | chClosec p => exact hnone rfl rfl (congrArg Instr.chClosec (hsel _ _ _))
  | cqOpen => exact hnone rfl rfl rfl
  | cqClose => exact hnone rfl rfl rfl
  | cqInfo n => exact hlen n rfl rfl rfl
  | cqStatus n => exact hlen n rfl rfl rfl
  | cqMute m => exact hnone rfl rfl (congrArg Instr.cqMute (hflag _ _ _))

/-- Settles O9: an encoding has the opcode of its row, the row's shape and nothing that a check refuses. -/
theorem decodeOfEncode : Obligations.DecodeOfEncode := by
  intro i hw
  obtain ⟨-, sel, flag, hcw, -⟩ := encode_row i
  have hop : Opcode.ofCode? (opcField (encode i).cw) = some (opcodeOf i) := by
    rw [hcw, opcField_commandWord, Opcode.ofCode?_code]
  exact decode_eq_command.mpr ⟨opcodeOf i, i, hop, read_encode hw, checkFields_encode i⟩

/-! ### Encoding what was decoded -/

/-- SEL as a row of R95 reads it: 0 where the column is 0. -/
def rowSel (op : Opcode) (cw : BitVec 32) : BitVec 8 := if op.usesSel then selField cw else 0

/-- F as a row of R95 reads it: 0 where the column is 0. -/
def rowFlag (op : Opcode) (cw : BitVec 32) : Bool := if op.usesFlag then flagField cw else false

/-- A transaction with all that a row's reading ignores set to what the row asks: its interface, OPC, RSV, and SEL and F where their
columns are 0. -/
def rowTransaction (op : Opcode) (t : Transaction) : Transaction :=
  ⟨op.iface, commandWord op (rowSel op t.cw) (rowFlag op t.cw), t.operands, t.payload⟩

/-- What a row reads from a transaction of its shape is a well-formed command, whose encoding is the transaction but for what the
reading ignores. -/
theorem encode_of_read {op : Opcode} {t : Transaction} {i : Instr} (h : op.read t = some i) :
    i.WellFormed ∧ encode i = rowTransaction op t := by
  have hnone : ∀ {j}, j.WellFormed → encode j = ⟨op.iface, commandWord op (rowSel op t.cw) (rowFlag op t.cw), [], []⟩ →
      shapeNone j t = some i → i.WellFormed ∧ encode i = rowTransaction op t := by
    intro j hw he hs
    obtain ⟨ho, hp, rfl⟩ := shapeNone_eq_some.mp hs
    exact ⟨hw, by rw [he, rowTransaction, ho, hp]⟩
  have hlen : ∀ {k}, (∀ n, (k n).WellFormed) →
      (∀ n, encode (k n) = ⟨op.iface, commandWord op (rowSel op t.cw) (rowFlag op t.cw), [.u32 n], []⟩) →
      shapeLen k t = some i → i.WellFormed ∧ encode i = rowTransaction op t := by
    intro k hw he hs
    obtain ⟨n, ho, hp, rfl⟩ := shapeLen_eq_some.mp hs
    exact ⟨hw n, by rw [he, rowTransaction, ho, hp]⟩
  cases op with
  | synInit => exact hnone rfl rfl h
  | synGen => exact hlen (fun _ => rfl) (fun _ => rfl) h
  | synWreg =>
    obtain ⟨v, ho, hp, rfl⟩ := shapeVal_eq_some.mp h
    exact ⟨rfl, by rw [rowTransaction, ho, hp]; rfl⟩
  | synRreg => exact hnone rfl rfl h
  | chCreate => exact hnone rfl rfl h
  | chWrite =>
    obtain ⟨n, ho, hp, rfl⟩ := shapeLenPayload_eq_some.mp h
    exact ⟨beq_iff_eq.mpr hp, by rw [rowTransaction, ho]; rfl⟩
  | chClosep => exact hnone rfl rfl h
  | chRead => exact hlen (fun _ => rfl) (fun _ => rfl) h
  | chClosec => exact hnone rfl rfl h
  | cqOpen => exact hnone rfl rfl h
  | cqClose => exact hnone rfl rfl h
  | cqInfo => exact hlen (fun _ => rfl) (fun _ => rfl) h
  | cqStatus => exact hlen (fun _ => rfl) (fun _ => rfl) h
  | cqMute => exact hnone rfl rfl h

/-- Where the checks of R97 pass, nothing that the reading ignores differs from what the row asks. -/
theorem rowTransaction_of_checkFields {op : Opcode} {t : Transaction} {i j : Instr} (hop : op.code = opcField t.cw)
    (h : checkFields op t i = .command j) : rowTransaction op t = t := by
  obtain ⟨-, hiface, hrsv, hsel, hflag⟩ := checkFields_eq_command.mp h
  have hs : rowSel op t.cw = selField t.cw := by
    unfold rowSel
    split
    · rfl
    · exact (hsel (Bool.eq_false_iff.mpr ‹_›)).symm
  have hf : rowFlag op t.cw = flagField t.cw := by
    unfold rowFlag
    split
    · rfl
    · exact (hflag (Bool.eq_false_iff.mpr ‹_›)).symm
  rw [rowTransaction, hs, hf, commandWord_of_fields hop.symm hrsv, ← hiface]

/-- Settles O10: a row reads a command from the shape, and the checks leave no other bit of the word free. -/
theorem encodeOfDecode : Obligations.EncodeOfDecode := by
  intro t i hd
  obtain ⟨op, j, hop, hread, hcheck⟩ := decode_eq_command.mp hd
  obtain ⟨rfl, -⟩ := checkFields_eq_command.mp hcheck
  obtain ⟨hw, he⟩ := encode_of_read hread
  exact ⟨hw, he.trans (rowTransaction_of_checkFields (Opcode.code_of_ofCode? hop) hcheck)⟩

/-- A transaction that is a well-formed command's encoding decodes to that command. -/
theorem decode_of_encode_eq {t : Transaction} {i : Instr} (hw : i.WellFormed) (h : encode i = t) : decode t = .command i :=
  h ▸ decodeOfEncode i hw

/-- Settles O12: every written-out word is that of the command's encoding. -/
theorem writtenOutWordsDecode : Obligations.WrittenOutWordsDecode :=
  ⟨decode_of_encode_eq rfl rfl, decode_of_encode_eq rfl rfl, decode_of_encode_eq rfl rfl, decode_of_encode_eq rfl rfl,
    decode_of_encode_eq rfl rfl, decode_of_encode_eq rfl rfl, decode_of_encode_eq rfl rfl, decode_of_encode_eq rfl rfl,
    decode_of_encode_eq rfl rfl, decode_of_encode_eq rfl rfl, decode_of_encode_eq rfl rfl, decode_of_encode_eq rfl rfl,
    decode_of_encode_eq rfl rfl, decode_of_encode_eq rfl rfl⟩

/-! ### The restated tables -/

theorem mem_tableCodes_iff {c : BitVec 8} : c ∈ tableCodes ↔ ∃ op : Opcode, op.code = c := by
  rw [show tableCodes = Opcode.all.map Opcode.code from rfl, List.mem_map]
  exact ⟨fun ⟨op, _, h⟩ => ⟨op, h⟩, fun ⟨op, h⟩ => ⟨op, op.mem_all, h⟩⟩

theorem tableIface_code (op : Opcode) : tableIface op.code = some op.iface := by
  cases op <;> decide

theorem mem_selZeroCodes_iff (op : Opcode) : op.code ∈ selZeroCodes ↔ op.usesSel = false := by
  cases op <;> decide

theorem mem_flagCodes_iff (op : Opcode) : op.code ∈ flagCodes ↔ op.usesFlag = true := by
  cases op <;> decide

theorem wellShaped_iff_shapeLen {c : BitVec 8} {k : BitVec 32 → Instr} {t : Transaction}
    (h : c ∈ ([0x11, 0x28, 0x32, 0x33] : List (BitVec 8))) :
    wellShaped c t.operands t.payload = true ↔ ∃ i, shapeLen k t = some i := by
  simp only [wellShaped, if_pos h, shapeLen_eq_some]
  rcases t.operands with _ | ⟨_ | _, _ | _⟩ <;> simp

theorem wellShaped_iff_shapeVal {k : BitVec 64 → Instr} {t : Transaction} :
    wellShaped 0x12 t.operands t.payload = true ↔ ∃ i, shapeVal k t = some i := by
  unfold wellShaped
  rw [if_neg (by decide), if_pos rfl]
  simp only [shapeVal_eq_some]
  rcases t.operands with _ | ⟨_ | _, _ | _⟩ <;> simp

theorem wellShaped_iff_shapeLenPayload {k : BitVec 32 → List Byte → Instr} {t : Transaction} :
    wellShaped 0x21 t.operands t.payload = true ↔ ∃ i, shapeLenPayload k t = some i := by
  unfold wellShaped
  rw [if_neg (by decide), if_neg (by decide), if_pos rfl]
  simp only [shapeLenPayload_eq_some]
  rcases t.operands with _ | ⟨_ | _, _ | _⟩ <;> simp

/-- The operand table of R91 restated: a transaction has an opcode's shape exactly where the opcode reads a command from it. -/
theorem wellShaped_code_iff (op : Opcode) (t : Transaction) :
    wellShaped op.code t.operands t.payload = true ↔ ∃ i, op.read t = some i := by
  have hnone : ∀ j, (t.operands.isEmpty && t.payload.isEmpty) = true ↔ ∃ i, shapeNone j t = some i := by
    simp [shapeNone_eq_some]
  cases op with
  | synInit => exact hnone _
  | synGen => exact wellShaped_iff_shapeLen (by decide)
  | synWreg => exact wellShaped_iff_shapeVal
  | synRreg => exact hnone _
  | chCreate => exact hnone _
  | chWrite => exact wellShaped_iff_shapeLenPayload
  | chClosep => exact hnone _
  | chRead => exact wellShaped_iff_shapeLen (by decide)
  | chClosec => exact hnone _
  | cqOpen => exact hnone _
  | cqClose => exact hnone _
  | cqInfo => exact wellShaped_iff_shapeLen (by decide)
  | cqStatus => exact wellShaped_iff_shapeLen (by decide)
  | cqMute => exact hnone _

/-! ### What becomes of a transaction -/

/-- The checks R97.2 to R97.5 on the bits of a command word, by the restated tables: some field is not what the row asks. -/
def WrongField (t : Transaction) : Prop :=
  tableIface (opcField t.cw) ≠ some t.iface ∨ rsvField t.cw ≠ 0
    ∨ (opcField t.cw ∈ selZeroCodes ∧ selField t.cw ≠ 0) ∨ (opcField t.cw ∉ flagCodes ∧ flagField t.cw = true)

theorem checkFields_eq_command_iff_not_wrongField {op : Opcode} {t : Transaction} {i : Instr} (hop : op.code = opcField t.cw) :
    checkFields op t i = .command i ↔ ¬ WrongField t := by
  rw [checkFields_eq_command, WrongField, ← hop, tableIface_code, mem_selZeroCodes_iff, mem_flagCodes_iff]
  simp only [true_and, not_or, not_not, not_and, Option.some.injEq, Bool.not_eq_true, eq_comm (a := op.iface)]

/-- The checks of R97 answer the command or ILLEGAL_COMMAND. -/
theorem checkFields_eq_illegal {op : Opcode} {t : Transaction} {i : Instr} (h : checkFields op t i ≠ .command i) :
    ∃ check, checkFields op t i = .illegal check := by
  unfold checkFields at h ⊢
  split_ifs at h ⊢
  · exact ⟨_, rfl⟩
  · exact ⟨_, rfl⟩
  · exact ⟨_, rfl⟩
  · exact ⟨_, rfl⟩
  · exact absurd rfl h

theorem decode_of_read {op : Opcode} {t : Transaction} {i : Instr} (hop : op.code = opcField t.cw) (h : op.read t = some i) :
    decode t = checkFields op t i := by
  simp only [decode, ← hop, Opcode.ofCode?_code, h]

/-- R97.1: a transaction whose OPC is not in the table. -/
theorem decode_of_not_mem_tableCodes {t : Transaction} (h : opcField t.cw ∉ tableCodes) : decode t = .illegal .opcode := by
  have hnone : Opcode.ofCode? (opcField t.cw) = none :=
    Opcode.ofCode?_eq_none.mpr fun op hop => h (mem_tableCodes_iff.mpr ⟨op, hop⟩)
  simp only [decode, hnone]

/-- R92: a transaction with an opcode of the table and not its shape. -/
theorem decode_of_not_wellShaped {t : Transaction} (hmem : opcField t.cw ∈ tableCodes)
    (h : wellShaped (opcField t.cw) t.operands t.payload = false) : decode t = .notDelivered := by
  obtain ⟨op, hop⟩ := mem_tableCodes_iff.mp hmem
  have hread : op.read t = none := by
    rw [← hop, ← Bool.not_eq_true, wellShaped_code_iff] at h
    exact Option.eq_none_iff_forall_ne_some.mpr fun i hi => h ⟨i, hi⟩
  simp only [decode, ← hop, Opcode.ofCode?_code, hread]

/-- R97.2 to R97.6: a delivered transaction with an opcode of the table is a command exactly where no field is wrong. -/
theorem decode_of_wellShaped {t : Transaction} (hmem : opcField t.cw ∈ tableCodes)
    (h : wellShaped (opcField t.cw) t.operands t.payload = true) :
    (WrongField t → ∃ check, decode t = .illegal check) ∧ (¬ WrongField t → ∃ i, decode t = .command i) := by
  obtain ⟨op, hop⟩ := mem_tableCodes_iff.mp hmem
  rw [← hop, wellShaped_code_iff] at h
  obtain ⟨i, hread⟩ := h
  rw [decode_of_read hop hread]
  refine ⟨fun hw => checkFields_eq_illegal fun hc => ?_, fun hw => ⟨i, ?_⟩⟩
  · exact (checkFields_eq_command_iff_not_wrongField hop).mp hc hw
  · exact (checkFields_eq_command_iff_not_wrongField hop).mpr hw

/-- A failed decode check is answered ILLEGAL_COMMAND, and nothing else of the state changes (R97). -/
theorem step_of_illegal {s : State} {tr : Transaction} {rest : List Event} {check : IllegalCheck}
    (hin : s.inbox = .command tr :: rest) (hd : decode tr = .illegal check) :
    step s = .next { s with inbox := rest, out := s.out ++ [reply 9 0 []] } := by
  rw [step_cons hin, runEvent, runTransaction, hd]
  rfl

/-- Settles O7: the restated tables decide what the decoder answers, and a command is the one whose encoding arrived. -/
theorem decodeChecksAnswerIllegalCommand : Obligations.DecodeChecksAnswerIllegalCommand := by
  intro s tr rest hin
  refine ⟨fun h => ?_, fun hmem hshape hfield => ?_⟩
  · have hd : ∃ check, decode tr = .illegal check := by
      by_cases hmem : opcField tr.cw ∈ tableCodes
      · obtain ⟨hshape, hfield⟩ := h.resolve_left (not_not.mpr hmem)
        exact (decode_of_wellShaped hmem hshape).1 hfield
      · exact ⟨_, decode_of_not_mem_tableCodes hmem⟩
    obtain ⟨check, hd⟩ := hd
    exact step_of_illegal hin hd
  · obtain ⟨i, hd⟩ := (decode_of_wellShaped hmem hshape).2 hfield
    obtain ⟨hw, he⟩ := encodeOfDecode tr i hd
    exact ⟨i, hw, he, stepRunsDecodedCommand s tr rest i hin hd⟩

/-- Settles O8: with the wrong shape nothing is delivered, and an OPC outside the table is the first of the decode checks. -/
theorem malformedTransactionsAreNotDelivered : Obligations.MalformedTransactionsAreNotDelivered := by
  intro s tr rest hin
  refine ⟨fun hmem hshape => ?_, fun hmem => step_of_illegal hin (decode_of_not_mem_tableCodes hmem)⟩
  rw [step_cons hin, runEvent, runTransaction, decode_of_not_wellShaped hmem hshape]

/-! ### Where a step stops -/

/-- A result is a next state: no fault and no refusal. -/
def Proceeds (r : Result) : Prop := ∃ t, r = .next t

theorem Proceeds.next (s : State) : Proceeds (.next s) := ⟨s, rfl⟩

theorem Proceeds.respond (st : Status) (r : BitVec 64) (p : List Byte) (s : State) : Proceeds (respond st r p s) := ⟨_, rfl⟩

theorem Proceeds.raise (st : Status) (s : State) : Proceeds (raise st s) := ⟨_, rfl⟩

theorem Proceeds.ite {c : Prop} [Decidable c] {a b : Result} (ha : Proceeds a) (hb : Proceeds b) :
    Proceeds (if c then a else b) := by
  split
  · exact ha
  · exact hb

theorem Proceeds.withPin {pin : BitVec 8} {s : State} {k : Channel → Result} (h : ∀ c, Proceeds (k c)) :
    Proceeds (withPin pin s k) :=
  ite (raise _ _) (h _)

theorem Proceeds.query (record : List Byte) (len : BitVec 32) (s : State) : Proceeds (query record len s) :=
  ite (raise _ _) (ite (raise _ _) (respond _ _ _ _))

theorem execChWrite_proceeds {pin : BitVec 8} {len : BitVec 32} {payload : List Byte} (h : payload.length = len.toNat)
    (s : State) : Proceeds (execChWrite pin len payload s) := by
  rw [execChWrite, if_neg (not_not.mpr h)]
  refine .withPin fun c => .ite ⟨_, rfl⟩ (.ite (.raise _ _) (.ite (.respond _ _ _ _) (.ite ?_ ?_)))
  · exact .ite (.respond _ _ _ _) (.next _)
  · exact .ite (.raise _ _) (.respond _ _ _ _)

theorem execSynWreg_proceeds (reg : BitVec 8) (val : BitVec 64) (s : State) : Proceeds (execSynWreg reg val s) := by
  unfold execSynWreg
  split
  · exact .raise _ _
  split
  · exact .raise _ _
  · exact .respond _ _ _ _

theorem execSynRreg_proceeds (reg : BitVec 8) (s : State) : Proceeds (execSynRreg reg s) := by
  unfold execSynRreg
  split
  · exact .raise _ _
  · exact .respond _ _ _ _

/-- Every well-formed command answers a next state in every state. -/
theorem exec_proceeds {i : Instr} (hw : i.WellFormed) (s : State) : Proceeds (exec i s) := by
  cases i with
  | synInit =>
    exact .ite (.respond _ _ _ _) (.ite (.respond _ _ _ _) (.ite (.respond _ _ _ _) (.respond _ _ _ _)))
  | synGen n => exact .ite (.raise _ _) (.respond _ _ _ _)
  | synWreg r v => exact execSynWreg_proceeds r v s
  | synRreg r => exact execSynRreg_proceeds r s
  | chCreate p b => exact .withPin fun _ => .ite (.raise _ _) (.respond _ _ _ _)
  | chWrite p n bytes => exact execChWrite_proceeds (eq_of_beq hw) s
  | chClosep p => exact .withPin fun _ => .ite (.raise _ _) (.respond _ _ _ _)
  | chRead p n => exact .withPin fun _ => .ite (.raise _ _) (.respond _ _ _ _)
  | chClosec p => exact .withPin fun _ => .ite (.raise _ _) (.respond _ _ _ _)
  | cqOpen => exact .respond _ _ _ _
  | cqClose => exact .ite (.raise _ _) (.respond _ _ _ _)
  | cqInfo n => exact .query _ _ _
  | cqStatus n => exact .query _ _ _
  | cqMute m => exact .respond _ _ _ _

theorem runProgress_proceeds (pin : BitVec 8) (s : State) : Proceeds (runProgress pin s) := by
  unfold runProgress
  refine .ite (.next _) ?_
  dsimp only
  split
  · exact .next _
  · exact .ite (.next _) (.next _)

/-- A held write of the right shape runs or stays held. -/
theorem runResume_proceeds {s : State} (hi : s.Inv) (k : Nat) : Proceeds (runResume k s) := by
  obtain ⟨-, -, -, -, -, hheld⟩ := hi
  unfold runResume
  split
  · exact .next _
  · rename_i w hk
    obtain ⟨hlen, -⟩ := hheld w (List.mem_of_getElem? hk)
    exact .ite (execChWrite_proceeds hlen _) (.next _)

/-- An event proceeds in a state that meets the invariant, or it is a transaction that is not delivered. -/
theorem runEvent_proceeds_or_notDelivered {s : State} (hi : s.Inv) (e : Event) :
    Proceeds (runEvent e s)
      ∨ ∃ tr, e = .command tr ∧ decode tr = .notDelivered ∧ runEvent e s = .refused .notWellShaped := by
  cases e with
  | command tr =>
    cases hd : decode tr with
    | command i =>
      rw [runEvent_command hd]
      exact .inl (exec_proceeds (encodeOfDecode tr i hd).1 s)
    | illegal check => exact .inl ⟨_, by rw [runEvent, runTransaction, hd]; rfl⟩
    | notDelivered => exact .inr ⟨tr, rfl, hd, by rw [runEvent, runTransaction, hd]⟩
  | progress pin => exact .inl (runProgress_proceeds pin s)
  | resume k => exact .inl (runResume_proceeds hi k)
  | inputChange spk mic => exact .inl (.next _)
  | reset spk mic => exact .inl (.next _)

/-- Settles O5: there is no fault to give, and of the events only a transaction that is not delivered is refused. -/
theorem onlyMalformedTransactionsStop : Obligations.OnlyMalformedTransactionsStop := by
  refine ⟨fun _ f => (nomatch f), fun s r hi h => ?_, fun i s hw => exec_proceeds hw s⟩
  cases hin : s.inbox with
  | nil =>
    rw [step_nil hin] at h
    cases h
  | cons e rest =>
    rw [step_cons hin] at h
    rcases runEvent_proceeds_or_notDelivered (s := { s with inbox := rest }) hi e with ⟨t, ht⟩ | ⟨tr, rfl, hd, hr⟩
    · rw [ht] at h
      cases h
    · rw [hr] at h
      exact ⟨(Host.Outcome.refused.inj h).symm, tr, rest, rfl, hd⟩

/-! ### The pseudo-instructions -/

theorem SynReg.ofNumber?_number (r : SynReg) : SynReg.ofNumber? r.number = some r := by
  cases r <;> decide

/-- A SYN.WREG of a register that takes the value (40_synth.md R111). -/
theorem exec_synWreg_of_write? {r : SynReg} {v : BitVec 64} {y : Syn} {s : State} (h : r.write? v s.syn = some y) :
    exec (.synWreg r.number v) s = .next { s with syn := y, out := s.out ++ [reply 0 0 []] } := by
  simp only [exec, execSynWreg, SynReg.ofNumber?_number, h]
  rfl

theorem execAll_cons {i : Instr} {s t : State} {rest : List Instr} (h : exec i s = .next t) :
    execAll (i :: rest) s = execAll rest t := by
  rw [execAll, h]

theorem execAll_singleton (i : Instr) (s : State) : execAll [i] s = exec i s := by
  rw [execAll]
  cases exec i s <;> rfl

/-- Register writes one after another; `none` where one is not taken. -/
def writeAll (ws : List (SynReg × BitVec 64)) (y : Syn) : Option Syn := ws.foldlM (fun z w => w.1.write? w.2 z) y

theorem writeAll_cons (w : SynReg × BitVec 64) (ws : List (SynReg × BitVec 64)) (y : Syn) :
    writeAll (w :: ws) y = (w.1.write? w.2 y).bind (writeAll ws) := List.foldlM_cons

/-- The SYN.WREG command of a register write. -/
def wreg (w : SynReg × BitVec 64) : Instr := .synWreg w.1.number w.2

/-- SYN.WREGs that are all taken give an OK each and leave SYN as the writes do; what comes after them runs then. -/
theorem execAll_map_wreg {ws : List (SynReg × BitVec 64)} {rest : List Instr} {s : State} {y : Syn}
    (h : writeAll ws s.syn = some y) :
    execAll (ws.map wreg ++ rest) s
      = execAll rest { s with syn := y, out := s.out ++ List.replicate ws.length (reply 0 0 []) } := by
  induction ws generalizing s with
  | nil =>
    obtain rfl := Option.some.inj h
    rw [List.length_nil, List.replicate_zero, List.append_nil]
    rfl
  | cons w ws ih =>
    rw [writeAll_cons] at h
    obtain ⟨y₁, hw, hrest⟩ := Option.bind_eq_some_iff.mp h
    rw [List.map_cons, List.cons_append, wreg, execAll_cons (exec_synWreg_of_write? hw), ih hrest, List.length_cons,
      List.replicate_succ, List.append_assoc, List.singleton_append]

/-- The seven writes of SYN.CONFIG (R100). -/
def configWrites (ch bits rate : BitVec 64) (freq ampl dc phase : F64) : List (SynReg × BitVec 64) :=
  [(.stgChannels, ch), (.stgBits, bits), (.stgRate, rate), (.stgFreq, freq), (.stgAmpl, ampl), (.stgDcoff, dc),
    (.stgPhase, phase)]

/-- The seven writes are taken where the narrow values fit (10_state.md R41). -/
theorem writeAll_configWrites {ch bits rate : BitVec 64} (freq ampl dc phase : F64) (y : Syn) (hch : ch.toNat < 2 ^ 16)
    (hbits : bits.toNat < 2 ^ 16) (hrate : rate.toNat < 2 ^ 32) :
    writeAll (configWrites ch bits rate freq ampl dc phase) y = some
      { y with
        stgChannels := ch.extractLsb' 0 16, stgBits := bits.extractLsb' 0 16, stgRate := rate.extractLsb' 0 32
        stgFreq := freq, stgAmpl := ampl, stgDc := dc, stgPhase := phase } := by
  have low : ∀ (v : BitVec 64) (w : Nat), v.setWidth w = v.extractLsb' 0 w := fun v w =>
    BitVec.eq_of_toNat_eq (by simp)
  simp only [configWrites, writeAll_cons, SynReg.write?, if_pos hch, if_pos hbits, if_pos hrate, Option.bind_some, low]
  rfl

/-- Settles O13: SYN.CONFIG is its seven writes and SYN.INIT; the other expansions are written out. -/
theorem pseudoInstructionsExpand : Obligations.PseudoInstructionsExpand := by
  refine ⟨fun s ch bits rate freq ampl dc phase => ⟨rfl, fun hch hbits hrate => ?_⟩, fun cfg pin h => if_pos h,
    fun _ => rfl, fun _ => rfl⟩
  have hw := writeAll_configWrites freq ampl dc phase s.syn hch hbits hrate
  exact (execAll_map_wreg (rest := [.synInit]) hw).trans (execAll_singleton _ _)

end Sys2Proof.Proofs
end

section
/-! PROOFS. The numbers of the family 40_synth.md: RoundHA (R130), wrap (R118), numeric closure (R134) and the sample of a frame
that is muted or of amplitude zero (R139, R140). -/

namespace Sys2Proof.Proofs

open Sys2Proof Sys2Proof.Machine

/-! ### RoundHA -/

theorem F64.roundHA_of_isFinite {v : F64} (hv : F64.isFinite v = true) :
    F64.roundHA v = .int (signed (F64.sign v) ((F64.mag v + 2 ^ 1073) / F64.unitsPerOne)) := by
  rw [F64.roundHA, F64.not_isNaN_of_isFinite hv, F64.not_isInf_of_isFinite hv, if_neg Bool.false_ne_true,
    if_neg Bool.false_ne_true]
  rfl

theorem F64.not_isNaN_of_isInf {x : F64} (h : F64.isInf x = true) : F64.isNaN x = false := by
  simp only [F64.isInf, Bool.and_eq_true, beq_iff_eq] at h
  simp [F64.isNaN, h.2]

theorem F64.roundHA_of_isInf {v : F64} (hv : F64.isInf v = true) :
    F64.roundHA v = if F64.sign v then .negInf else .posInf := by
  simp [F64.roundHA, F64.not_isNaN_of_isInf hv, hv]

/-- `floor(m / U + 1/2)` with `U = 2·H` is the nearest integer to `m / U`, and of two as near the larger. -/
theorem floor_add_half_near {H U : Nat} (hU : U = 2 * H) (hH : 0 < H) (m : Nat) :
    2 * |((m + H) / U : Nat) * (U : Int) - m| ≤ U
      ∧ (2 * |((m + H) / U : Nat) * (U : Int) - m| = U → m < (m + H) / U * U) := by
  have hdiv : (m + H) / U * U + (m + H) % U = m + H := Nat.div_add_mod' _ _
  have hrem : (m + H) % U < U := Nat.mod_lt _ (by omega)
  rw [← Nat.cast_mul]
  generalize (m + H) / U * U = near at *
  rcases abs_cases ((near : Int) - m) with ⟨e, -⟩ | ⟨e, -⟩
  · rw [e]; omega
  · rw [e]; omega

/-- Settles O58: the nearest integer to the magnitude, with the sign of the value. -/
theorem roundHaRoundsTiesAwayFromZero : Obligations.RoundHaRoundsTiesAwayFromZero := by
  refine fun v => ⟨fun hv => ⟨_, F64.roundHA_of_isFinite hv, ?_⟩, F64.roundHA_of_isInf⟩
  obtain ⟨hnear, htie⟩ := floor_add_half_near (U := F64.unitsPerOne) (H := 2 ^ 1073) (Nat.pow_succ' (n := 1073))
    (Nat.pow_pos Nat.two_pos) (F64.mag v)
  generalize (F64.mag v + 2 ^ 1073) / F64.unitsPerOne = n at *
  rw [F64.units_eq_signed, abs_signed_sub_signed]
  refine ⟨hnear, fun h => ?_⟩
  rw [Int.abs_eq_natAbs, Int.abs_eq_natAbs, natAbs_signed, natAbs_signed]
  exact_mod_cast htie h

/-! ### Sums and roundings that are exact -/

/-- The rounding of a finite value's own magnitude is the value. -/
theorem F64.round_sign_mag {x : F64} (hx : F64.isFinite x = true) : F64.round (F64.sign x) (F64.mag x) 1 = x := by
  obtain ⟨m, j, hform, hm, hj, -⟩ := F64.mag_form hx
  obtain ⟨-, hsign, hmag⟩ := F64.mag_round_of_form (neg := F64.sign x) hm hj
  rw [hform]
  exact F64.eq_of_sign_mag hsign (hmag.trans hform.symm)

theorem F64.eq_zero_of_mag {x : F64} (hs : F64.sign x = false) (hm : F64.mag x = 0) : x = 0 :=
  F64.eq_of_sign_mag (hs.trans F64.zero_sign.symm) (hm.trans F64.zero_mag.symm)

theorem F64.units_of_mag_zero {x : F64} (hm : F64.mag x = 0) : F64.units x = 0 := by
  rw [← Int.natAbs_eq_zero, F64.natAbs_units, hm]

/-- Adding a value to a zero of either sign keeps its exact value (its sign may change where it is a zero itself). -/
theorem F64.units_add_of_left_zero {x y : F64} (hx : F64.isFinite x = true) (hy : F64.isFinite y = true) (h0 : F64.mag x = 0) :
    F64.isFinite (F64.add x y) = true ∧ F64.units (F64.add x y) = F64.units y := by
  rw [F64.add_of_isFinite hx hy, F64.units_of_mag_zero h0, zero_add]
  split
  · next hz =>
    refine ⟨F64.isFinite_pack (by decide), ?_⟩
    rw [hz, F64.units_of_mag_zero (by rw [F64.mag_pack (by norm_num)]; decide)]
  · next hz =>
    have hsign : decide (F64.units y < 0) = F64.sign y := by
      cases hs : F64.sign y with
      | false => rw [F64.units_of_not_sign hs]; exact decide_eq_false (by omega)
      | true => rw [F64.units_of_sign hs] at hz ⊢; exact decide_eq_true (by omega)
    rw [F64.natAbs_units, hsign, F64.round_sign_mag hy]
    exact ⟨hy, rfl⟩

/-- A value that is not negative stays as it is, bit for bit, when a zero of either sign is added. -/
theorem F64.add_of_right_zero {x y : F64} (hx : F64.isFinite x = true) (hs : F64.sign x = false)
    (hy : F64.isFinite y = true) (h0 : F64.mag y = 0) : F64.add x y = x := by
  have hunits := F64.units_of_not_sign hs
  rw [F64.add_of_isFinite hx hy, F64.units_of_mag_zero h0, add_zero, hs, Bool.false_and]
  split
  · next hz => exact (F64.eq_zero_of_mag hs (by omega)).symm
  · rw [F64.natAbs_units, decide_eq_false (by omega), ← hs]
    exact F64.round_sign_mag hx

/-! ### wrap -/

/-- wrap leaves a value of the phase range as it is, bit for bit. -/
theorem F64.wrap_of_inPhaseRange {x : F64} (h : InPhaseRange x) : F64.wrap x = x := by
  obtain ⟨hfin, hs, hlt⟩ := inPhaseRange_iff.mp h
  rw [F64.wrap_eq hfin, Nat.mod_eq_of_lt hlt, if_pos hs]
  split
  · next hz => exact (F64.eq_zero_of_mag hs hz).symm
  · rw [← hs]
    exact F64.round_sign_mag hfin

/-- wrap of a value that is not negative is the exact remainder. -/
theorem F64.units_wrap_of_nonneg {x : F64} (hx : F64.isFinite x = true) (h : 0 ≤ F64.units x) :
    F64.units (F64.wrap x) = F64.units x % F64.units F64.twoPi := by
  have hunits : F64.units x = F64.mag x := by
    rw [← F64.natAbs_units, Int.natAbs_of_nonneg h]
  have hmod : F64.units x % F64.units F64.twoPi = ((F64.mag x % F64.mag F64.twoPi : Nat) : Int) := by
    rw [hunits, F64.units_of_not_sign F64.twoPi_sign, Int.natCast_mod]
  rw [hmod, F64.wrap_eq hx]
  split
  · next hz => rw [hz]; decide
  · next hz =>
    have hs : F64.sign x = false := by
      by_contra hn
      rw [F64.units_of_sign (by simpa using hn)] at hunits
      exact hz (by rw [show F64.mag x = 0 by omega, Nat.zero_mod])
    obtain ⟨m, j, hform, hm, hj⟩ := F64.mod_form hx F64.twoPi_isFinite F64.twoPi_mag_pos.ne'
    obtain ⟨-, hsign, hmag⟩ := F64.mag_round_of_form (neg := false) hm hj
    rw [if_pos hs, hform, F64.units_of_not_sign hsign, hmag]

/-- wrap of a negative value with a remainder: the rounding of what is left to TWO_PI, where TWO_PI itself becomes +0.0. -/
theorem F64.wrap_of_neg {x : F64} (hx : F64.isFinite x = true) (hs : F64.sign x = true)
    (h0 : F64.mag x % F64.mag F64.twoPi ≠ 0) :
    ∃ r : F64, RoundsTo (F64.units F64.twoPi - ((F64.mag x % F64.mag F64.twoPi : Nat) : Int)) 1 r
      ∧ F64.wrap x = if r = F64.twoPi then 0 else r := by
  have hlt : F64.mag x % F64.mag F64.twoPi < F64.mag F64.twoPi := Nat.mod_lt _ F64.twoPi_mag_pos
  have hrounds := F64.roundsTo_round (neg := false) (num := F64.mag F64.twoPi - F64.mag x % F64.mag F64.twoPi) Nat.one_pos
  have hsr : F64.sign (F64.round false (F64.mag F64.twoPi - F64.mag x % F64.mag F64.twoPi) 1) = false := F64.sign_round
  rw [F64.wrap_eq hx, if_neg h0, if_neg (by rw [hs]; exact Bool.noConfusion)]
  rw [signed, if_neg Bool.false_ne_true, Nat.cast_sub hlt.le] at hrounds
  rw [F64.units_of_not_sign F64.twoPi_sign]
  generalize F64.round false (F64.mag F64.twoPi - F64.mag x % F64.mag F64.twoPi) 1 = r at *
  refine ⟨r, hrounds, ?_⟩
  have hr : r = F64.twoPi ↔ F64.mag r = F64.mag F64.twoPi :=
    ⟨congrArg _, fun h => F64.eq_of_sign_mag (hsr.trans F64.twoPi_sign.symm) h⟩
  by_cases htwo : F64.mag r = F64.mag F64.twoPi
  · simp [hr, htwo]
  · by_cases hzero : F64.mag r = 0
    · simp [F64.eq_zero_of_mag hsr hzero]
    · simp [hr, htwo, hzero]

/-- Settles O28: the range of wrap, and its value by the sign of the argument. -/
theorem wrapTakesFiniteValuesIntoRange : Obligations.WrapTakesFiniteValuesIntoRange := by
  intro x hx
  refine ⟨inPhaseRange_iff.mpr (F64.wrap_range hx), F64.wrap_of_inPhaseRange, fun hlo hhi => ?_, F64.units_wrap_of_nonneg hx,
    fun hneg => ?_⟩
  · have hT : 0 ≤ F64.units F64.twoPi := by rw [F64.units_of_not_sign F64.twoPi_sign]; exact Int.natCast_nonneg _
    rw [F64.units_wrap_of_nonneg hx (hT.trans hlo), ← Int.sub_emod_right]
    exact Int.emod_eq_of_lt (by omega) (by omega)
  · have hs : F64.sign x = true := by
      by_contra hn
      rw [F64.units_of_not_sign (by simpa using hn)] at hneg
      omega
    exact ⟨fun h0 => by rw [F64.wrap_eq hx, if_pos h0], F64.wrap_of_neg hx hs⟩

/-! ### The sample of a ready synthesizer -/

/-- The amplitude of R131: +0.0 while muted. -/
def gain (y : Syn) : F64 := if y.mute then 0 else y.ampl

theorem gain_bound {y : Syn} (h : F64.isFinite y.ampl = true) :
    F64.isFinite (gain y) = true ∧ F64.mag (gain y) ≤ F64.mag y.ampl := by
  unfold gain
  split
  · exact ⟨F64.zero_isFinite, by rw [F64.zero_mag]; exact Nat.zero_le _⟩
  · exact ⟨h, le_rfl⟩

/-- The product of gain and sine at a finite angle is finite and no larger than the gain (R134). -/
theorem product_bound {cfg : Config} {y : Syn} {θ : F64} (ha : F64.isFinite y.ampl = true)
    (hθ : F64.isFinite θ = true) :
    F64.isFinite (F64.mul (gain y) (sinImpl cfg.sine θ)) = true
      ∧ F64.mag (F64.mul (gain y) (sinImpl cfg.sine θ)) ≤ F64.mag (gain y) := by
  obtain ⟨hsine, hunit⟩ := sinImpl_unit (impl := cfg.sine) hθ
  exact F64.mul_unit (gain_bound ha).1 hsine hunit

/-- A sum of finite values is infinite only where the magnitudes together exceed the largest finite value. -/
theorem F64.lt_of_isInf_add {x y : F64} (hx : F64.isFinite x = true) (hy : F64.isFinite y = true)
    (h : F64.isInf (F64.add x y) = true) : (2 ^ 53 - 1) * 2 ^ 2045 < F64.mag x + F64.mag y := by
  have hover : (2 ^ 54 - 1) * 2 ^ 2044 ≤ (F64.units x + F64.units y).natAbs := by
    by_contra hc
    have hfin := (F64.add_spec hx hy).2 (not_le.mp hc)
    rw [F64.not_isFinite_of_isInf h] at hfin
    cases hfin
  have htri := Int.natAbs_add_le (F64.units x) (F64.units y)
  rw [F64.natAbs_units, F64.natAbs_units] at htri
  have hstep : (2 ^ 53 - 1) * 2 ^ 2045 + 2 ^ 2044 = (2 ^ 54 - 1) * 2 ^ 2044 := by
    rw [pow_succ 2 2044]; ring
  have hpos : 0 < 2 ^ 2044 := Nat.pow_pos Nat.two_pos
  omega

/-- Settles O29: the sine is in [-1, 1], so that amplitude, offset and TWO_PI bound product, sum and next angle. -/
theorem numericClosure : Obligations.NumericClosure := by
  intro cfg y hr hi
  obtain ⟨-, -, hampl, hdc, hinc, hphase, -⟩ := hi.1 hr
  obtain ⟨hθ, -, hlt⟩ := inPhaseRange_iff.mp hphase
  obtain ⟨hsine, hunit⟩ := sinImpl_unit (impl := cfg.sine) hθ
  obtain ⟨hprod, hle⟩ := product_bound (cfg := cfg) hampl hθ
  have hgain := (gain_bound hampl).2
  refine ⟨hsine, hunit, hprod, (F64.add_spec hprod hdc).1, fun hinf => ?_, F64.add_below_twoPi hθ hlt hinc⟩
  have hsum := F64.lt_of_isInf_add hprod hdc hinf
  omega

/-- With a gain of zero every finite angle gives the DC offset alone: the product is a zero, and RoundHA looks at the exact value
of the sum only. -/
theorem sampleOf_of_gain_zero {cfg : Config} {y : Syn} {θ : F64} (hampl : F64.isFinite y.ampl = true)
    (hdc : F64.isFinite y.dc = true) (hθ : F64.isFinite θ = true) (h0 : F64.mag (gain y) = 0) :
    sampleOf cfg y θ y.mute = clip y.actBits.toNat (F64.roundHA y.dc) := by
  obtain ⟨hprod, hle⟩ := product_bound (cfg := cfg) hampl hθ
  obtain ⟨hfin, hunits⟩ := F64.units_add_of_left_zero hprod hdc (by omega)
  exact congrArg (clip y.actBits.toNat) (F64.roundHA_of_units hfin hdc hunits)

/-- Settles O23: muted or of amplitude zero, the gain is zero. -/
theorem mutedSampleIsDcOffset : Obligations.MutedSampleIsDcOffset := by
  intro cfg y hr hi hsilent
  obtain ⟨-, -, hampl, hdc, -, hphase, -⟩ := hi.1 hr
  refine sampleOf_of_gain_zero hampl hdc hphase.1 ?_
  rcases hsilent with hm | h0
  · rw [gain, if_pos hm]; exact F64.zero_mag
  · exact Nat.le_zero.mp (h0 ▸ (gain_bound hampl).2)

end Sys2Proof.Proofs
end

section
/-! PROOFS. The byte stream of the family 40_synth.md: one fill with its carry (R121, R126, R127), and fills one after another
(R141, R142). -/

namespace Sys2Proof.Proofs

open Sys2Proof Sys2Proof.Machine

/-! ### One fill -/

/-- The parts of the invariant a fill rests on: a frame is not empty, and its size is that of R36. -/
theorem frame_pos_of_readyInv {cfg : Config} {y : Syn} (h : y.ReadyInv cfg) :
    0 < y.frame.toNat ∧ y.frame.toNat = y.actChannels.toNat * (y.actBits.toNat / 8) := by
  obtain ⟨-, hframe, -, -, -, -, hcarry⟩ := h
  exact ⟨Nat.zero_lt_of_lt hcarry, hframe⟩

/-- How many frames a fill of `len` bytes computes. -/
def fillFrames (y : Syn) (len : Nat) : Nat := framesFor y.frame.toNat (len - y.carry.length)

theorem generate_of_readyInv {cfg : Config} {y : Syn} (h : y.ReadyInv cfg) (len : Nat) :
    y.generate cfg len =
      ((y.carry ++ y.stream cfg (fillFrames y len)).take len,
        y.after (fillFrames y len) ((y.carry ++ y.stream cfg (fillFrames y len)).drop len)) := by
  obtain ⟨hpos, hframe⟩ := frame_pos_of_readyInv h
  exact Syn.generate_eq len hpos hframe

theorem length_stream_fillFrames {cfg : Config} {y : Syn} (h : y.ReadyInv cfg) (len : Nat) :
    (y.stream cfg (fillFrames y len)).length = framesFor y.frame.toNat (len - y.carry.length) * y.frame.toNat := by
  rw [Syn.stream_length, ← (frame_pos_of_readyInv h).2, fillFrames]

/-- A fill gives the bytes it was asked for. -/
theorem length_generate {cfg : Config} {y : Syn} (h : y.ReadyInv cfg) (len : Nat) : (y.generate cfg len).1.length = len := by
  rw [generate_of_readyInv h]
  exact length_take_carry (frame_pos_of_readyInv h).1 (length_stream_fillFrames h len)

/-- The carry a fill leaves has the length R121 and R123 give. -/
theorem length_carry_generate {cfg : Config} {y : Syn} (h : y.ReadyInv cfg) (len : Nat) :
    (y.generate cfg len).2.carry.length = carryAfter y.frame.toNat y.carry.length len := by
  rw [generate_of_readyInv h]
  exact length_drop_carry (frame_pos_of_readyInv h).1 (length_stream_fillFrames h len)

/-- The carry comes first (R121), whatever else holds of the state. -/
theorem carry_first_generate (cfg : Config) (len : Nat) (y : Syn) :
    ∃ rest, (y.generate cfg len).1 = y.carry.take (min len y.carry.length) ++ rest := by
  unfold Syn.generate
  dsimp only
  split
  · exact ⟨_, rfl⟩
  · exact ⟨_, rfl⟩

/-- A fill within the carry computes no frame (R121), whatever else holds of the state. -/
theorem generate_of_le_carry {cfg : Config} {len : Nat} {y : Syn} (h : len ≤ y.carry.length) :
    y.generate cfg len = (y.carry.take len, { y with carry := y.carry.drop len }) := by
  simp [Syn.generate, Nat.min_eq_left h, Syn.computeFrames]

/-- A fill of no bytes changes nothing (R126). -/
theorem generate_zero (cfg : Config) (y : Syn) : y.generate cfg 0 = ([], y) := generate_of_le_carry (Nat.zero_le _)

/-- The bytes of a fill up to the length of the carry are those of the carry. -/
theorem take_carry_generate {cfg : Config} {y : Syn} (h : y.ReadyInv cfg) (len : Nat) :
    (y.generate cfg len).1.take y.carry.length = y.carry.take len := by
  rw [generate_of_readyInv h, List.take_take, Nat.min_comm, ← List.take_take, List.take_left]

/-- The bytes of a fill after those of the carry are the first of the stream. -/
theorem drop_carry_generate {cfg : Config} {y : Syn} (h : y.ReadyInv cfg) (len : Nat) :
    (y.generate cfg len).1.drop y.carry.length = (y.stream cfg (fillFrames y len)).take (len - y.carry.length) := by
  rw [generate_of_readyInv h, List.drop_take, List.drop_left]

/-- The stream is one of theta and the active format: no carry enters it. -/
theorem stream_of_carry (cfg : Config) (y : Syn) (carry : List Byte) (n : Nat) :
    ({ y with carry := carry } : Syn).stream cfg n = y.stream cfg n := by
  have h := Syn.stream_add cfg y 0 n carry
  rw [Nat.zero_add] at h
  exact h.symm

/-! ### Two fills are one -/

/-- The frames that hold `a` bytes and those that hold the next `b`, less the bytes left over by the first, are those that hold
all: `c` of the bytes need no frame. -/
theorem framesFor_add {f : Nat} (hf : 0 < f) (a b c : Nat) :
    framesFor f (a + b - c)
      = framesFor f (a - c) + framesFor f (b - (c + framesFor f (a - c) * f - a)) := by
  have hnone : ∀ n, n = 0 → framesFor f n * f = 0 := by
    rintro n rfl
    rw [framesFor_zero hf, Nat.zero_mul]
  have hfirst := framesFor_spec (n := a - c) hf
  have hfirst0 := hnone (a - c)
  have hsecond := framesFor_spec (n := b - (c + framesFor f (a - c) * f - a)) hf
  have hsecond0 := hnone (b - (c + framesFor f (a - c) * f - a))
  apply framesFor_unique hf
  · rw [Nat.add_mul]; omega
  · rw [Nat.add_mul]; omega

theorem after_after (y : Syn) (m n : Nat) (c carry : List Byte) : (y.after m c).after n carry = y.after (m + n) carry := by
  simp only [Syn.after, ← Syn.thetaAt_after y m n c]

/-- The frames of two fills are those of one: what the first computes too many waits in the carry. -/
theorem fillFrames_add {cfg : Config} {y : Syn} (h : y.ReadyInv cfg) (a b : Nat) :
    fillFrames y (a + b) = fillFrames y a + fillFrames (y.generate cfg a).2 b := by
  have hcarry : (y.generate cfg a).2.carry.length
      = y.carry.length + framesFor y.frame.toNat (a - y.carry.length) * y.frame.toNat - a := by
    rw [generate_of_readyInv h, List.length_drop, List.length_append, length_stream_fillFrames h]
  have hframe : (y.generate cfg a).2.frame = y.frame := by rw [generate_of_readyInv h]
  rw [fillFrames, fillFrames, fillFrames, hcarry, hframe]
  exact framesFor_add (frame_pos_of_readyInv h).1 a b y.carry.length

/-- Two fills one after another give the bytes of one of their sum, and leave its state. -/
theorem generate_add {cfg : Config} {y : Syn} (h : y.ReadyInv cfg) (a b : Nat) :
    y.generate cfg (a + b) =
      ((y.generate cfg a).1 ++ ((y.generate cfg a).2.generate cfg b).1, ((y.generate cfg a).2.generate cfg b).2) := by
  have hlen := length_generate h a
  have hframes := fillFrames_add h a b
  have hall : y.carry ++ y.stream cfg (fillFrames y (a + b))
      = (y.generate cfg a).1
        ++ ((y.generate cfg a).2.carry ++ (y.generate cfg a).2.stream cfg (fillFrames (y.generate cfg a).2 b)) := by
    rw [hframes, generate_of_readyInv h a, ← List.append_assoc, List.take_append_drop, List.append_assoc, ← Syn.stream_add]
  have hafter : ∀ carry, y.after (fillFrames y (a + b)) carry
      = (y.generate cfg a).2.after (fillFrames (y.generate cfg a).2 b) carry := by
    intro carry
    rw [hframes, generate_of_readyInv h a, after_after]
  rw [generate_of_readyInv (Syn.ReadyInv.generate h a) b, generate_of_readyInv h (a + b), hall, hafter, List.take_append,
    List.drop_append, hlen, Nat.add_sub_cancel_left, List.take_of_length_le (by omega), List.drop_of_length_le (by omega),
    List.nil_append]

/-! ### SYN.GEN after SYN.GEN -/

theorem flatten_pieces (bytes : List Byte) (ns : List Nat) : (pieces bytes ns).flatten = bytes.take ns.sum := by
  induction ns generalizing bytes with
  | nil => rfl
  | cons n rest ih => rw [pieces, List.flatten_cons, ih, List.sum_cons, List.take_add]

/-- The pieces lie in as many bytes as their lengths add up to. -/
theorem pieces_take_sum (bytes : List Byte) (ns : List Nat) : pieces (bytes.take ns.sum) ns = pieces bytes ns := by
  induction ns generalizing bytes with
  | nil => rfl
  | cons n rest ih =>
    rw [pieces, pieces, List.sum_cons, List.take_take, Nat.min_eq_left (Nat.le_add_right _ _), List.drop_take,
      Nat.add_sub_cancel_left, ih]

/-- The bytes a list of SYN.GENs asks for. -/
def total (lens : List (BitVec 32)) : Nat := (lens.map BitVec.toNat).sum

/-- The state after a list of SYN.GENs: that of one fill of all the bytes, each response a piece of them. -/
def filled (s : State) (lens : List (BitVec 32)) : State :=
  { s with
    syn := (s.syn.generate s.cfg (total lens)).2
    out := s.out ++ (pieces (s.syn.generate s.cfg (total lens)).1 (lens.map BitVec.toNat)).map (reply 0 0) }

theorem newResponses_filled (s : State) (lens : List (BitVec 32)) :
    newResponses s (filled s lens)
      = (pieces (s.syn.generate s.cfg (total lens)).1 (lens.map BitVec.toNat)).map (reply 0 0) := List.drop_left

theorem payloads_map_reply (ps : List (List Byte)) : payloads (ps.map (reply 0 0)) = ps.flatten := by
  rw [payloads, List.flatMap_map, ← List.flatMap_id]
  rfl

/-- The bytes of a run of SYN.GENs are those of one fill (R142). -/
theorem payloads_filled {s : State} (h : s.syn.ReadyInv s.cfg) (lens : List (BitVec 32)) :
    payloads (newResponses s (filled s lens)) = (s.syn.generate s.cfg (total lens)).1 := by
  rw [newResponses_filled, payloads_map_reply, flatten_pieces]
  exact List.take_of_length_le (length_generate h _).le

theorem total_cons (len : BitVec 32) (lens : List (BitVec 32)) : total (len :: lens) = len.toNat + total lens := by
  rw [total, List.map_cons, List.sum_cons, total]

theorem total_nil : total [] = 0 := rfl

theorem total_singleton (len : BitVec 32) : total [len] = len.toNat := rfl

theorem filled_syn (s : State) (lens : List (BitVec 32)) : (filled s lens).syn = (s.syn.generate s.cfg (total lens)).2 := rfl

theorem filled_ready {s : State} (lens : List (BitVec 32)) : (filled s lens).syn.ready = s.syn.ready := by
  obtain ⟨_, _, he⟩ := Syn.generate_snd_eq s.cfg (total lens) s.syn
  rw [filled_syn, he]

theorem filled_readyInv {s : State} (h : s.syn.ReadyInv s.cfg) (lens : List (BitVec 32)) :
    (filled s lens).syn.ReadyInv (filled s lens).cfg := Syn.ReadyInv.generate h _

theorem exec_synGen_eq_filled {s : State} (hr : s.syn.ready = true) (h : s.syn.ReadyInv s.cfg) (len : BitVec 32) :
    exec (.synGen len) s = .next (filled s [len]) := by
  have hlen := length_generate h len.toNat
  rw [exec_synGen_of_ready hr, filled, total_singleton, List.map_singleton, pieces, pieces, List.map_singleton,
    List.take_of_length_le hlen.le]
  rfl

theorem filled_filled {s : State} (h : s.syn.ReadyInv s.cfg) (len : BitVec 32) (rest : List (BitVec 32)) :
    filled (filled s [len]) rest = filled s (len :: rest) := by
  have hlen := length_generate h len.toNat
  simp only [filled, total_nil, total_cons, generate_zero, generate_add h, List.map_cons, List.map_nil, pieces,
    List.append_nil, List.take_left' hlen, List.take_of_length_le hlen.le, List.drop_left' hlen, List.append_assoc,
    List.singleton_append]

/-- A run of SYN.GENs is one fill of the sum of their lengths, by induction on the run: each command takes its piece, and the fill
goes on from the state it leaves. -/
theorem execAll_synGen {s : State} (hr : s.syn.ready = true) (h : s.syn.ReadyInv s.cfg) (lens : List (BitVec 32)) :
    execAll (lens.map Instr.synGen) s = .next (filled s lens) := by
  induction lens generalizing s with
  | nil =>
    rw [filled, total_nil, generate_zero, List.map_nil, List.map_nil, pieces, List.map_nil, List.append_nil]
    rfl
  | cons len rest ih =>
    rw [List.map_cons, execAll_cons (exec_synGen_eq_filled hr h len),
      ih (by rw [filled_ready]; exact hr) (filled_readyInv h [len]), filled_filled h]

theorem readyInv_of_inv {s : State} (hi : s.Inv) (hr : s.syn.ready = true) : s.syn.ReadyInv s.cfg := by
  obtain ⟨-, -, -, hsyn, -, -⟩ := hi
  exact hsyn.1 hr

/-- Settles O21: a run of SYN.GENs is one fill, and from a frame boundary a fill is the front of the stream. -/
theorem fillsAreSlicesOfOneStream : Obligations.FillsAreSlicesOfOneStream := by
  intro s lens hi hr hempty
  have h := readyInv_of_inv hi hr
  have hframes : fillFrames s.syn (total lens) = framesFor s.syn.frame.toNat (total lens) := by
    rw [fillFrames, hempty, List.length_nil, Nat.sub_zero]
  have hfill := generate_of_readyInv h (total lens)
  rw [hframes, hempty, List.nil_append] at hfill
  refine ⟨_, execAll_synGen hr h lens, ?_, congrArg Prod.snd hfill, ?_⟩
  · rw [newResponses_filled, hfill]
    exact congrArg (List.map (reply 0 0)) (pieces_take_sum _ _)
  · rw [filled_syn, length_carry_generate h, hempty, carryAfter, List.length_nil, Nat.sub_zero]
    split
    · next h0 =>
      rw [total] at h0
      simp [Nat.le_zero.mp h0]
    · rfl

/-- Settles O22: a run of SYN.GENs and the one of their sum are the same fill. -/
theorem chunkingInvariance : Obligations.ChunkingInvariance := by
  intro s lens n hi hr hsum
  have h := readyInv_of_inv hi hr
  have hsame : total lens = total [n] := hsum
  refine ⟨_, _, execAll_synGen hr h lens, exec_synGen_eq_filled hr h n, ?_, ?_, fun hempty hwhole => ?_⟩
  · rw [payloads_filled h, payloads_filled h, hsame]
  · rw [filled_syn, filled_syn, hsame]
  · rw [← List.length_eq_zero_iff, filled_syn, length_carry_generate h, hsame, total_singleton, hempty, carryAfter]
    split
    · exact Nat.zero_sub _
    · rw [List.length_nil, Nat.sub_zero, hwhole, Nat.sub_zero, Nat.mod_self]

/-! ### The carry and the readiness -/

theorem exec_synGen_of_not_ready {s : State} {len : BitVec 32} (h : s.syn.ready = false) :
    exec (.synGen len) s = .next { s with out := s.out ++ [reply 6 0 []] } := by
  simp only [exec, execSynGen, h, if_true]
  rfl

/-- Settles O18: the ready check comes first, and a fill of no bytes is empty. -/
theorem synGenNotReadyAndZeroLength : Obligations.SynGenNotReadyAndZeroLength := by
  refine fun s len => ⟨exec_synGen_of_not_ready, ?_⟩
  rintro hr rfl
  have h0 : BitVec.toNat (0 : BitVec 32) = 0 := rfl
  rw [exec_synGen_of_ready hr, h0, generate_zero]
  rfl

/-- Settles O20: the front of a fill is the carry, and a fill within it is nothing else. -/
theorem synGenEmitsCarryFirst : Obligations.SynGenEmitsCarryFirst := by
  intro s len hr
  obtain ⟨rest, hfront⟩ := carry_first_generate s.cfg len.toNat s.syn
  refine ⟨_, _, exec_synGen_of_ready hr, newResponses_answer rfl _ _ _ _, ?_, fun hle => ?_⟩
  · rw [hfront, List.take_left' (by rw [List.length_take, Nat.min_assoc, Nat.min_self])]
  · rw [State.answer_syn, generate_of_le_carry hle]
    exact ⟨rfl, rfl⟩

end Sys2Proof.Proofs
end

section
/-! PROOFS. Equal frames one after another, of the family 40_synth.md: a muted stretch (R144), and SYN.INIT (R113) with the zero
increment it may give (R140). -/

namespace Sys2Proof.Proofs

open Sys2Proof Sys2Proof.Machine

/-! ### Equal frames -/

/-- Where every frame is the same the stream repeats it. -/
theorem stream_of_constant {cfg : Config} {y : Syn} {l : List Byte} (h : ∀ j, y.frameAt cfg j = l) (n : Nat) :
    y.stream cfg n = (List.replicate n l).flatten := by
  induction n with
  | zero => rfl
  | succ n ih => rw [Syn.stream_succ, ih, h, List.replicate_succ', List.flatten_append, List.flatten_singleton]

theorem length_flatten_replicate (n : Nat) (l : List Byte) : (List.replicate n l).flatten.length = n * l.length := by
  rw [List.length_flatten, List.map_replicate, List.sum_replicate, smul_eq_mul]

/-- The front of a repetition does not depend on how often it repeats, if often enough. -/
theorem take_flatten_replicate {l : List Byte} {k m n : Nat} (hm : k ≤ m * l.length) (hn : k ≤ n * l.length) :
    (List.replicate m l).flatten.take k = (List.replicate n l).flatten.take k := by
  have more : ∀ p q, k ≤ p * l.length →
      (List.replicate (p + q) l).flatten.take k = (List.replicate p l).flatten.take k := by
    intro p q hp
    rw [List.replicate_add, List.flatten_append, List.take_append_of_le_length (by rwa [length_flatten_replicate])]
  rw [← more m n hm, Nat.add_comm, more n m hn]

/-- A fill of equal frames gives, after the carry, the first bytes of their repetition. -/
theorem drop_carry_generate_of_constant {cfg : Config} {y : Syn} {l : List Byte} (h : y.ReadyInv cfg)
    (hl : ∀ j, y.frameAt cfg j = l) (len : Nat) :
    (y.generate cfg len).1.drop y.carry.length = (List.replicate len l).flatten.take (len - y.carry.length) := by
  obtain ⟨hpos, hframe⟩ := frame_pos_of_readyInv h
  have hlen : l.length = y.frame.toNat := by rw [← hl 0, Syn.frameAt_length, hframe]
  rw [drop_carry_generate h, stream_of_constant hl]
  apply take_flatten_replicate
  · rw [hlen]
    exact (framesFor_spec hpos).1
  · rw [hlen]
    exact (Nat.sub_le _ _).trans (Nat.le_mul_of_pos_right _ hpos)

/-- Where a fill computes a frame, the carry it leaves is the tail of the last one (10_state.md R44). -/
theorem carry_generate_of_gt {cfg : Config} {y : Syn} (h : y.ReadyInv cfg) {len : Nat} (hgt : y.carry.length < len) :
    let last := y.frameAt cfg (fillFrames y len - 1)
    (y.generate cfg len).2.carry = last.drop (last.length - carryAfter y.frame.toNat y.carry.length len) := by
  intro last
  obtain ⟨hpos, hframe⟩ := frame_pos_of_readyInv h
  obtain ⟨-, -, -, -, -, -, hshort⟩ := Syn.ReadyInv.generate h len
  have hsome : 0 < fillFrames y len := by
    obtain ⟨hholds, -⟩ := framesFor_spec (n := len - y.carry.length) hpos
    exact Nat.pos_of_mul_pos_right (lt_of_lt_of_le (Nat.sub_pos_of_lt hgt) hholds)
  have hlast : last <:+ y.carry ++ y.stream cfg (fillFrames y len) := by
    rw [← Nat.sub_add_cancel hsome, Syn.stream_succ, ← List.append_assoc]
    exact List.suffix_append _ _
  have hcarry : (y.generate cfg len).2.carry <:+ y.carry ++ y.stream cfg (fillFrames y len) := by
    rw [generate_of_readyInv h]
    exact List.drop_suffix _ _
  have hle : (y.generate cfg len).2.carry.length ≤ last.length := by
    rw [Syn.frameAt_length, ← hframe]
    refine hshort.le.trans (le_of_eq ?_)
    rw [generate_of_readyInv h]
  rw [← length_carry_generate h len]
  exact List.suffix_iff_eq_drop.mp (List.suffix_of_suffix_length_le hcarry hlast hle)

/-! ### A muted stretch -/

theorem setMute_readyInv {cfg : Config} {y : Syn} (h : y.ReadyInv cfg) (m : Bool) : (y.setMute m).ReadyInv cfg := h

theorem thetaAt_setMute (y : Syn) (m : Bool) (n : Nat) : (y.setMute m).thetaAt n = y.thetaAt n := by
  induction n with
  | zero => rfl
  | succ n ih => rw [Syn.thetaAt, ih, Syn.thetaAt, Syn.setMute_inc]

/-- The frame of the DC offset alone (R139). -/
def silentFrame (cfg : Config) (y : Syn) : List Byte :=
  frameBytes cfg.pcm8 y.actBits.toNat y.actChannels.toNat (clip y.actBits.toNat (F64.roundHA y.dc))

/-- Every frame computed while muted is that of the DC offset. -/
theorem frameAt_setMute_true {cfg : Config} {y : Syn} (h : y.ReadyInv cfg) (j : Nat) :
    (y.setMute true).frameAt cfg j = silentFrame cfg y := by
  obtain ⟨-, -, hampl, hdc, hinc, hphase, -⟩ := setMute_readyInv h true
  have hsample := sampleOf_of_gain_zero (cfg := cfg) hampl hdc (Syn.thetaAt_inPhaseRange hphase hinc j).1 F64.zero_mag
  rw [Syn.frameAt, hsample]
  rfl

/-- A fill muted and then the mute lifted leaves what the fill unmuted leaves, but for the carry. -/
theorem setMute_false_generate {cfg : Config} {y : Syn} (h : y.ReadyInv cfg) (hm : y.mute = false) (len : Nat) :
    ((y.setMute true).generate cfg len).2.setMute false
      = { (y.generate cfg len).2 with carry := ((y.setMute true).generate cfg len).2.carry } := by
  rw [generate_of_readyInv h, generate_of_readyInv (setMute_readyInv h true)]
  simp only [Syn.after, thetaAt_setMute, ← hm]
  rfl

/-- A fill computes the same frames and leaves the same theta whatever the bytes of a carry of the same length are. -/
theorem generate_of_carry {cfg : Config} {y : Syn} (h : y.ReadyInv cfg) {carry : List Byte}
    (hlen : carry.length = y.carry.length) (len : Nat) :
    (({ y with carry := carry } : Syn).generate cfg len).1.drop carry.length = (y.generate cfg len).1.drop y.carry.length
      ∧ (({ y with carry := carry } : Syn).generate cfg len).2.theta = (y.generate cfg len).2.theta := by
  have h' : ({ y with carry := carry } : Syn).ReadyInv cfg := by
    obtain ⟨hformat, hframe, hampl, hdc, hinc, hphase, hcarry⟩ := h
    exact ⟨hformat, hframe, hampl, hdc, hinc, hphase, hlen.trans_lt hcarry⟩
  have hframes : fillFrames { y with carry := carry } len = fillFrames y len := by
    rw [fillFrames, fillFrames, hlen]
  constructor
  · rw [drop_carry_generate h, ← hlen, ← stream_of_carry cfg y carry, ← hframes]
    exact drop_carry_generate h' len
  · rw [generate_of_readyInv h, generate_of_readyInv h', hframes]
    exact (Syn.thetaAt_after y 0 _ carry).trans (by rw [Nat.zero_add])

/-- The state after a CQ.MUTE (42_control.md R200). -/
def muted (m : Bool) (s : State) : State := State.answer { s with syn := s.syn.setMute m } .issuer .ok 0 []

theorem execAll_cqMute_synGen {s : State} (hr : s.syn.ready = true) (h : s.syn.ReadyInv s.cfg) (m : Bool)
    (lens : List (BitVec 32)) :
    execAll (.cqMute m :: lens.map Instr.synGen) s = .next (filled (muted m s) lens) := by
  have hmute : exec (.cqMute m) s = .next (muted m s) := rfl
  rw [execAll_cons hmute]
  exact execAll_synGen (s := muted m s) hr (setMute_readyInv h m) lens

/-- The answer to CQ.MUTE has no payload. -/
theorem payloads_muted_filled {s : State} (h : s.syn.ReadyInv s.cfg) (m : Bool) (lens : List (BitVec 32)) :
    payloads (newResponses s (filled (muted m s) lens)) = ((s.syn.setMute m).generate s.cfg (total lens)).1 := by
  have hout : (filled (muted m s) lens).out
      = s.out ++ reply 0 0 [] :: newResponses (muted m s) (filled (muted m s) lens) := by
    rw [newResponses_filled, ← List.singleton_append, ← List.append_assoc]
    rfl
  have hfill := payloads_filled (s := muted m s) (setMute_readyInv h m) lens
  rw [newResponses, hout, List.drop_left, payloads, List.flatMap_cons]
  exact hfill

/-- Settles O24: the muted fill and the unmuted one cut the same carry, then the muted one equal frames; what both leave differs
in the carry only. -/
theorem muteConsistency : Obligations.MuteConsistency := by
  intro s as bs hi hr hm a c0 b c1 silent
  have h := readyInv_of_inv hi hr
  have hmuted := setMute_readyInv h true
  have hsilent := frameAt_setMute_true h
  have hc1 : ((s.syn.setMute true).generate s.cfg a).2.carry.length = c1 := length_carry_generate hmuted a
  have hc1' : (s.syn.generate s.cfg a).2.carry.length = c1 := length_carry_generate h a
  have hafter := setMute_false_generate h hm a
  have hresumed := generate_of_carry (Syn.ReadyInv.generate h a) (hc1.trans hc1'.symm) b
  rw [← hafter, hc1, hc1'] at hresumed
  have hready : (filled (muted true s) as).syn.ready = true := (filled_ready as).trans hr
  have hready' : (filled s as).syn.ready = true := (filled_ready as).trans hr
  have hinv : (filled (muted true s) as).syn.ReadyInv s.cfg := Syn.ReadyInv.generate hmuted a
  have hinv' : (filled s as).syn.ReadyInv s.cfg := Syn.ReadyInv.generate h a
  refine ⟨_, _, _, _, execAll_cqMute_synGen hr h true as, execAll_cqMute_synGen hready hinv false bs,
    execAll_synGen hr h as, execAll_synGen hready' hinv' bs, ?_, ?_, ?_, ?_, ?_, ?_, hresumed.2⟩
  · rw [payloads_muted_filled h, payloads_filled h]
    exact (take_carry_generate hmuted a).trans (take_carry_generate h a).symm
  · rw [payloads_muted_filled h]
    exact drop_carry_generate_of_constant hmuted hsilent a
  · split
    · next hle => exact congrArg (fun fill => fill.2.carry) (generate_of_le_carry (y := s.syn.setMute true) hle)
    · next hgt =>
      have hcarry := carry_generate_of_gt hmuted (not_le.mp hgt)
      rw [hsilent] at hcarry
      exact hcarry
  · rw [payloads_muted_filled hinv, ← hc1]
    exact take_carry_generate (setMute_readyInv hinv false) b
  · rw [payloads_muted_filled hinv, payloads_filled hinv']
    exact hresumed.1
  · exact (congrArg Syn.theta hafter :)

/-! ### SYN.INIT -/

theorem supportsBits_iff {cfg : Config} {bits : BitVec 16} :
    supportsBits cfg bits = true ↔ bits.toNat ∈ cfg.supportedBits.map BitDepth.bits := by
  simp [supportsBits]

theorem formatOk_iff {s : State} :
    formatOk s.cfg s.syn.stgChannels s.syn.stgBits s.syn.stgRate = true ↔ StagedFormatOk s := by
  simp only [formatOk, Bool.and_eq_true, decide_eq_true_eq, supportsBits_iff, and_assoc]

theorem paramsFinite_iff {s : State} :
    paramsFinite s.syn = true ∧ F64.isFinite (stagedIncrement s) = true ↔ StagedParamsOk s := by
  simp only [paramsFinite, Bool.and_eq_true, and_assoc]

/-- What SYN.INIT does with a good format and finite parameters. -/
theorem exec_synInit_of_ok {s : State} (hf : StagedFormatOk s) (hp : StagedParamsOk s) :
    exec .synInit s =
      .next { s with syn := s.syn.startInstance (stagedIncrement s), out := s.out ++ [reply 0 0 []] } := by
  obtain ⟨hparams, hinc⟩ := paramsFinite_iff.mpr hp
  have hinc' : F64.isFinite (F64.increment s.syn.stgFreq s.syn.stgRate) = true := hinc
  simp only [exec, execSynInit, formatOk_iff.mpr hf, hparams, hinc', Bool.true_eq_false, if_false]
  rfl

theorem exec_synInit_of_bad_format {s : State} (hf : ¬ StagedFormatOk s) :
    exec .synInit s = .next { s with syn := s.syn.failInit, out := s.out ++ [reply 1 0 []] } := by
  have hbad := Bool.eq_false_iff.mpr (mt formatOk_iff.mp hf)
  simp only [exec, execSynInit, hbad, if_true]
  rfl

/-- A parameter that is not finite and an increment that is not finite are answered alike (R115). -/
theorem exec_synInit_of_bad_params {s : State} (hf : StagedFormatOk s) (hp : ¬ StagedParamsOk s) :
    exec .synInit s = .next { s with syn := s.syn.failInit, out := s.out ++ [reply 7 0 []] } := by
  simp only [exec, execSynInit, formatOk_iff.mpr hf, Bool.true_eq_false, if_false]
  split
  · rfl
  · next hparams =>
    have hinc : F64.isFinite (F64.increment s.syn.stgFreq s.syn.stgRate) = false :=
      Bool.eq_false_iff.mpr fun hinc => hp (paramsFinite_iff.mp ⟨by simpa using hparams, hinc⟩)
    rw [if_pos hinc]
    rfl

/-- Settles O17: one lemma for each outcome. -/
theorem synInitFollowsItsRule : Obligations.SynInitFollowsItsRule := fun _ =>
  ⟨exec_synInit_of_ok, exec_synInit_of_bad_format, exec_synInit_of_bad_params⟩

/-! ### A zero increment -/

/-- The increment of the frequency +0.0: a zero product over a rate that is not zero, all of them not negative (R119). -/
theorem stagedIncrement_zero {s : State} (hrate : 1 ≤ s.syn.stgRate.toNat) (hfreq : s.syn.stgFreq = 0) :
    stagedIncrement s = 0 := by
  have hmul : F64.mul F64.twoPi 0 = 0 := by
    rw [F64.mul_of_isFinite F64.twoPi_isFinite F64.zero_isFinite, F64.twoPi_sign, F64.zero_sign, F64.zero_mag, Nat.mul_zero]
    exact F64.eq_zero_of_mag F64.sign_round (F64.mag_round_zero F64.unitsPerOne_pos)
  obtain ⟨hfin, hunits⟩ := F64.ofNat_exact (n := s.syn.stgRate.toNat) (by omega)
  have hsign : F64.sign (F64.ofNat s.syn.stgRate.toNat) = false := F64.sign_round
  have hmag : 0 < F64.mag (F64.ofNat s.syn.stgRate.toNat) := by
    rw [F64.units_of_not_sign hsign, ← Nat.cast_mul, Nat.cast_inj] at hunits
    rw [hunits]
    exact Nat.mul_pos hrate F64.unitsPerOne_pos
  rw [stagedIncrement, hfreq, hmul, F64.div_of_isFinite F64.zero_isFinite hfin hmag.ne', hsign, F64.zero_sign, F64.zero_mag,
    Nat.zero_mul]
  exact F64.eq_zero_of_mag F64.sign_round (F64.mag_round_zero hmag)

/-- With an increment of zero theta stays: the sum is theta bit for bit, and wrap leaves its range alone. -/
theorem thetaAt_of_inc_zero {cfg : Config} {y : Syn} (h : y.ReadyInv cfg) (h0 : F64.mag y.inc = 0) (n : Nat) :
    y.thetaAt n = y.theta := by
  obtain ⟨-, -, -, -, hinc, hphase, -⟩ := h
  induction n with
  | zero => rfl
  | succ n ih =>
    rw [Syn.thetaAt, ih, F64.add_of_right_zero hphase.1 hphase.2.1 hinc h0]
    exact F64.wrap_of_inPhaseRange hphase

/-- A fill of equal frames is the front of the carry and their repetition. -/
theorem generate_of_constant {cfg : Config} {y : Syn} {l : List Byte} (h : y.ReadyInv cfg)
    (hl : ∀ j, y.frameAt cfg j = l) (len : Nat) :
    (y.generate cfg len).1 = (y.carry ++ (List.replicate len l).flatten).take len := by
  rw [List.take_append, ← take_carry_generate h, ← drop_carry_generate_of_constant h hl, List.take_append_drop]

/-- Settles O25: the zero increment of SYN.INIT, and the equal frames of one. -/
theorem zeroIncrementRepeatsOneFrame : Obligations.ZeroIncrementRepeatsOneFrame := by
  have hzero : ∀ s : State, StagedFormatOk s → s.syn.stgFreq = 0 → stagedIncrement s = 0 := by
    rintro s ⟨-, -, -, -, hrate⟩ hfreq
    exact stagedIncrement_zero hrate hfreq
  refine ⟨hzero, fun s hf hp hfreq => ⟨_, exec_synInit_of_ok hf hp, rfl, hzero s hf hfreq, rfl⟩, fun s len hi hr h0 => ?_⟩
  have h := readyInv_of_inv hi hr
  have hθ := thetaAt_of_inc_zero h h0
  have hframe : ∀ j, s.syn.frameAt s.cfg j = s.syn.nextFrame s.cfg := by
    intro j
    rw [Syn.nextFrame_eq, Syn.frameAt, hθ]
    rfl
  refine ⟨_, _, exec_synGen_of_ready hr, newResponses_answer rfl _ _ _ _, ?_, generate_of_constant h hframe len.toNat⟩
  rw [State.answer_syn, generate_of_readyInv h]
  exact hθ _

end Sys2Proof.Proofs
end

section
/-! PROOFS. The register map of the family 40_synth.md: what SYN.WREG writes (R111) and SYN.RREG reads (R112). -/

namespace Sys2Proof.Proofs

open Sys2Proof Sys2Proof.Machine

/-! ### The numbers of the registers -/

theorem number_of_ofNumber? {n : BitVec 8} {r : SynReg} (h : SynReg.ofNumber? n = some r) : r.number = n := by
  rw [SynReg.ofNumber?] at h
  exact eq_of_beq (List.find?_some h :)

/-- The numbers of R40: the staging registers up to 0x06, the others from 0x10 to 0x17. -/
theorem number_range (r : SynReg) : r.number.toNat ≤ 0x06 ∨ (0x10 ≤ r.number.toNat ∧ r.number.toNat ≤ 0x17) := by
  cases r <;> decide

/-- A number from 0x10 to 0x17 is that of a register. -/
theorem exists_number_of_status {n : BitVec 8} (hlo : 0x10 ≤ n.toNat) (hhi : n.toNat ≤ 0x17) : ∃ r : SynReg, r.number = n := by
  have hall : ∀ m : BitVec 8, 0x10 ≤ m.toNat → m.toNat ≤ 0x17 → m ∈ SynReg.all.map SynReg.number := by decide
  obtain ⟨r, -, hr⟩ := List.mem_map.mp (hall n hlo hhi)
  exact ⟨r, hr⟩

/-! ### SYN.WREG -/

/-- A SYN.WREG is refused where the number is that of no register that takes the value. -/
theorem exec_synWreg_of_refused {n : BitVec 8} {v : BitVec 64} {s : State}
    (h : ∀ r : SynReg, r.number = n → r.write? v s.syn = none) :
    exec (.synWreg n v) s = .next { s with out := s.out ++ [reply 2 0 []] } := by
  rw [exec, execSynWreg]
  cases hn : SynReg.ofNumber? n with
  | none => rfl
  | some r =>
    dsimp only
    rw [h r (number_of_ofNumber? hn)]
    rfl

/-- Which writes are refused (10_state.md R41): a read-only register, and a value that does not fit. -/
theorem write?_eq_none {r : SynReg} {v : BitVec 64}
    (h : 6 < r.number.toNat ∨ (r.number.toNat ≤ 1 ∧ 2 ^ 16 ≤ v.toNat) ∨ (r.number.toNat = 2 ∧ 2 ^ 32 ≤ v.toNat)) (y : Syn) :
    r.write? v y = none := by
  cases r
  case stgChannels | stgBits | stgRate => exact if_neg (by simp [SynReg.number] at h; omega)
  case stgFreq | stgAmpl | stgDcoff | stgPhase => simp [SynReg.number] at h
  all_goals rfl

theorem setWidth_eq_extractLsb' (v : BitVec 64) (w : Nat) : v.setWidth w = v.extractLsb' 0 w :=
  BitVec.eq_of_toNat_eq (by simp)

/-- Settles O14: one accepted write for each staging register, and the refusals. -/
theorem synWregWritesStagingRegister : Obligations.SynWregWritesStagingRegister := by
  intro s n v
  refine ⟨?_, ?_, ?_, ?_, ?_, ?_, ?_, fun h => ?_⟩
  · rintro rfl hv
    exact exec_synWreg_of_write? (r := .stgChannels) (by rw [SynReg.write?, if_pos hv, setWidth_eq_extractLsb'])
  · rintro rfl hv
    exact exec_synWreg_of_write? (r := .stgBits) (by rw [SynReg.write?, if_pos hv, setWidth_eq_extractLsb'])
  · rintro rfl hv
    exact exec_synWreg_of_write? (r := .stgRate) (by rw [SynReg.write?, if_pos hv, setWidth_eq_extractLsb'])
  · rintro rfl
    exact exec_synWreg_of_write? (r := .stgFreq) rfl
  · rintro rfl
    exact exec_synWreg_of_write? (r := .stgAmpl) rfl
  · rintro rfl
    exact exec_synWreg_of_write? (r := .stgDcoff) rfl
  · rintro rfl
    exact exec_synWreg_of_write? (r := .stgPhase) rfl
  · refine exec_synWreg_of_refused ?_
    rintro r rfl
    exact write?_eq_none h s.syn

/-! ### SYN.RREG -/

theorem exec_synRreg_number (r : SynReg) (s : State) :
    exec (.synRreg r.number) s = .next { s with out := s.out ++ [reply 0 (r.read s.syn) []] } := by
  rw [exec, execSynRreg, SynReg.ofNumber?_number]
  rfl

/-- The same, by the value the contents column of R40 gives. -/
theorem exec_synRreg_of_read {r : SynReg} {s : State} {v : BitVec 64} (h : r.read s.syn = v) :
    exec (.synRreg r.number) s = .next { s with out := s.out ++ [reply 0 v []] } := by
  rw [exec_synRreg_number, h]

theorem exec_synRreg_of_reserved {n : BitVec 8} {s : State} (h : ∀ r : SynReg, r.number ≠ n) :
    exec (.synRreg n) s = .next { s with out := s.out ++ [reply 2 0 []] } := by
  rw [exec, execSynRreg]
  cases hn : SynReg.ofNumber? n with
  | none => rfl
  | some r => exact absurd (number_of_ofNumber? hn) (h r)

/-- The zero-extended word of a narrow register (20_memory.md R74). -/
theorem setWidth_eq_ofNat {w : Nat} (v : BitVec w) : v.setWidth 64 = BitVec.ofNat 64 v.toNat :=
  BitVec.eq_of_toNat_eq (by rw [BitVec.toNat_setWidth, BitVec.toNat_ofNat])

/-- ACT_FORMAT as a number: channels, depth and rate side by side. -/
theorem read_actFormat (y : Syn) :
    SynReg.actFormat.read y
      = BitVec.ofNat 64 (y.actChannels.toNat + y.actBits.toNat * 2 ^ 16 + y.actRate.toNat * 2 ^ 32) := by
  have hch := y.actChannels.isLt
  have hbits := y.actBits.isLt
  apply BitVec.eq_of_toNat_eq
  rw [SynReg.read, BitVec.toNat_append, BitVec.toNat_append, ← Nat.shiftLeft_add_eq_or_of_lt hch,
    ← Nat.shiftLeft_add_eq_or_of_lt (by rw [Nat.shiftLeft_eq]; omega), BitVec.toNat_ofNat, Nat.shiftLeft_eq, Nat.shiftLeft_eq]
  have hrate := y.actRate.isLt
  omega

/-- SYN_STATE as a number. -/
theorem read_synState (y : Syn) : SynReg.synState.read y = BitVec.ofNat 64 (y.ready.toNat + 2 * y.mute.toNat) := by
  rw [SynReg.read, Syn.stateWord]
  cases y.ready <;> cases y.mute <;> rfl

/-- The status registers but SYN_STATE read the zeros of 10_state.md R45 while SYN is not ready. -/
theorem read_of_idleInv {y : Syn} (h : y.IdleInv) {r : SynReg} (hr : 0x10 ≤ r.number.toNat) (hs : r.number ≠ 0x12) :
    r.read y = 0 := by
  obtain ⟨hch, hbits, hrate, hframe, hampl, hdc, hθ, hinc, hcarry⟩ := h
  cases r
  case stgChannels | stgBits | stgRate | stgFreq | stgAmpl | stgDcoff | stgPhase => simp [SynReg.number] at hr
  case synState => exact absurd rfl hs
  case actFormat => rw [SynReg.read, hch, hbits, hrate]; rfl
  case actFrame => rw [SynReg.read, hframe]; rfl
  case theta => exact hθ
  case inc => exact hinc
  case carryCount => rw [SynReg.read, hcarry]; rfl
  case actAmpl => exact hampl
  case actDcoff => exact hdc

/-- Settles O15: the contents of each register, the zeros of an idle synthesizer, and the reserved numbers. -/
theorem synRregReadsRegister : Obligations.SynRregReadsRegister := by
  intro s n reads
  have row : ∀ (r : SynReg) (v : BitVec 64), r.read s.syn = v → n = r.number → reads v := by
    rintro r v hv rfl
    exact exec_synRreg_of_read hv
  refine ⟨row .stgChannels _ (setWidth_eq_ofNat _), row .stgBits _ (setWidth_eq_ofNat _),
    row .stgRate _ (setWidth_eq_ofNat _), row .stgFreq _ rfl, row .stgAmpl _ rfl, row .stgDcoff _ rfl, row .stgPhase _ rfl,
    row .actFormat _ (read_actFormat _), row .actFrame _ (setWidth_eq_ofNat _), row .synState _ (read_synState _),
    row .theta _ rfl, row .inc _ rfl, row .carryCount _ rfl, row .actAmpl _ rfl, row .actDcoff _ rfl, ?_, ?_⟩
  · intro hi hr hlo hhi hs
    obtain ⟨-, -, -, hsyn, -, -⟩ := hi
    obtain ⟨r, rfl⟩ := exists_number_of_status hlo hhi
    exact row r 0 (read_of_idleInv (hsyn.2 hr) hlo hs) rfl
  · intro hn
    refine exec_synRreg_of_reserved ?_
    rintro r rfl
    exact hn (number_range r)

end Sys2Proof.Proofs
end

section
/-! PROOFS. The commands of the family 41_channel.md: for each CH command and the write-progress step what it answers on a given
channel (R151 to R172), the status by channel state (R175), and what takes a channel out of OPEN (R178, R224). -/

namespace Sys2Proof.Proofs

open Sys2Proof Sys2Proof.Machine

/-! ### The pin check -/

/-- Every CH command is the pin check and then its own rule (R151). -/
theorem exec_eq_withPin {i : Instr} {pin : BitVec 8} (hw : i.WellFormed) (hi : pinOf i = some pin) (s : State) :
    ∃ k, exec i s = withPin pin s k := by
  cases i with
  | chCreate p b => obtain rfl := Option.some.inj hi; exact ⟨_, by rw [exec, execChCreate]⟩
  | chWrite p len payload =>
    obtain rfl := Option.some.inj hi
    exact ⟨_, by rw [exec, execChWrite, if_neg (not_not.mpr (eq_of_beq hw))]⟩
  | chClosep p => obtain rfl := Option.some.inj hi; exact ⟨_, by rw [exec, execChClosep]⟩
  | chRead p len => obtain rfl := Option.some.inj hi; exact ⟨_, by rw [exec, execChRead]⟩
  | chClosec p => obtain rfl := Option.some.inj hi; exact ⟨_, by rw [exec, execChClosec]⟩
  | synInit | synGen _ | synWreg _ _ | synRreg _ | cqOpen | cqClose | cqInfo _ | cqStatus _ | cqMute _ => cases hi

/-- Settles O31: the pin check comes first, and the pin does not exist. -/
theorem pinOutOfRangeIsInvalidArgument : Obligations.PinOutOfRangeIsInvalidArgument := by
  intro s i pin hw hi hle
  obtain ⟨k, hk⟩ := exec_eq_withPin hw hi s
  rw [hk, withPin_of_le hle]
  rfl

/-- The same, by the channel that is not there. -/
theorem exec_of_getElem?_none {s : State} {i : Instr} {pin : BitVec 8} (hw : i.WellFormed) (hi : pinOf i = some pin)
    (hc : s.channels[pin.toNat]? = none) : exec i s = .next { s with out := s.out ++ [reply 2 0 []] } :=
  pinOutOfRangeIsInvalidArgument s i pin hw hi (List.getElem?_eq_none_iff.mp hc)

/-! ### CH.CREATE -/

section

variable {s : State} {pin : BitVec 8} {c : Channel}

theorem exec_chCreate_of_idle {b : Bool} (hc : s.channels[pin.toNat]? = some c) (hs : c.state = .idle) :
    exec (.chCreate pin b) s =
      .next { s with channels := s.channels.set pin.toNat (Channel.newSession b), out := s.out ++ [reply 0 0 []] } := by
  rw [exec, execChCreate, withPin_of_getElem? hc, if_neg (not_not.mpr hs)]
  rfl

theorem exec_chCreate_of_ne_idle {b : Bool} (hc : s.channels[pin.toNat]? = some c) (hs : c.state ≠ .idle) :
    exec (.chCreate pin b) s = .next { s with out := s.out ++ [reply 3 0 []] } := by
  rw [exec, execChCreate, withPin_of_getElem? hc, if_pos hs]
  rfl

/-! ### CH.WRITE -/

/-- CH.WRITE on a pin where no write waits: the checks of R155 that are left, and then the mode of the channel. -/
theorem exec_chWrite_of_pend_none {len : BitVec 32} {payload : List Byte} (hlen : payload.length = len.toNat)
    (hc : s.channels[pin.toNat]? = some c) (hn : c.pend = none) :
    exec (.chWrite pin len payload) s =
      if c.state ≠ .opened then raise .channelClosed s
      else if len = 0 then respond .ok 0 [] s
      else if c.blocking then blockingWrite pin payload c s
      else nonBlockingWrite pin payload c s := by
  rw [exec, execChWrite, if_neg (not_not.mpr hlen), withPin_of_getElem? hc, if_neg (by simp [hn])]

theorem exec_chWrite_of_not_opened {len : BitVec 32} {payload : List Byte} (hlen : payload.length = len.toNat)
    (hc : s.channels[pin.toNat]? = some c) (hn : c.pend = none) (hs : c.state ≠ .opened) :
    exec (.chWrite pin len payload) s = .next { s with out := s.out ++ [reply 5 0 []] } := by
  rw [exec_chWrite_of_pend_none hlen hc hn, if_pos hs]
  rfl

theorem exec_chWrite_of_zero {payload : List Byte} (hlen : payload.length = (0 : BitVec 32).toNat)
    (hc : s.channels[pin.toNat]? = some c) (hn : c.pend = none) (hs : c.state = .opened) :
    exec (.chWrite pin 0 payload) s = .next { s with out := s.out ++ [reply 0 0 []] } := by
  rw [exec_chWrite_of_pend_none hlen hc hn, if_neg (not_not.mpr hs), if_pos rfl]
  rfl

/-- A write of bytes that all fit, in either mode and for a LEN of 0 too: they are enqueued and the write is answered. -/
theorem exec_chWrite_of_fits {len : BitVec 32} {payload : List Byte} (hlen : payload.length = len.toNat)
    (hc : s.channels[pin.toNat]? = some c) (hn : c.pend = none) (hs : c.state = .opened)
    (hfit : payload.length ≤ s.cfg.fifoCapacity - c.buf.length) :
    exec (.chWrite pin len payload) s =
      .next
        { s with
          channels := s.channels.set pin.toNat { c with buf := c.buf ++ payload }
          out := s.out ++ [reply 0 (BitVec.ofNat 64 payload.length) []] } := by
  rcases eq_or_ne len 0 with rfl | h0
  · obtain rfl : payload = [] := List.length_eq_zero_iff.mp hlen
    have hself : s.channels.set pin.toNat c = s.channels := by
      rw [← State.channel_of_getElem? hc, State.set_channel_self]
    rw [exec_chWrite_of_zero hlen hc hn hs, List.append_nil, hself]
    rfl
  rw [exec_chWrite_of_pend_none hlen hc hn, if_neg (not_not.mpr hs), if_neg h0]
  split
  · rw [blockingWrite, State.free, min_eq_left hfit, if_pos rfl, List.take_length]
    rfl
  · rw [nonBlockingWrite, State.free, if_neg (not_lt.mpr hfit)]
    rfl

/-- A write of more bytes than fit has bytes. -/
theorem ne_zero_of_lt_length {len : BitVec 32} {payload : List Byte} {n : Nat} (hlen : payload.length = len.toNat)
    (hfull : n < payload.length) : len ≠ 0 := by
  rintro rfl
  rw [hlen] at hfull
  exact absurd hfull (Nat.not_lt_zero n)

theorem exec_chWrite_of_full_nonBlocking {len : BitVec 32} {payload : List Byte} (hlen : payload.length = len.toNat)
    (hc : s.channels[pin.toNat]? = some c) (hn : c.pend = none) (hs : c.state = .opened) (hb : c.blocking = false)
    (hfull : s.cfg.fifoCapacity - c.buf.length < payload.length) :
    exec (.chWrite pin len payload) s = .next { s with out := s.out ++ [reply 4 0 []] } := by
  rw [exec_chWrite_of_pend_none hlen hc hn, if_neg (not_not.mpr hs), if_neg (ne_zero_of_lt_length hlen hfull),
    if_neg (by simp [hb]), nonBlockingWrite, State.free, if_pos hfull]
  rfl

theorem exec_chWrite_of_full_blocking {len : BitVec 32} {payload : List Byte} (hlen : payload.length = len.toNat)
    (hc : s.channels[pin.toNat]? = some c) (hn : c.pend = none) (hs : c.state = .opened) (hb : c.blocking = true)
    (hfull : s.cfg.fifoCapacity - c.buf.length < payload.length) :
    exec (.chWrite pin len payload) s =
      .next
        { s with
          channels := s.channels.set pin.toNat
            { c with
              buf := c.buf ++ payload.take (s.cfg.fifoCapacity - c.buf.length)
              pend := some
                { rest := payload.drop (s.cfg.fifoCapacity - c.buf.length), done := s.cfg.fifoCapacity - c.buf.length } } } := by
  rw [exec_chWrite_of_pend_none hlen hc hn, if_neg (not_not.mpr hs), if_neg (ne_zero_of_lt_length hlen hfull), if_pos hb,
    blockingWrite, State.free, min_eq_right hfull.le, if_neg hfull.ne]
  rfl

/-! ### CH.READ -/

theorem exec_chRead_of_opened {len : BitVec 32} (hc : s.channels[pin.toNat]? = some c) (hs : c.state = .opened) :
    exec (.chRead pin len) s =
      .next
        { s with
          channels := s.channels.set pin.toNat { c with buf := c.buf.drop len.toNat }
          out := s.out ++ [reply 0 (BitVec.ofNat 64 (min len.toNat c.buf.length)) (c.buf.take len.toNat)] } := by
  have htake : c.buf.take (min len.toNat c.buf.length) = c.buf.take len.toNat := (List.take_eq_take_min ..).symm
  have hdrop : c.buf.drop (min len.toNat c.buf.length) = c.buf.drop len.toNat := (List.drop_eq_drop_min ..).symm
  rw [exec, execChRead, withPin_of_getElem? hc, if_neg (not_not.mpr hs)]
  dsimp only
  rw [htake, hdrop]
  rfl

theorem exec_chRead_of_not_opened {len : BitVec 32} (hc : s.channels[pin.toNat]? = some c) (hs : c.state ≠ .opened) :
    exec (.chRead pin len) s = .next { s with out := s.out ++ [reply 5 0 []] } := by
  rw [exec, execChRead, withPin_of_getElem? hc, if_pos hs]
  rfl

/-! ### The closes -/

/-- A channel as CH.CLOSEC leaves it (R172). -/
def brokenOff (c : Channel) : Channel := { state := .broken, buf := [], blocking := c.blocking, pend := none }

/-- The responses of a close that succeeds: that of the write that waited (R174), and its own. -/
def closeReplies (pin : BitVec 8) (c : Channel) : List Response :=
  (c.pend.map fun w => waiterReply pin 5 (BitVec.ofNat 64 w.done)).toList ++ [reply 0 0 []]

theorem closeReplies_of_none (hn : c.pend = none) : closeReplies pin c = [reply 0 0 []] := by
  rw [closeReplies, hn]; rfl

theorem closeReplies_of_some {w : Pending} (hw : c.pend = some w) :
    closeReplies pin c = [waiterReply pin 5 (BitVec.ofNat 64 w.done), reply 0 0 []] := by
  rw [closeReplies, hw]; rfl

/-- The end of a session, the channel written and the close's own answer, in one step. -/
theorem respond_endSession_setChannel (hc : s.channels[pin.toNat]? = some c) (d : Channel) :
    respond .ok 0 [] ((endSession pin s).setChannel pin d) =
      .next { s with channels := s.channels.set pin.toNat d, out := s.out ++ closeReplies pin c } := by
  rw [endSession_setChannel, State.channel_of_getElem? hc, closeReplies, ← List.append_assoc]
  rfl

theorem exec_chClosep_of_idle (hc : s.channels[pin.toNat]? = some c) (hs : c.state = .idle) :
    exec (.chClosep pin) s = .next { s with out := s.out ++ [reply 5 0 []] } := by
  rw [exec, execChClosep, withPin_of_getElem? hc, if_pos hs]
  rfl

theorem exec_chClosep_of_ne_idle (hc : s.channels[pin.toNat]? = some c) (hs : c.state ≠ .idle) :
    exec (.chClosep pin) s =
      .next { s with channels := s.channels.set pin.toNat Channel.reset, out := s.out ++ closeReplies pin c } := by
  have hp : pin.toNat < s.numPins := (List.getElem?_eq_some_iff.mp hc).1
  rw [exec, execChClosep, withPin_of_getElem? hc, if_neg hs]
  dsimp only
  rw [endSession_channel hp]
  exact respond_endSession_setChannel hc _

theorem exec_chClosec_of_not_opened (hc : s.channels[pin.toNat]? = some c) (hs : c.state ≠ .opened) :
    exec (.chClosec pin) s = .next { s with out := s.out ++ [reply 5 0 []] } := by
  rw [exec, execChClosec, withPin_of_getElem? hc, if_pos hs]
  rfl

theorem exec_chClosec_of_opened (hc : s.channels[pin.toNat]? = some c) (hs : c.state = .opened) :
    exec (.chClosec pin) s =
      .next { s with channels := s.channels.set pin.toNat (brokenOff c), out := s.out ++ closeReplies pin c } := by
  have hp : pin.toNat < s.numPins := (List.getElem?_eq_some_iff.mp hc).1
  rw [exec, execChClosec, withPin_of_getElem? hc, if_neg (not_not.mpr hs)]
  dsimp only
  rw [endSession_channel hp, State.channel_of_getElem? hc]
  exact respond_endSession_setChannel hc _

/-! ### The write-progress step -/

/-- An enabled progress step: the bytes left all fit and the write completes (R163 (a)), or the buffer is filled and the write
waits on (R164). -/
theorem runProgress_of_pend {w : Pending} (hc : s.channels[pin.toNat]? = some c) (hw : c.pend = some w)
    (hlt : c.buf.length < s.cfg.fifoCapacity) :
    (w.rest.length ≤ s.cfg.fifoCapacity - c.buf.length →
        runProgress pin s =
          .next
            { s with
              channels := s.channels.set pin.toNat { c with buf := c.buf ++ w.rest, pend := none }
              out := s.out ++ [waiterReply pin 0 (BitVec.ofNat 64 (w.done + w.rest.length))] })
      ∧ (s.cfg.fifoCapacity - c.buf.length < w.rest.length →
        runProgress pin s =
          .next
            { s with
              channels := s.channels.set pin.toNat
                { c with
                  buf := c.buf ++ w.rest.take (s.cfg.fifoCapacity - c.buf.length)
                  pend := some
                    { rest := w.rest.drop (s.cfg.fifoCapacity - c.buf.length)
                      done := w.done + (s.cfg.fifoCapacity - c.buf.length) } } }) := by
  obtain rfl := State.channel_of_getElem? hc
  have he : s.progressEnabled pin = true := progressEnabled_of_pend (by rw [hw]; exact Option.some_ne_none w) hlt
  obtain ⟨t, ht⟩ := runProgress_proceeds pin s
  rcases runProgress_eq_next ht with ⟨hno, -⟩ | ⟨v, -, hv, h⟩
  · rw [he] at hno; cases hno
  obtain rfl : w = v := Option.some.inj (hw.symm.trans hv)
  rcases h with ⟨hfit, rfl⟩ | ⟨hfull, rfl⟩
  · exact ⟨fun _ => ht, fun hfull => absurd hfit (not_le.mpr hfull)⟩
  · exact ⟨fun hfit => absurd hfit (not_le.mpr hfull), fun _ => ht⟩

/-- Where no write waits the progress step is not enabled, and its event does nothing. -/
theorem runProgress_of_pend_none (hn : (s.channel pin).pend = none) : runProgress pin s = .next s := by
  rw [runProgress, if_pos (by simp [State.progressEnabled, hn])]

end

/-! ### The rules of the commands -/

/-- Settles O32: an IDLE channel, one that is not IDLE, and a pin that does not exist. -/
theorem chCreateOpensIdleChannel : Obligations.ChCreateOpensIdleChannel := fun _ _ _ =>
  ⟨fun _ => exec_chCreate_of_idle, fun _ => exec_chCreate_of_ne_idle, exec_of_getElem?_none rfl rfl⟩

/-- Settles O33: the two checks of CH.WRITE after the hold. -/
theorem chWriteOnClosedChannelAndZeroLength : Obligations.ChWriteOnClosedChannelAndZeroLength := by
  refine fun s pin len payload c hlen hc hn => ⟨exec_chWrite_of_not_opened hlen hc hn, ?_⟩
  rintro hs rfl
  exact exec_chWrite_of_zero hlen hc hn hs

/-- Settles O34: bytes that do not all fit, and bytes that do. -/
theorem chWriteNonBlockingIsAllOrNothing : Obligations.ChWriteNonBlockingIsAllOrNothing := by
  intro s pin len payload c hlen hc hn hs hb
  rw [← hlen]
  exact ⟨exec_chWrite_of_full_nonBlocking hlen hc hn hs hb, exec_chWrite_of_fits hlen hc hn hs⟩

/-- Settles O35: the smaller of LEN and the free space is LEN where all bytes fit, and the free space where not. -/
theorem chWriteBlockingEnqueuesWhatFits : Obligations.ChWriteBlockingEnqueuesWhatFits := by
  intro s pin len payload c hlen hc hn hs hb
  rw [← hlen]
  refine ⟨fun hk => exec_chWrite_of_fits hlen hc hn hs (min_eq_left_iff.mp hk), fun hk => ?_⟩
  have hfull : s.cfg.fifoCapacity - c.buf.length < payload.length := by simpa using hk
  rw [min_eq_right hfull.le]
  exact exec_chWrite_of_full_blocking hlen hc hn hs hb hfull

/-- Settles O37: the step is the progress event, in the state without it. -/
theorem writeProgressEnqueuesAndCompletes : Obligations.WriteProgressEnqueuesAndCompletes := by
  intro s pin rest c w hin hc hw hlt free
  rw [step_cons hin]
  exact runProgress_of_pend (s := { s with inbox := rest }) hc hw hlt

/-- Settles O38: the log has the response of the waiting write, where there is one, before that of the close. -/
theorem chClosepReleasesChannel : Obligations.ChClosepReleasesChannel := by
  intro s pin released
  refine ⟨exec_of_getElem?_none rfl rfl, fun c => exec_chClosep_of_idle, fun c hc hs hn => ?_, fun c w hc hs hw =>
    ⟨closeReplies pin c, by rw [closeReplies_of_some hw], exec_chClosep_of_ne_idle hc hs⟩⟩
  rw [← closeReplies_of_none hn]
  exact exec_chClosep_of_ne_idle hc hs

/-- Settles O39: an OPEN channel, one that is not OPEN, and a pin that does not exist. -/
theorem chReadDrainsOldestBytes : Obligations.ChReadDrainsOldestBytes := fun _ _ _ =>
  ⟨exec_of_getElem?_none rfl rfl, fun _ => exec_chRead_of_not_opened, fun _ => exec_chRead_of_opened⟩

/-- Settles O40: the log has the response of the waiting write, where there is one, before that of the close. -/
theorem chClosecBreaksChannel : Obligations.ChClosecBreaksChannel := by
  intro s pin broken
  refine ⟨exec_of_getElem?_none rfl rfl, fun c => exec_chClosec_of_not_opened, fun c hc hs hn => ?_, fun c w hc hs hw =>
    ⟨closeReplies pin c, by rw [closeReplies_of_some hw], exec_chClosec_of_opened hc hs⟩⟩
  rw [← closeReplies_of_none hn]
  exact exec_chClosec_of_opened hc hs

/-! ### The status by channel state -/

/-- A command that gives one response and leaves the channel of the pin in the state named. -/
theorem answers_of_exec {i : Instr} {s t : State} {pin : BitVec 8} {d : Channel} {after : ChannelState} {code : BitVec 32}
    {r : BitVec 64} {p : List Byte} (h : exec i s = .next t) (hout : t.out = s.out ++ [reply code r p])
    (hd : t.channels[pin.toNat]? = some d) (hs : d.state = after) : Answers i s pin code after :=
  ⟨t, reply code r p, h, by rw [newResponses, hout, List.drop_left], rfl, by rw [hd, Option.map_some, hs]⟩

theorem getElem?_set_channel {s : State} {pin : BitVec 8} {c : Channel} (hc : s.channels[pin.toNat]? = some c)
    (d : Channel) : (s.channels.set pin.toNat d)[pin.toNat]? = some d :=
  List.getElem?_set_self (List.getElem?_eq_some_iff.mp hc).1

section

variable {s : State} {pin : BitVec 8} {c : Channel} {st : ChannelState}

theorem answers_chCreate_of_ne_idle {b : Bool} (hc : s.channels[pin.toNat]? = some c) (hs : c.state = st)
    (hne : st ≠ .idle) : Answers (.chCreate pin b) s pin 3 st :=
  answers_of_exec (exec_chCreate_of_ne_idle hc (hs ▸ hne)) rfl hc hs

theorem answers_chWrite_of_not_opened {len : BitVec 32} {payload : List Byte} (hlen : payload.length = len.toNat)
    (hc : s.channels[pin.toNat]? = some c) (hn : c.pend = none) (hs : c.state = st) (hne : st ≠ .opened) :
    Answers (.chWrite pin len payload) s pin 5 st :=
  answers_of_exec (exec_chWrite_of_not_opened hlen hc hn (hs ▸ hne)) rfl hc hs

theorem answers_chRead_of_not_opened {len : BitVec 32} (hc : s.channels[pin.toNat]? = some c) (hs : c.state = st)
    (hne : st ≠ .opened) : Answers (.chRead pin len) s pin 5 st :=
  answers_of_exec (exec_chRead_of_not_opened hc (hs ▸ hne)) rfl hc hs

theorem answers_chClosec_of_not_opened (hc : s.channels[pin.toNat]? = some c) (hs : c.state = st) (hne : st ≠ .opened) :
    Answers (.chClosec pin) s pin 5 st :=
  answers_of_exec (exec_chClosec_of_not_opened hc (hs ▸ hne)) rfl hc hs

theorem answers_chClosep_of_ne_idle (hc : s.channels[pin.toNat]? = some c) (hn : c.pend = none) (hne : c.state ≠ .idle) :
    Answers (.chClosep pin) s pin 0 .idle :=
  answers_of_exec (exec_chClosep_of_ne_idle hc hne) (by rw [closeReplies_of_none hn]) (getElem?_set_channel hc _) rfl

/-- CH.WRITE on an OPEN channel: OK where all bytes fit, and where not WOULD_BLOCK or a wait, by the mode of the channel. -/
theorem chWrite_outcomes_of_opened {len : BitVec 32} {payload : List Byte} (hlen : payload.length = len.toNat)
    (hc : s.channels[pin.toNat]? = some c) (hn : c.pend = none) (hs : c.state = .opened) :
    Answers (.chWrite pin len payload) s pin 0 .opened ∨ Answers (.chWrite pin len payload) s pin 4 .opened
      ∨ ∃ t w, exec (.chWrite pin len payload) s = .next t ∧ newResponses s t = []
          ∧ t.channels[pin.toNat]?.bind Channel.pend = some w := by
  rcases le_or_gt payload.length (s.cfg.fifoCapacity - c.buf.length) with hfit | hfull
  · exact .inl (answers_of_exec (exec_chWrite_of_fits hlen hc hn hs hfit) rfl (getElem?_set_channel hc _) hs)
  cases hb : c.blocking with
  | false => exact .inr (.inl (answers_of_exec (exec_chWrite_of_full_nonBlocking hlen hc hn hs hb hfull) rfl hc hs))
  | true =>
    exact .inr (.inr ⟨_, _, exec_chWrite_of_full_blocking hlen hc hn hs hb hfull, List.drop_length,
      Option.bind_eq_some_iff.mpr ⟨_, getElem?_set_channel hc _, rfl⟩⟩)

end

/-- Settles O41: the cells of the table, state by state. -/
theorem statusByChannelState : Obligations.StatusByChannelState := by
  intro s pin c b len payload hc hn hlen
  refine ⟨fun hs => ?_, fun hs => ?_, fun hs => ?_⟩
  · have hne : ChannelState.idle ≠ .opened := by decide
    exact ⟨answers_of_exec (exec_chCreate_of_idle hc hs) rfl (getElem?_set_channel hc _) rfl,
      answers_chWrite_of_not_opened hlen hc hn hs hne, answers_of_exec (exec_chClosep_of_idle hc hs) rfl hc hs,
      answers_chRead_of_not_opened hc hs hne, answers_chClosec_of_not_opened hc hs hne⟩
  · have hne : ChannelState.opened ≠ .idle := by decide
    exact ⟨answers_chCreate_of_ne_idle hc hs hne, chWrite_outcomes_of_opened hlen hc hn hs,
      answers_chClosep_of_ne_idle hc hn (hs ▸ hne),
      answers_of_exec (exec_chRead_of_opened hc hs) rfl (getElem?_set_channel hc _) hs,
      answers_of_exec (exec_chClosec_of_opened hc hs) (by rw [closeReplies_of_none hn]) (getElem?_set_channel hc _) rfl⟩
  · have hidle : ChannelState.broken ≠ .idle := by decide
    have hne : ChannelState.broken ≠ .opened := by decide
    exact ⟨answers_chCreate_of_ne_idle hc hs hidle, answers_chWrite_of_not_opened hlen hc hn hs hne,
      answers_chClosep_of_ne_idle hc hn (hs ▸ hidle), answers_chRead_of_not_opened hc hs hne,
      answers_chClosec_of_not_opened hc hs hne⟩

/-! ### Leaving OPEN -/

/-- A command that takes the channel of a pin out of OPEN is one of its closes. -/
theorem eq_close_of_leaves_opened {i : Instr} {s t : State} {pin : BitVec 8} (h : exec i s = .next t)
    (hs : (s.channel pin).state = .opened) (ht : (t.channel pin).state ≠ .opened) :
    i = .chClosep pin ∨ i = .chClosec pin := by
  have hp : pinOf i = some pin := by
    by_contra hne
    rw [exec_channel_of_other_pin h hne] at ht
    exact ht hs
  rcases exec_effect h with ⟨hnone, -⟩ | ⟨q, hq, he⟩
  · rw [hnone] at hp; cases hp
  obtain rfl : q = pin := Option.some.inj (hq.symm.trans hp)
  obtain ⟨c, hm, hc⟩ := he.move
  rw [State.channel_of_set (State.lt_numPins_of_opened hs) hc] at ht
  cases hm with
  | keep => exact absurd hs ht
  | create hidle => rw [hs] at hidle; cases hidle
  | enqueue => exact absurd hs ht
  | wait => exact absurd hs ht
  | release => exact .inl (congrArg _ (Option.some.inj hp))
  | read => exact absurd hs ht
  | breakOff => exact .inr (congrArg _ (Option.some.inj hp))

/-- A write-progress step opens and closes no channel. -/
theorem runProgress_state {q pin : BitVec 8} {s t : State} (h : runProgress q s = .next t) :
    (t.channel pin).state = (s.channel pin).state := by
  rcases runProgress_eq_next h with ⟨-, rfl⟩ | ⟨w, -, hw, h⟩
  · rfl
  have hp := State.lt_numPins_of_pend hw
  by_cases hq : q = pin
  · subst hq
    rcases h with ⟨-, rfl⟩ | ⟨-, rfl⟩
    · rw [State.channel_of_set hp rfl]
    · rw [State.channel_of_set hp rfl]
  · rcases h with ⟨-, rfl⟩ | ⟨-, rfl⟩
    · rw [State.channel_of_set_ne hq rfl]
    · rw [State.channel_of_set_ne hq rfl]

/-- Of the events that are no reset only a close takes the channel of a waiting write out of OPEN. -/
theorem exec_close_of_leaves_opened {e : Event} {s t : State} {pin : BitVec 8} (h : runEvent e s = .next t)
    (hne : ∀ spk mic, e ≠ .reset spk mic) (hs : (s.channel pin).state = .opened) (hw : (s.channel pin).pend ≠ none)
    (ht : (t.channel pin).state ≠ .opened) : ∃ i, exec i s = .next t ∧ (i = .chClosep pin ∨ i = .chClosec pin) := by
  rcases runEvent_cases h with ⟨_, i, rfl, -, h⟩ | ⟨_, _, rfl, -, rfl⟩ | ⟨q, rfl, h⟩ | ⟨k, w, rfl, -, -, h⟩ |
    ⟨k, rfl, rfl, -⟩ | ⟨spk, mic, rfl, rfl⟩ | ⟨spk, mic, rfl, -⟩
  · exact ⟨i, h, eq_close_of_leaves_opened h hs ht⟩
  · exact absurd hs ht
  · rw [runProgress_state h] at ht
    exact absurd hs ht
  · rw [execChWrite_channel (s := { s with held := s.held.eraseIdx k }) h hw] at ht
    exact absurd hs ht
  · exact absurd hs ht
  · exact absurd hs ht
  · exact absurd rfl (hne spk mic)

/-- A close of an OPEN channel, of either kind: the channel it leaves, where no write waits, and the responses. -/
theorem exec_close {i : Instr} {s : State} {pin : BitVec 8} {c after : Channel} (hc : s.channels[pin.toNat]? = some c)
    (hs : c.state = .opened)
    (hi : (i = .chClosep pin ∧ after = Channel.reset) ∨ (i = .chClosec pin ∧ after = brokenOff c)) :
    exec i s = .next { s with channels := s.channels.set pin.toNat after, out := s.out ++ closeReplies pin c } := by
  rcases hi with ⟨rfl, rfl⟩ | ⟨rfl, rfl⟩
  · exact exec_chClosep_of_ne_idle hc (by rw [hs]; exact ChannelState.noConfusion)
  · exact exec_chClosec_of_opened hc hs

/-- Settles O42: the step is a close, which answers the waiting write and leaves none. -/
theorem leavingOpenCompletesTheWaitingWrite : Obligations.LeavingOpenCompletesTheWaitingWrite := by
  intro s t e pin w hi h hne hw ht
  have hs : (s.channel pin).state = .opened := State.Inv.opened_of_pend hi hw
  have hp := State.lt_numPins_of_pend hw
  obtain ⟨i, h, hclose⟩ := exec_close_of_leaves_opened h hne hs (by rw [hw]; exact Option.some_ne_none w) ht
  have closed : ∀ after : Channel, after.pend = none →
      (i = .chClosep pin ∧ after = Channel.reset) ∨ (i = .chClosec pin ∧ after = brokenOff (s.channel pin)) →
      waiterReply pin 5 (BitVec.ofNat 64 w.done) ∈ newResponses s t ∧ (t.channel pin).pend = none := by
    intro after hn ha
    obtain rfl := Host.Outcome.next.inj (h.symm.trans (exec_close (State.getElem?_channel hp) hs ha))
    rw [newResponses, List.drop_left, closeReplies_of_some hw, State.channel_of_set hp rfl]
    exact ⟨List.mem_cons_self, hn⟩
  rcases hclose with hi | hi
  · exact closed _ rfl (.inl ⟨hi, rfl⟩)
  · exact closed _ rfl (.inr ⟨hi, rfl⟩)

/-! ### A close and a progress step -/

theorem runAll_pair {e f : Event} {s u t : State} (he : runEvent e s = .next u) (hf : runEvent f u = .next t) :
    runAll [e, f] s = .next t := by
  simp only [runAll, he, hf]

/-- Settles O44: each of the two events on the channel that the other one left. -/
theorem closeAndProgressRaceBothWays : Obligations.CloseAndProgressRaceBothWays := by
  intro s pin c w i after hc hs hw hlt hfit hi
  have hp : pin.toNat < s.channels.length := (List.getElem?_eq_some_iff.mp hc).1
  have hclose : ∀ u, runEvent (.command (encode i)) u = exec i u := by
    refine runEvent_command (decodeOfEncode i ?_)
    rcases hi with ⟨rfl, -⟩ | ⟨rfl, -⟩
    · rfl
    · rfl
  have hn : after.pend = none := by
    rcases hi with ⟨-, rfl⟩ | ⟨-, rfl⟩
    · rfl
    · rfl
  constructor
  · refine runAll_pair ((runProgress_of_pend hc hw hlt).1 hfit) ?_
    rw [hclose, exec_close (c := { c with buf := c.buf ++ w.rest, pend := none }) (getElem?_set_channel hc _) hs hi,
      closeReplies_of_none rfl, List.set_set, List.append_assoc]
    rfl
  · refine ⟨closeReplies pin c, by rw [closeReplies_of_some hw], runAll_pair ((hclose s).trans (exec_close hc hs hi)) ?_⟩
    exact runProgress_of_pend_none (by rw [State.channel_of_set hp rfl, hn])

end Sys2Proof.Proofs
end

section
/-! PROOFS. The waiting write of the family 41_channel.md: in a weakly fair run it completes (R164, 70_reset_and_hazards.md
R263). -/

namespace Sys2Proof.Proofs

open Sys2Proof Sys2Proof.Machine

/-! ### A write that waits over several turns -/

/-- From turn `n` to turn `k` of a run a write waits on the pin: `w` in the first, `w'` in the last, of as many bytes in all and no
fewer of them enqueued. -/
structure WaitsThrough (st : Nat → State) (pin : BitVec 8) (n k : Nat) (w w' : Pending) : Prop where
  le : n ≤ k
  waits : ∀ j, n ≤ j → j ≤ k → ((st j).channel pin).pend ≠ none
  pending : ((st k).channel pin).pend = some w'
  total : w'.done + w'.rest.length = w.done + w.rest.length
  grows : w.done ≤ w'.done

theorem WaitsThrough.refl {st : Nat → State} {pin : BitVec 8} {n : Nat} {w : Pending}
    (hw : ((st n).channel pin).pend = some w) : WaitsThrough st pin n n w w where
  le := le_rfl
  waits j h1 h2 := by rw [le_antisymm h2 h1, hw]; exact Option.some_ne_none w
  pending := hw
  total := rfl
  grows := le_rfl

theorem WaitsThrough.trans {st : Nat → State} {pin : BitVec 8} {n k m : Nat} {w w' w'' : Pending}
    (h : WaitsThrough st pin n k w w') (h' : WaitsThrough st pin k m w' w'') : WaitsThrough st pin n m w w'' where
  le := h.le.trans h'.le
  waits j h1 h2 := (le_total j k).elim (h.waits j h1) fun hk => h'.waits j hk h2
  pending := h'.pending
  total := h'.total.trans h.total
  grows := h.grows.trans h'.grows

/-- A turn that leaves the write waiting. -/
theorem WaitsThrough.of_stillWaits {e : Event} {st : Nat → State} {pin : BitVec 8} {n : Nat} {w : Pending}
    (hw : ((st n).channel pin).pend = some w) (h : StillWaits e pin w (st n) (st (n + 1))) :
    ∃ w', WaitsThrough st pin n (n + 1) w w'
      ∧ (e = .progress pin → (st n).progressEnabled pin = true → w.done < w'.done) := by
  obtain ⟨w', hw', htotal, hgrows, hprogress⟩ := h.pending
  refine ⟨w', ⟨Nat.le_succ n, fun j h1 h2 => ?_, hw', htotal, hgrows⟩, hprogress⟩
  rcases Nat.le_succ_iff.mp h2 with h2 | rfl
  · rw [le_antisymm h2 h1, hw]; exact Option.some_ne_none w
  · rw [hw']; exact Option.some_ne_none w'

/-- The write that waits in turn `n` waits up to some turn, which ends the wait. -/
def EventuallyEnds (st : Nat → State) (pin : BitVec 8) (n : Nat) (w : Pending) : Prop :=
  ∃ m w', WaitsThrough st pin n m w w' ∧ WaitEnds pin w' (st m) (st (m + 1))

theorem EventuallyEnds.of_waitsThrough {st : Nat → State} {pin : BitVec 8} {n k : Nat} {w w' : Pending}
    (h : WaitsThrough st pin n k w w') (h' : EventuallyEnds st pin k w') : EventuallyEnds st pin n w := by
  obtain ⟨m, v, hv, hends⟩ := h'
  exact ⟨m, v, h.trans hv, hends⟩

/-! ### One turn of a run -/

section

variable {st : Nat → State} {ev : Nat → Event} {pin : BitVec 8} {n : Nat} {w : Pending}

theorem IsRun.runEvent (hrun : IsRun st ev) (n : Nat) : runEvent (ev n) { st n with inbox := [] } = .next (st (n + 1)) := by
  rw [← step_cons (s := { st n with inbox := [ev n] }) rfl]
  exact hrun n

theorem IsRun.inv (hrun : IsRun st ev) (hi : (st 0).Inv) (n : Nat) : (st n).Inv := by
  induction n with
  | zero => exact hi
  | succ n ih => exact runEvent_inv (s := { st n with inbox := [] }) ih (IsRun.runEvent hrun n)

theorem IsRun.cfg (hrun : IsRun st ev) (n : Nat) : (st (n + 1)).cfg = (st n).cfg :=
  (runEvent_keeps_parameters (IsRun.runEvent hrun n)).1

/-- In each turn a write that waits goes on to wait, or the turn ends the wait. -/
theorem IsRun.stillWaits_or_waitEnds (hrun : IsRun st ev) (hi : (st 0).Inv) (hne : ∀ m spk mic, ev m ≠ .reset spk mic)
    (hw : ((st n).channel pin).pend = some w) :
    StillWaits (ev n) pin w (st n) (st (n + 1)) ∨ WaitEnds pin w (st n) (st (n + 1)) := by
  rcases waiting_event (s := { st n with inbox := [] }) (IsRun.inv hrun hi n) (IsRun.runEvent hrun n) (hne n) hw with h | h
  · exact .inl ⟨h.pending, h.buffer, h.read⟩
  · exact .inr h

/-! ### Fairness and the reading consumer -/

/-- A write whose wait does not end waits in every later turn. -/
theorem waitsThrough_of_not_ends (hrun : IsRun st ev) (hi : (st 0).Inv) (hne : ∀ m spk mic, ev m ≠ .reset spk mic)
    (hw : ((st n).channel pin).pend = some w) (hends : ¬ EventuallyEnds st pin n w) {k : Nat} (hk : n ≤ k) :
    ∃ w', WaitsThrough st pin n k w w' ∧ StillWaits (ev k) pin w' (st k) (st (k + 1)) := by
  have still : ∀ {k w'}, WaitsThrough st pin n k w w' → StillWaits (ev k) pin w' (st k) (st (k + 1)) := fun {k w'} h =>
    (IsRun.stillWaits_or_waitEnds hrun hi hne h.pending).resolve_right fun he => hends ⟨k, w', h, he⟩
  induction k, hk using Nat.le_induction with
  | base => exact ⟨w, .refl hw, still (.refl hw)⟩
  | succ k _ ih =>
    obtain ⟨w', h, hstill⟩ := ih
    obtain ⟨w'', h', -⟩ := WaitsThrough.of_stillWaits h.pending hstill
    exact ⟨w'', h.trans h', still (h.trans h')⟩

/-- Once the consumer has read, the buffer stays below its capacity in all turns in which the progress step does not run. -/
theorem buffer_below_capacity {m : Nat} (hrun : IsRun st ev)
    (hstill : ∀ k, m ≤ k → ∃ w', StillWaits (ev k) pin w' (st k) (st (k + 1)))
    (hno : ∀ k, m ≤ k → ((st k).channel pin).buf.length < (st k).cfg.fifoCapacity → ev k ≠ .progress pin)
    {len : BitVec 32} (hlen : len ≠ 0) (hread : ev m = .command (encode (.chRead pin len))) {k : Nat} (hk : m + 1 ≤ k) :
    ((st k).channel pin).buf.length < (st k).cfg.fifoCapacity := by
  induction k, hk using Nat.le_induction with
  | base =>
    obtain ⟨w', h⟩ := hstill m le_rfl
    exact h.read len hlen hread
  | succ k hk ih =>
    have hmk : m ≤ k := Nat.le_of_succ_le hk
    obtain ⟨w', h⟩ := hstill k hmk
    rw [IsRun.cfg hrun k]
    exact (h.buffer (hno k hmk ih)).trans_lt ih

/-- In a weakly fair run with a reading consumer the wait ends, or at some turn more bytes are enqueued. -/
theorem ends_or_grows (hrun : IsRun st ev) (hfair : WeaklyFair st ev) (hreads : KeepsReading pin ev) (hi : (st 0).Inv)
    (hne : ∀ m spk mic, ev m ≠ .reset spk mic) (hw : ((st n).channel pin).pend = some w) :
    EventuallyEnds st pin n w ∨ ∃ k w', WaitsThrough st pin n k w w' ∧ w.done < w'.done := by
  by_contra hcon
  obtain ⟨hends, hstuck⟩ := not_or.mp hcon
  have waits := fun {k} => waitsThrough_of_not_ends (k := k) hrun hi hne hw hends
  have never : ∀ k, n ≤ k → (st k).progressEnabled pin = true → ev k ≠ .progress pin := by
    intro k hk hen hev
    obtain ⟨w', h, hstill⟩ := waits hk
    obtain ⟨w'', h', hgrows⟩ := WaitsThrough.of_stillWaits h.pending hstill
    exact hstuck ⟨k + 1, w'', h.trans h', h.grows.trans_lt (hgrows hev hen)⟩
  have enabled : ∀ k, n ≤ k → ((st k).channel pin).buf.length < (st k).cfg.fifoCapacity →
      (st k).progressEnabled pin = true := by
    intro k hk hlt
    obtain ⟨w', h, -⟩ := waits hk
    exact progressEnabled_of_pend (h.waits k hk le_rfl) hlt
  obtain ⟨m, len, hm, hlen, hread⟩ := hreads n
  have always : ∀ k, m + 1 ≤ k → (st k).progressEnabled pin = true := by
    intro k hk
    refine enabled k (by omega) (buffer_below_capacity hrun (fun j hj => ?_) (fun j hj hlt => ?_) hlen hread hk)
    · obtain ⟨w', -, hstill⟩ := waits (hm.trans hj)
      exact ⟨w', hstill⟩
    · exact never j (hm.trans hj) (enabled j (hm.trans hj) hlt)
  obtain ⟨k, hk, hev⟩ := hfair pin (m + 1) always
  exact never k (by omega) (always k hk) hev

/-- The wait ends, by induction on the number of bytes left: each time more are enqueued it is smaller. -/
theorem eventuallyEnds (hrun : IsRun st ev) (hfair : WeaklyFair st ev) (hreads : KeepsReading pin ev) (hi : (st 0).Inv)
    (hne : ∀ m spk mic, ev m ≠ .reset spk mic) (hw : ((st n).channel pin).pend = some w) : EventuallyEnds st pin n w := by
  induction hr : w.rest.length using Nat.strong_induction_on generalizing n w with
  | _ r ih =>
    rcases ends_or_grows hrun hfair hreads hi hne hw with h | ⟨k, w', h, hgrows⟩
    · exact h
    · have hlt : w'.rest.length < r := by have := h.total; omega
      exact .of_waitsThrough h (ih _ hlt h.pending rfl)

end

/-- A write waits with bytes left only (10_state.md R49). -/
theorem State.Inv.rest_of_pend {s : State} {pin : BitVec 8} {w : Pending} (hi : s.Inv)
    (hw : (s.channel pin).pend = some w) : 0 < w.rest.length := by
  obtain ⟨-, -, -, hpend⟩ := State.Inv.channel hi pin
  rw [hw, Option.all_some, decide_eq_true_eq] at hpend
  obtain ⟨-, -, hrest, -⟩ := hpend
  exact List.length_pos_iff.mpr hrest

/-- Settles O60: the wait ends, and the write that waits last has the bytes in all of the first. -/
theorem waitingWriteCompletesInFairRuns : Obligations.WaitingWriteCompletesInFairRuns := by
  intro st ev pin n w hrun hfair hreads hi hne hw
  obtain ⟨m, w', h, hnone, hreply⟩ := eventuallyEnds hrun hfair hreads hi hne hw
  refine ⟨m, h.le, h.waits, hnone, ?_⟩
  rcases hreply with hok | hclosed
  · rw [h.total] at hok
    exact .inl hok
  · have hrest : 0 < w'.rest.length := State.Inv.rest_of_pend (IsRun.inv hrun hi m) h.pending
    exact .inr ⟨w'.done, h.grows, by have := h.total; omega, hclosed⟩

end Sys2Proof.Proofs
end

section
/-! PROOFS. The control of the family 42_control.md: the handle (R191, R192), the two records and their queries (R193 to R198), and
CQ.MUTE (R200). -/

namespace Sys2Proof.Proofs

open Sys2Proof Sys2Proof.Machine

/-! ### The handle and the mute flag -/

theorem execCqClose_of_open {s : State} (h : s.handle = true) :
    execCqClose s = .next { s with handle := false, out := s.out ++ [reply 0 0 []] } := by
  rw [execCqClose, if_neg (by simp [h])]
  rfl

theorem execCqClose_of_closed {s : State} (h : s.handle = false) :
    execCqClose s = .next { s with out := s.out ++ [reply 2 0 []] } := by
  rw [execCqClose, if_pos h]
  rfl

/-- Settles O47: CQ.OPEN checks nothing, CQ.CLOSE the handle only. -/
theorem cqOpenAndCloseTheHandle : Obligations.CqOpenAndCloseTheHandle := fun _ =>
  ⟨execCqOpen_eq_next.mpr rfl, execCqClose_of_open, execCqClose_of_closed⟩

/-- Settles O50: CQ.MUTE checks nothing. -/
theorem cqMuteWritesTheFlag : Obligations.CqMuteWritesTheFlag := fun _ _ => execCqMute_eq_next.mpr rfl

/-! ### The layout of the records -/

/-- What stands behind a word of `k` bytes at offset `n` of a record. -/
theorem drop_add_of_drop_eq_leBytes {record rest : List Byte} {n k v : Nat} (h : record.drop n = leBytes k v ++ rest) :
    record.drop (n + k) = rest := by
  rw [← List.drop_drop, h, List.drop_left' (length_leBytes k v)]

/-- A u32 at the front of a record reads back. -/
theorem ofLeBytes_take_u32 (v : BitVec 32) (rest : List Byte) : ofLeBytes ((leBytes 4 v.toNat ++ rest).take 4) = v.toNat := by
  rw [List.take_left' (length_leBytes _ _), ofLeBytes_leBytes_toNat rfl]

@[simp] theorem length_infoRecord (cfg : Config) : (infoRecord cfg).length = 32 := by
  simp [infoRecord]

@[simp] theorem length_statusRecord (s : State) : (statusRecord s).length = 36 := by
  simp [statusRecord]

/-- The fields of the InfoRecord, each in front of the rest. -/
theorem infoRecord_eq (cfg : Config) :
    infoRecord cfg = leBytes 4 cfg.infoVersion.toNat
      ++ (leBytes 4 cfg.numSpeakers.toNat ++ (leBytes 4 cfg.numMics.toNat ++ List.replicate 20 0)) := by
  rw [infoRecord, List.append_assoc, List.append_assoc]

theorem drop_four_infoRecord (cfg : Config) :
    (infoRecord cfg).drop 4 = leBytes 4 cfg.numSpeakers.toNat ++ (leBytes 4 cfg.numMics.toNat ++ List.replicate 20 0) :=
  drop_add_of_drop_eq_leBytes (n := 0) (infoRecord_eq cfg)

theorem drop_eight_infoRecord (cfg : Config) :
    (infoRecord cfg).drop 8 = leBytes 4 cfg.numMics.toNat ++ List.replicate 20 0 :=
  drop_add_of_drop_eq_leBytes (n := 4) (drop_four_infoRecord cfg)

theorem drop_twelve_infoRecord (cfg : Config) : (infoRecord cfg).drop 12 = List.replicate 20 0 :=
  drop_add_of_drop_eq_leBytes (n := 8) (drop_eight_infoRecord cfg)

theorem take_four_statusRecord (s : State) :
    (statusRecord s).take 4 = [boolByte s.env.spk, boolByte s.env.mic, 0, 0] := rfl

theorem drop_four_statusRecord (s : State) :
    (statusRecord s).drop 4 = leBytes 4 s.syn.actRate.toNat ++ List.replicate 28 0 := rfl

theorem drop_eight_statusRecord (s : State) : (statusRecord s).drop 8 = List.replicate 28 0 :=
  drop_add_of_drop_eq_leBytes (n := 4) (drop_four_statusRecord s)

/-! ### The queries -/

section

variable {record : List Byte} {len : BitVec 32} {s t : State}

/-- A query with the handle open and room for the record gives all of it. -/
theorem query_of_room (hopen : s.handle = true) (hroom : record.length ≤ len.toNat) :
    query record len s = .next { s with out := s.out ++ [reply 0 0 record] } := by
  rw [query, if_neg (by simp [hopen]), if_neg hroom.not_gt]
  rfl

/-- A query without the handle or without room gives no byte (R197). -/
theorem query_of_refused (h : s.handle = false ∨ len.toNat < record.length) :
    query record len s = .next { s with out := s.out ++ [reply 2 0 []] } := by
  rw [query]
  split
  · rfl
  · next hopen =>
    rw [if_pos (h.resolve_left hopen)]
    rfl

/-- A query answered OK has given its record and left the parameters. -/
theorem query_answered_ok {bytes : List Byte} (h : query record len s = .next t)
    (hr : newResponses s t = [reply 0 0 bytes]) : bytes = record ∧ t.cfg = s.cfg := by
  rcases query_eq_next h with ⟨-, rfl⟩ | ⟨-, -, rfl⟩ <;> rw [newResponses_answer rfl, List.singleton_inj] at hr
  · have hcode : Status.invalidArgument.rsp = 0 := congrArg Response.rsp hr
    exact absurd hcode (by decide)
  · exact ⟨(congrArg Response.payload hr).symm, rfl⟩

end

/-- Settles O48: the query of the InfoRecord, whose fields lie one after another. -/
theorem cqInfoGivesTheRecord : Obligations.CqInfoGivesTheRecord := by
  intro s len
  have hlen := length_infoRecord s.cfg
  refine ⟨fun hopen hroom => ⟨infoRecord s.cfg, query_of_room hopen (hlen.trans_le hroom), hlen, ?_, ?_, ?_,
    drop_twelve_infoRecord _⟩, fun h => query_of_refused (by rwa [hlen])⟩
  · rw [infoRecord_eq, ofLeBytes_take_u32]
  · rw [drop_four_infoRecord, ofLeBytes_take_u32]
  · rw [drop_eight_infoRecord, ofLeBytes_take_u32]

/-- Settles O49: the query of the StatusRecord of this state. -/
theorem cqStatusGivesTheRecord : Obligations.CqStatusGivesTheRecord := by
  intro s len
  have hlen := length_statusRecord s
  refine ⟨fun hopen hroom => ⟨statusRecord s, query_of_room hopen (hlen.trans_le hroom), hlen, take_four_statusRecord s, ?_,
    drop_eight_statusRecord s⟩, fun h => query_of_refused (by rwa [hlen])⟩
  rw [drop_four_statusRecord, ofLeBytes_take_u32]

/-! ### The InfoRecord over a run -/

/-- A run of some events is the first one and then the run of the others. -/
theorem runAll_cons_eq_next {e : Event} {rest : List Event} {s t : State} (h : runAll (e :: rest) s = .next t) :
    ∃ u, runEvent e s = .next u ∧ runAll rest u = .next t := by
  cases he : runEvent e s with
  | next u => exact ⟨u, rfl, by simpa only [runAll, he] using h⟩
  | fault r => cases r
  | refused r => simp only [runAll, he, reduceCtorEq] at h

/-- No run changes the parameters, by induction on its events. -/
theorem runAll_cfg {es : List Event} {s t : State} (h : runAll es s = .next t) : t.cfg = s.cfg := by
  induction es generalizing s with
  | nil => rw [Host.Outcome.next.inj h]
  | cons e rest ih =>
    obtain ⟨u, hu, hrest⟩ := runAll_cons_eq_next h
    exact (ih hrest).trans (runEvent_keeps_parameters hu).1

/-- Settles O51: both payloads are the InfoRecord of parameters that no event between the two changes. -/
theorem infoIsIdempotentAcrossSteps : Obligations.InfoIsIdempotentAcrossSteps := by
  intro s t u v es n m a b hu ha hrun hv hb
  obtain ⟨rfl, hfirst⟩ := query_answered_ok hu ha
  obtain ⟨rfl, -⟩ := query_answered_ok hv hb
  rw [runAll_cfg hrun, hfirst]

end Sys2Proof.Proofs
end

section
/-! PROOFS. The errors of the family 60_exceptions.md: a command answered with an error is precise (R222), SYN.INIT apart. -/

namespace Sys2Proof.Proofs

open Sys2Proof Sys2Proof.Machine

/-- How a command other than SYN.INIT ends. The responses before an OK are those a close gives to the write that waited
(41_channel.md R163), so the issuer's own response is always the last. -/
inductive EndsPrecisely (s : State) : State → Prop
  | raised (st : Status) : EndsPrecisely s (s.answer .issuer st 0 [])
  | noResponse {t : State} (hout : t.out = s.out) : EndsPrecisely s t
  | ok {u : State} {result : BitVec 64} {p : List Byte} (hout : s.out <+: u.out) :
      EndsPrecisely s (u.answer .issuer .ok result p)

/-- The responses up to an OK end with that OK. -/
theorem newResponses_answer_of_prefix {s u : State} (h : s.out <+: u.out) (who : Recipient) (st : Status) (result : BitVec 64)
    (p : List Byte) :
    newResponses s (u.answer who st result p)
      = newResponses s u ++ [{ recipient := who, rsp := st.rsp, result := result, payload := p }] := by
  rw [newResponses, newResponses, State.answer_out, List.drop_append_of_le_length h.length_le]

/-- Of the three ends only a raise gives one response that is an error: the others give none, or an OK last. -/
theorem EndsPrecisely.eq_of_error {s t : State} {r : Response} (h : EndsPrecisely s t) (hr : newResponses s t = [r])
    (hne : r.rsp ≠ 0) : t = { s with out := s.out ++ [r] } ∧ r.result = 0 ∧ r.payload = [] := by
  cases h with
  | raised st =>
    rw [newResponses_answer rfl, List.singleton_inj] at hr
    subst hr
    exact ⟨rfl, rfl, rfl⟩
  | noResponse hout =>
    rw [newResponses, hout, List.drop_length] at hr
    cases hr
  | ok hout =>
    rw [newResponses_answer_of_prefix hout] at hr
    obtain rfl := List.mem_singleton.mp (hr ▸ List.mem_concat_self)
    exact absurd rfl hne

theorem execChWrite_endsPrecisely {pin : BitVec 8} {len : BitVec 32} {payload : List Byte} {s t : State}
    (h : execChWrite pin len payload s = .next t) : EndsPrecisely s t := by
  obtain ⟨-, ⟨-, rfl⟩ | ⟨-, ⟨-, rfl⟩ | ⟨-, -, rfl⟩ | ⟨-, -, h⟩⟩⟩ := execChWrite_eq_next h
  · exact .raised _
  · exact .noResponse rfl
  · exact .raised _
  rcases h with ⟨-, rfl⟩ | ⟨-, -, rfl⟩ | ⟨-, -, -, rfl⟩ | ⟨-, -, -, rfl⟩
  · exact .ok List.prefix_rfl
  · exact .ok List.prefix_rfl
  · exact .raised _
  · exact .noResponse rfl

/-- Every command but SYN.INIT checks before it changes anything: each of its errors is a raise from the state it began in. -/
theorem exec_endsPrecisely {i : Instr} {s t : State} (h : exec i s = .next t) (hi : i ≠ .synInit) : EndsPrecisely s t := by
  cases i with
  | synInit => exact absurd rfl hi
  | synGen n =>
    rcases execSynGen_eq_next h with ⟨-, rfl⟩ | ⟨-, rfl⟩
    · exact .raised _
    · exact .ok List.prefix_rfl
  | synWreg r v =>
    rcases execSynWreg_eq_next h with rfl | ⟨_, _, -, -, rfl⟩
    · exact .raised _
    · exact .ok List.prefix_rfl
  | synRreg r =>
    rcases execSynRreg_eq_next h with rfl | ⟨_, -, rfl⟩
    · exact .raised _
    · exact .ok List.prefix_rfl
  | chCreate q b =>
    rcases execChCreate_eq_next h with ⟨-, rfl⟩ | ⟨-, -, rfl⟩ | ⟨-, -, rfl⟩
    · exact .raised _
    · exact .raised _
    · exact .ok List.prefix_rfl
  | chWrite q n p => exact execChWrite_endsPrecisely h
  | chClosep q =>
    rcases execChClosep_eq_next h with ⟨-, rfl⟩ | ⟨-, -, rfl⟩ | ⟨-, -, rfl⟩
    · exact .raised _
    · exact .raised _
    · exact .ok (List.prefix_append _ _)
  | chRead q n =>
    rcases execChRead_eq_next h with ⟨-, rfl⟩ | ⟨-, -, rfl⟩ | ⟨-, -, rfl⟩
    · exact .raised _
    · exact .raised _
    · exact .ok List.prefix_rfl
  | chClosec q =>
    rcases execChClosec_eq_next h with ⟨-, rfl⟩ | ⟨-, -, rfl⟩ | ⟨-, -, rfl⟩
    · exact .raised _
    · exact .raised _
    · exact .ok (List.prefix_append _ _)
  | cqOpen =>
    rw [execCqOpen_eq_next.mp h]
    exact .ok List.prefix_rfl
  | cqClose =>
    rcases execCqClose_eq_next h with ⟨-, rfl⟩ | ⟨-, rfl⟩
    · exact .raised _
    · exact .ok List.prefix_rfl
  | cqInfo n =>
    rcases query_eq_next h with ⟨-, rfl⟩ | ⟨-, -, rfl⟩
    · exact .raised _
    · exact .ok List.prefix_rfl
  | cqStatus n =>
    rcases query_eq_next h with ⟨-, rfl⟩ | ⟨-, -, rfl⟩
    · exact .raised _
    · exact .ok List.prefix_rfl
  | cqMute m =>
    rw [execCqMute_eq_next.mp h]
    exact .ok List.prefix_rfl

/-- Settles O53: by how the command ends, whose only error is a raise. -/
theorem errorsArePrecise : Obligations.ErrorsArePrecise := fun _ _ _ _ h hi =>
  (exec_endsPrecisely h hi).eq_of_error

end Sys2Proof.Proofs
end

section
/-! PROOFS. The reset event of the family 70_reset_and_hazards.md: the reset state, and the waiting and held writes it marks as
abandoned (R250, R251). -/

namespace Sys2Proof.Proofs

open Sys2Proof Sys2Proof.Machine

theorem abandonedOn_of_pend {pin : Nat} {c : Channel} {w : Pending} (h : c.pend = some w) :
    abandonedOn pin c = [.waiting pin w.done] := by
  rw [abandonedOn, h]

/-- Numbering the channels from `pin` on, the write waiting on the one in place `i` is marked under `pin + i`. -/
theorem waiting_mem_abandonedFrom {cs : List Channel} {pin i : Nat} {w : Pending} (h : cs[i]?.bind Channel.pend = some w) :
    .waiting (pin + i) w.done ∈ abandonedFrom pin cs := by
  induction cs generalizing pin i with
  | nil => cases h
  | cons c cs ih =>
    rw [abandonedFrom, List.mem_append]
    cases i with
    | zero =>
      rw [abandonedOn_of_pend h]
      exact .inl (List.mem_singleton_self _)
    | succ i =>
      rw [Nat.add_comm i 1, ← Nat.add_assoc]
      exact .inr (ih h)

/-- Settles O56: the reset state is written out in the event, and its marks hold every waiting write and every held one. -/
theorem resetAbandonsWaitingWrites : Obligations.ResetAbandonsWaitingWrites := by
  intro s spk mic rest hin
  refine ⟨_, step_cons hin, rfl, rfl, rfl, rfl, rfl, rfl, rfl, rfl, fun p w hw => ?_, fun w hw => ?_⟩
  · have hmark := waiting_mem_abandonedFrom (pin := 0) hw
    rw [Nat.zero_add] at hmark
    exact List.mem_append_right _ (List.mem_append_left _ hmark)
  · exact List.mem_append_right _ (List.mem_append_right _ (List.mem_map_of_mem hw))

end Sys2Proof.Proofs
end
